-- ==== Sys2Proof/Word.lean ====
section
/-! DEFINITION. The word types of the ACE block: a byte, the 32-bit word of the address and size registers
(00_scope.md R7: P_ADDR_W = P_SIZE_W = 32), and the 24-byte host command word CMDW, held as the number
le(CMDW[0..24)) in which spec/opcode_table.json numbers its bits (30_encoding.md R100). -/

namespace Sys2Proof

/-- One byte. -/
abbrev Byte := BitVec 8

/-- A 32-bit register or field. -/
abbrev Word32 := BitVec 32

/-- CMDW: the 24-byte host command descriptor, byte `i` at bits `8*i+7 .. 8*i` (R100, little-endian). -/
abbrev CmdW := BitVec 192

end Sys2Proof
end

