-- ==== Sys2Proof/Machine/Wire.lean ====
section
/-! DEFINITION. What crosses the transport port: the request kinds of 30_encoding.md R110 to R112 and the answer
forms of R113. Also the two small vocabularies that the registry and the frames share: interface and family. -/

namespace Sys2Proof

/-- Register IFACE (10_state.md R32): 0 I2C, 1 SPI. -/
inductive Iface where
  | i2c
  | spi
  deriving DecidableEq, Repr, Inhabited

/-- Register FAMILY (10_state.md R32): codes 0 to 4. Codes 5 to 7 are never written, so they have no constructor. -/
inductive Family where
  | i2cEe
  | spiNarrow
  | spiNorSfdp
  | stub0
  | stub1
  deriving DecidableEq, Repr, Inhabited

/-- The three hardware families: what is left of FAMILY once check 5 of R305 has excluded the stubs. -/
inductive HwFamily where
  | i2cEe
  | spiNarrow
  | spiNorSfdp
  deriving DecidableEq, Repr

/-- The TransactionDescriptor of R110: one SPI exchange. A field of width 0 is absent from the frame. -/
structure SpiXfer where
  /-- opcode value, of which bits OPW-1..0 are meaningful -/
  opc : BitVec 16
  /-- opcode width in bits, 0..16 -/
  opw : Nat
  /-- address value, of which bits ADW-1..0 are meaningful -/
  adr : Word32
  /-- address width in bits, 0..32 -/
  adw : Nat
  /-- dummy width in bits, 0..255 -/
  dmw : Nat
  /-- write data -/
  wdata : List Byte
  /-- read length in bytes -/
  rlen : Nat
  /-- timeout, always P_TXN_TIMEOUT_MS -/
  tmo : Nat
  deriving DecidableEq, Repr

/-- A request on the transport port: these are all the kinds (R112). -/
inductive Request where
  /-- `W_SPI_XFER`, R110 -/
  | spiXfer (d : SpiXfer)
  /-- `W_I2C_WRITE(SELB, WDATA, TMO)`, R111 -/
  | i2cWrite (selb : Byte) (wdata : List Byte) (tmo : Nat)
  /-- `W_I2C_WRITE_READ(SELB, WDATA, RLEN, TMO)`, R111 -/
  | i2cWriteRead (selb : Byte) (wdata : List Byte) (rlen : Nat) (tmo : Nat)
  /-- `W_DELAY(MS)`, R112; that MS has 32 bits is the model's choice (log 21) -/
  | delay (ms : Word32)
  /-- `W_TDEINIT`, R112 -/
  | tdeinit
  deriving DecidableEq, Repr

/-- A transport error code: "e is a negative 32-bit error code chosen by the transport" (R113, R303). Only the
31 low bits are free, so a code that is not negative cannot be written down (93_implementation_defined.md I11). -/
structure NegCode where
  low : BitVec 31
  deriving DecidableEq, Repr, Inhabited

/-- The answer to `W_SPI_XFER` and `W_I2C_WRITE_READ` (R113): `OK(RDATA)` or `ERR(e)`. -/
inductive XferAnswer where
  | ok (rdata : List Byte)
  | err (e : NegCode)
  deriving DecidableEq, Repr, Inhabited

/-- The answer to `W_I2C_WRITE` (R113): `OK(n)` or `ERR(e)`. -/
inductive CountAnswer where
  | ok (n : Nat)
  | err (e : NegCode)
  deriving DecidableEq, Repr, Inhabited

/-- The answer to `W_TDEINIT` (R113): `OK` or `FAIL`. -/
inductive ReleaseAnswer where
  | ok
  | fail
  deriving DecidableEq, Repr, Inhabited

/-- The answer one request got. `W_DELAY` has no response and always completes (R113). -/
inductive Answer where
  | xfer (a : XferAnswer)
  | count (a : CountAnswer)
  | release (a : ReleaseAnswer)
  | noResponse
  deriving DecidableEq, Repr

end Sys2Proof
end

