-- ==== Sys2Proof/Config.lean ====
section
/-! DEFINITION. The parameters of the ACE block (00_scope.md R7, R10 to R12) as one record `Params`, the values
95_test_vectors.md suggests for them (`Config.suggested`), and the free values the spec leaves open: opaque
constants without a body, of which nothing can be proved. -/

namespace Sys2Proof

/-- The geometry a registry entry carries (R10): numbers without a width. The admission conditions bound them. -/
structure Geometry where
  size : Nat
  addrLen : Nat
  pageSize : Nat
  writeDelayMs : Nat
  deriving DecidableEq, Repr

/-- One entry of P_REGISTRY (R10): `HW` with either of its two families, `SFDP()`, `SENTINEL`, `STUB(0)`, `STUB(1)`. -/
inductive Entry where
  | hwI2cEe (g : Geometry)
  | hwSpiNarrow (g : Geometry)
  | sfdp
  | sentinel
  | stub0
  | stub1
  deriving DecidableEq, Repr

/-- A P_NARROW_OPC constant (R11): opcode value, its width in bits, and the 2-bit sub-operation code or NONE. -/
structure NarrowConst where
  opc : BitVec 16
  opw : Nat
  sub : Option (BitVec 2)
  deriving DecidableEq, Repr

/-- P_NARROW_OPC (R7, R11). -/
structure NarrowOpcodes where
  read : NarrowConst
  write : NarrowConst
  erase : NarrowConst
  ewen : NarrowConst
  ewds : NarrowConst
  eral : NarrowConst
  deriving DecidableEq, Repr

/-- A P_NOR_OPC constant (R12): opcode value and its width in bits. -/
structure NorConst where
  opc : BitVec 16
  opw : Nat
  deriving DecidableEq, Repr

/-- P_NOR_OPC (R7, R12). The width of RDSFDP is fixed at 8 (R8), so only its value is a parameter. -/
structure NorOpcodes where
  wren : NorConst
  wrdi : NorConst
  rdsr : NorConst
  wrsr : NorConst
  read : NorConst
  pp : NorConst
  rdid : NorConst
  rdsfdpOpc : BitVec 16
  deriving DecidableEq, Repr

/-- P_WE_POLICY (R7, R173). -/
inductive WePolicy where
  | perTxn
  | noEnable
  deriving DecidableEq, Repr

/-- P_DENSITY_RULE (R7, R259). -/
inductive DensityRule where
  | doc
  | jedec
  deriving DecidableEq, Repr

/-- P_ADDRBYTES_RSVD (R7, R256). -/
inductive AddrBytesRsvd where
  | fail
  | four
  deriving DecidableEq, Repr

/-- The parameters of R7. P_ADDR_W and P_SIZE_W are 32 by decision D5 and stand in the register types. DESIGN CHOICE
(log 21): the spec states no width for the delay parameters, nor for the MS of `W_DELAY(MS)`. The model gives
P_NOR_SECTOR_DELAY_MS, P_NARROW_ERAL_DELAY_MS and MS 32 bits, those of WRITE_DELAY_MS (R32). -/
structure Params where
  /-- P_REGISTRY -/
  registry : List Entry
  /-- P_TXN_TIMEOUT_MS -/
  txnTimeoutMs : Nat
  /-- P_NARROW_OPC -/
  narrow : NarrowOpcodes
  /-- P_NOR_OPC -/
  nor : NorOpcodes
  /-- P_NARROW_READ_DUMMY; 0..255 as the DMW field of R110 -/
  narrowReadDummy : Byte
  /-- P_NOR_READ_DUMMY; 0..255 as the DMW field of R110 -/
  norReadDummy : Byte
  /-- P_WE_POLICY -/
  wePolicy : WePolicy
  /-- P_NOR_PAGE_DELAY_MS; 32 bits as WRITE_DELAY_MS, which it is written to (R262) -/
  norPageDelayMs : Word32
  /-- P_NOR_SECTOR_DELAY_MS; 32 bits (log 21) -/
  norSectorDelayMs : Word32
  /-- P_NARROW_ERAL_DELAY_MS; 32 bits (log 21); `none` is its suggested value, the variant's own WRITE_DELAY_MS (log 15) -/
  narrowEralDelayMs : Option Word32
  /-- P_DENSITY_RULE -/
  densityRule : DensityRule
  /-- P_ADDRBYTES_RSVD -/
  addrBytesRsvd : AddrBytesRsvd
  /-- P_STUB_IF[0] -/
  stubIface0 : Iface
  /-- P_STUB_IF[1] -/
  stubIface1 : Iface
  deriving DecidableEq, Repr

namespace Config

/-- FREE VALUE (log 4): the answer of a `W_SPI_XFER` or `W_I2C_WRITE_READ` past the end of the listed answers.
The answer is a free input of the step (R318). -/
opaque freeXferAnswer : Nat → XferAnswer

/-- FREE VALUE (log 4): the answer of a `W_I2C_WRITE` past the end of the listed answers (R318). -/
opaque freeCountAnswer : Nat → CountAnswer

/-- FREE VALUE (log 4): the answer of a `W_TDEINIT` past the end of the listed answers (R318). -/
opaque freeReleaseAnswer : Nat → ReleaseAnswer

/-- FREE VALUE (log 5): STATUS after a success whose byte count does not fit the 32-bit two's-complement STATUS
register, that is a count of 2^31 or more. The spec states no result there (R15, R36). -/
opaque freeCountStatus : Nat → Word32

/-- FREE VALUE (log 22): SIZE after INIT of an entry whose size does not fit the register. R10 admits a SPI_NARROW entry
of 2^32 bytes, and R32 gives SIZE 32 bits; the spec states no value there. -/
opaque freeSizeRegister : Nat → Word32

/-- FREE VALUE (log 22): which of the legal values of R32, 0 or a power of two, PAGE_SIZE has after INIT of an entry whose
page size does not fit the register: `k` below 32 stands for 2^k, and 32 for 0. -/
opaque freePageSizeExponent : Nat → Fin 33

/-- The example registry of 95_test_vectors.md section 2, which 93_implementation_defined.md section 2 suggests for
P_REGISTRY. DESIGN CHOICE (log 3): the spec leaves the registry open. -/
def suggestedRegistry : List Entry :=
  [ .hwI2cEe ⟨2048, 8, 16, 5⟩,
    .hwI2cEe ⟨32768, 16, 64, 5⟩,
    .sentinel,
    .hwSpiNarrow ⟨128, 7, 1, 5⟩,
    .sentinel,
    .sfdp,
    .stub0,
    .stub1 ]

/-- The narrow-SPI constants that D10 suggests (93_implementation_defined.md G3). -/
def suggestedNarrow : NarrowOpcodes where
  read := ⟨0b110#16, 3, none⟩
  write := ⟨0b101#16, 3, none⟩
  erase := ⟨0b111#16, 3, none⟩
  ewen := ⟨0b100#16, 3, some 0b11#2⟩
  ewds := ⟨0b100#16, 3, some 0b00#2⟩
  eral := ⟨0b100#16, 3, some 0b10#2⟩

/-- The NOR constants that D11 suggests (93_implementation_defined.md G4). -/
def suggestedNor : NorOpcodes where
  wren := ⟨0x06#16, 8⟩
  wrdi := ⟨0x04#16, 8⟩
  rdsr := ⟨0x05#16, 8⟩
  wrsr := ⟨0x01#16, 8⟩
  read := ⟨0x03#16, 8⟩
  pp := ⟨0x02#16, 8⟩
  rdid := ⟨0x9F#16, 8⟩
  rdsfdpOpc := 0x5A#16

/-- The parameter values of 95_test_vectors.md section 0. DESIGN CHOICE (log 3): the reset state carries these;
every statement about a machine with parameters quantifies over them. -/
def suggested : Params where
  registry := suggestedRegistry
  txnTimeoutMs := 1000
  narrow := suggestedNarrow
  nor := suggestedNor
  narrowReadDummy := 1#8
  norReadDummy := 0#8
  wePolicy := .perTxn
  norPageDelayMs := 3#32
  norSectorDelayMs := 50#32
  narrowEralDelayMs := none
  densityRule := .doc
  addrBytesRsvd := .fail
  stubIface0 := .spi
  stubIface1 := .i2c

end Config

end Sys2Proof
end

