-- ==== Sys2Proof/Machine/Operands.lean ====
section
/-! DEFINITION. Number and byte-sequence operands: bitlength and pow2 (00_scope.md R14), the big- and little-endian
byte encodings (R16), and the address field of an SPI frame (40_codec.md R154). -/

namespace Sys2Proof

/-- The byte whose value is `v mod 256`. -/
def byteOf (v : Nat) : Byte := BitVec.ofNat 8 v

/-- `bitlength(n)`: the number of binary digits of n, with bitlength(0) = 0 (R14). -/
def bitlength (n : Nat) : Nat := if n = 0 then 0 else n.log2 + 1

/-- `pow2(n)`: n = 2^k for some k, so pow2(0) is false (R14). -/
def pow2 (n : Nat) : Bool := n == 2 ^ n.log2

/-- `be(v, n)`: the n-byte big-endian encoding of `v mod 2^(8n)` (R16). -/
def beBytes (v : Nat) : Nat → List Byte
  | 0 => []
  | n + 1 => byteOf (v / 2 ^ (8 * n)) :: beBytes v n

/-- The number whose big-endian byte encoding is the list (the inverse of `beBytes`). -/
def beNat : List Byte → Nat
  | [] => 0
  | b :: bs => b.toNat * 2 ^ (8 * bs.length) + beNat bs

/-- The n-byte little-endian encoding of `v mod 2^(8n)` (R76). -/
def leBytes (v : Nat) : Nat → List Byte
  | 0 => []
  | n + 1 => byteOf v :: leBytes (v / 256) n

/-- `le(s)`: the number whose little-endian byte encoding is s (R16). -/
def leNat : List Byte → Nat
  | [] => 0
  | b :: bs => b.toNat + 256 * leNat bs

/-- An address placed in an ADW-bit SPI address field: `x mod 2^ADW` (R154). -/
def addressField (x adw : Nat) : Word32 := BitVec.ofNat 32 (x % 2 ^ adw)

/-- An opcode cut to its OPW meaningful bits (R110, R290). -/
def opcodeField (opc opw : Nat) : BitVec 16 := BitVec.ofNat 16 (opc % 2 ^ opw)

end Sys2Proof
end

