-- ==== Sys2Proof/Machine/Flags.lean ====
section
/-! DEFINITION. The one status word: the error taxonomy and its codes (60_exceptions.md R300, R301), a transport's
own code (R303), and the classification of one transport answer (R306). The block has no condition codes
(10_state.md R38): STATUS and its sign are all a command reports. -/

namespace Sys2Proof

/-- The error taxonomy (R300). `ok` is never an error; the block itself never raises `outOfMemory` or `timeout`. -/
inductive ErrorName where
  | ok
  | fail
  | outOfMemory
  | invalidArgument
  | timeout
  | sfdpNotSupported
  | sfdpInvalidHeader
  deriving DecidableEq, Repr

/-- `code(E)` as a 32-bit two's-complement integer (R300, R301). -/
def ErrorName.code : ErrorName → Word32
  | .ok => BitVec.ofInt 32 0
  | .fail => BitVec.ofInt 32 (-1)
  | .outOfMemory => BitVec.ofInt 32 (-2)
  | .invalidArgument => BitVec.ofInt 32 (-3)
  | .timeout => BitVec.ofInt 32 (-4)
  | .sfdpNotSupported => BitVec.ofInt 32 (-5)
  | .sfdpInvalidHeader => BitVec.ofInt 32 (-6)

/-- The 32-bit value of a transport's own error code: the sign bit set above its 31 free bits (R303). -/
def NegCode.code (e : NegCode) : Word32 := 1#1 ++ e.low

/-- The two results of the transport step T (R307): `OKR(d)` and `BAD(c)`. -/
inductive TRes where
  | okr (data : List Byte)
  | bad (code : Word32)
  deriving DecidableEq, Repr

/-- R306, rows 1, 2 and 5: the answer to a request that reads `rlen` bytes. -/
def XferAnswer.result (rlen : Nat) : XferAnswer → TRes
  | .ok rdata => if rdata.length = rlen then .okr rdata else .bad ErrorName.fail.code
  | .err e => .bad e.code

/-- R306, rows 3, 4 and 5: the answer to an I2C write of `wlen` bytes, in-band address bytes included. -/
def CountAnswer.result (wlen : Nat) : CountAnswer → TRes
  | .ok n => if n = wlen then .okr [] else .bad ErrorName.fail.code
  | .err e => .bad e.code

/-- R306, row 6: the answer to `W_TDEINIT`. -/
def ReleaseAnswer.result : ReleaseAnswer → TRes
  | .ok => .okr []
  | .fail => .bad ErrorName.fail.code

end Sys2Proof
end

