-- ==== Sys2Proof/Machine/Registry.lean ====
section
/-! DEFINITION. The variant registry: its admission conditions (00_scope.md R10 to R12) and `resolve`
(40_codec.md R140, R141). -/

namespace Sys2Proof

/-- The conditions of R10 on every HW entry. -/
def Geometry.admitted (g : Geometry) : Bool :=
  pow2 g.size && pow2 g.pageSize && decide (g.pageSize ≤ g.size) && decide (g.writeDelayMs < 2 ^ 32)

/-- R10 for an I2C_EE entry; the last condition is `bitlength(size−1) − addr_len ≤ 3` on integers. -/
def Geometry.admittedI2c (g : Geometry) : Bool :=
  g.admitted && (g.addrLen == 8 || g.addrLen == 16) && decide (g.pageSize ≤ 2 ^ g.addrLen)
    && decide (bitlength (g.size - 1) ≤ g.addrLen + 3)

/-- R10 for a SPI_NARROW entry. -/
def Geometry.admittedNarrow (g : Geometry) : Bool :=
  g.admitted && decide (2 ≤ g.addrLen) && decide (g.addrLen ≤ 32) && decide (g.size ≤ 2 ^ g.addrLen)

def Entry.admitted : Entry → Bool
  | .hwI2cEe g => g.admittedI2c
  | .hwSpiNarrow g => g.admittedNarrow
  | .sfdp => true
  | .sentinel => true
  | .stub0 => true
  | .stub1 => true

/-- R10: exactly two SENTINEL entries, exactly the two STUB entries STUB(0) and STUB(1), every HW entry well formed. -/
def registryAdmitted (r : List Entry) : Bool :=
  r.all Entry.admitted && r.count .sentinel == 2 && r.count .stub0 == 1 && r.count .stub1 == 1

/-- An opcode width of a wire constant is 1..16 (R11, R12). -/
def opwAdmitted (w : Nat) : Bool := decide (1 ≤ w) && decide (w ≤ 16)

def NarrowOpcodes.admitted (o : NarrowOpcodes) : Bool :=
  opwAdmitted o.read.opw && opwAdmitted o.write.opw && opwAdmitted o.erase.opw
    && opwAdmitted o.ewen.opw && opwAdmitted o.ewds.opw && opwAdmitted o.eral.opw

def NorOpcodes.admitted (o : NorOpcodes) : Bool :=
  opwAdmitted o.wren.opw && opwAdmitted o.wrdi.opw && opwAdmitted o.rdsr.opw && opwAdmitted o.wrsr.opw
    && opwAdmitted o.read.opw && opwAdmitted o.pp.opw && opwAdmitted o.rdid.opw

/-- The admission conditions of R10 to R12, "checked once when a model is built". -/
def Params.admitted (p : Params) : Bool :=
  registryAdmitted p.registry && p.narrow.admitted && p.nor.admitted

/-- `resolve(v)`: the registry entry, or InvalidArgument for a sentinel or an identifier past the table (R140, R141). -/
def Params.resolve (p : Params) (v : Word32) : Except ErrorName Entry :=
  match p.registry[v.toNat]? with
  | none => .error .invalidArgument
  | some .sentinel => .error .invalidArgument
  | some e => .ok e

/-! ### A geometry in its registers (R32, R142) -/

/-- SIZE for an entry: its size, or a free value where 32 bits do not hold it (log 22). -/
def Geometry.sizeRegister (g : Geometry) : Word32 :=
  if g.size < 2 ^ 32 then BitVec.ofNat 32 g.size else Config.freeSizeRegister g.size

/-- ADDR_LEN for an entry; an admitted one is at most 32. -/
def Geometry.addrLenRegister (g : Geometry) : Byte := BitVec.ofNat 8 g.addrLen

/-- PAGE_SIZE for an entry: its page size, or, where 32 bits do not hold it, a free one of the legal values of R32, which
are 0 and the powers of two (log 22; 2^32 is 0 in 32 bits). -/
def Geometry.pageSizeRegister (g : Geometry) : Word32 :=
  if g.pageSize < 2 ^ 32 then BitVec.ofNat 32 g.pageSize
  else BitVec.ofNat 32 (2 ^ (Config.freePageSizeExponent g.pageSize).val)

/-- WRITE_DELAY_MS for an entry; an admitted one is below 2^32. -/
def Geometry.writeDelayRegister (g : Geometry) : Word32 := BitVec.ofNat 32 g.writeDelayMs

end Sys2Proof
end

