-- ==== Sys2Proof/Machine/Codec.lean ====
section
/-! DEFINITION. The address/command codec (40_codec.md): the pure functions that build wire requests. They read the
handle registers gathered in `WireCtx`; none of them issues a request (R176). -/

namespace Sys2Proof

/-- What the frame builders read: the parameters and five handle registers (R150, R151, R155, R163, R172). -/
structure WireCtx where
  cfg : Params
  family : Family
  size : Word32
  addrLen : Byte
  select : Byte
  erase4kOp : Byte
  deriving DecidableEq, Repr

namespace WireCtx

/-- The address-space width w = bitlength(SIZE − 1) (R70, R150). -/
def addrWidth (c : WireCtx) : Nat := bitlength (c.size.toNat - 1)

/-- The folded device-select byte `sel(x)` (R150). -/
def sel (c : WireCtx) (x : Nat) : Byte :=
  let a := c.addrLen.toNat
  if a < c.addrWidth then byteOf (c.select.toNat ||| (((x >>> a) <<< 1) &&& 0x0F)) else c.select

/-- The in-band address bytes `abytes(x)`, most significant first (R72, R151). -/
def abytes (c : WireCtx) (x : Nat) : List Byte :=
  beBytes (x % 2 ^ c.addrLen.toNat) (c.addrLen.toNat / 8)

/-- The SPI frame template `SPI(c, adr, adw, dmw, d, n)` (R155). -/
def spi (c : WireCtx) (opc : BitVec 16) (opw adr adw dmw : Nat) (d : List Byte) (n : Nat) : Request :=
  .spiXfer
    { opc := opc, opw := opw, adr := addressField adr adw, adw := adw, dmw := dmw, wdata := d, rlen := n,
      tmo := c.cfg.txnTimeoutMs }

/-- The address of a narrow sub-operation: the 2-bit code in the field's top two bits, every other bit 0 (R156).
A constant whose sub is NONE places no code (log 8). -/
def subAddress (c : WireCtx) (k : NarrowConst) : Nat :=
  match k.sub with
  | none => 0
  | some code => code.toNat <<< (c.addrLen.toNat - 2)

/-- A narrow frame that carries a logical address (R157 to R159). -/
def narrowFrame (c : WireCtx) (k : NarrowConst) (x dmw : Nat) (d : List Byte) (n : Nat) : Request :=
  c.spi k.opc k.opw x c.addrLen.toNat dmw d n

/-- N_READ(x, n), R157. -/
def nRead (c : WireCtx) (x n : Nat) : Request :=
  c.narrowFrame c.cfg.narrow.read x c.cfg.narrowReadDummy.toNat [] n

/-- N_WRITE(x, v), R158. -/
def nWrite (c : WireCtx) (x : Nat) (v : Byte) : Request := c.narrowFrame c.cfg.narrow.write x 0 [v] 0

/-- N_ERASE(x), R159. -/
def nErase (c : WireCtx) (x : Nat) : Request := c.narrowFrame c.cfg.narrow.erase x 0 [] 0

/-- N_EWEN, R160. -/
def nEwen (c : WireCtx) : Request :=
  c.narrowFrame c.cfg.narrow.ewen (c.subAddress c.cfg.narrow.ewen) 0 [] 0

/-- N_EWDS, R161. -/
def nEwds (c : WireCtx) : Request :=
  c.narrowFrame c.cfg.narrow.ewds (c.subAddress c.cfg.narrow.ewds) 0 [] 0

/-- N_ERAL, R162. -/
def nEral (c : WireCtx) : Request :=
  c.narrowFrame c.cfg.narrow.eral (c.subAddress c.cfg.narrow.eral) 0 [] 0

/-- A NOR frame without an address field (R163 to R167, R170). -/
def norBare (c : WireCtx) (k : NorConst) (d : List Byte) (n : Nat) : Request := c.spi k.opc k.opw 0 0 0 d n

/-- A NOR array frame, whose address width is ADDR_LEN (R163). -/
def norArray (c : WireCtx) (k : NorConst) (x dmw : Nat) (d : List Byte) (n : Nat) : Request :=
  c.spi k.opc k.opw x c.addrLen.toNat dmw d n

/-- F_WREN, R164. -/
def fWren (c : WireCtx) : Request := c.norBare c.cfg.nor.wren [] 0

/-- F_WRDI, R165. -/
def fWrdi (c : WireCtx) : Request := c.norBare c.cfg.nor.wrdi [] 0

/-- F_RDSR, R166. -/
def fRdsr (c : WireCtx) : Request := c.norBare c.cfg.nor.rdsr [] 1

/-- F_WRSR(v), R167. -/
def fWrsr (c : WireCtx) (v : Byte) : Request := c.norBare c.cfg.nor.wrsr [v] 0

/-- F_READ(x, n), R168. -/
def fRead (c : WireCtx) (x n : Nat) : Request :=
  c.norArray c.cfg.nor.read x c.cfg.norReadDummy.toNat [] n

/-- F_PP(x, d), R169. -/
def fPp (c : WireCtx) (x : Nat) (d : List Byte) : Request := c.norArray c.cfg.nor.pp x 0 d 0

/-- F_RDID, R170. -/
def fRdid (c : WireCtx) : Request := c.norBare c.cfg.nor.rdid [] 3

/-- F_RDSFDP(y, n), R171: an 8-bit opcode, a 24-bit address and 8 dummy bits, whatever ADDR_LEN is (R8). -/
def fRdsfdp (c : WireCtx) (y n : Nat) : Request := c.spi c.cfg.nor.rdsfdpOpc 8 y 24 8 [] n

/-- F_SE4K(x), R172: the discovered opcode with width 8. -/
def fSe4k (c : WireCtx) (x : Nat) : Request :=
  c.spi (BitVec.ofNat 16 c.erase4kOp.toNat) 8 x c.addrLen.toNat 0 [] 0

/-- I_WRITE(x, d), R152. -/
def iWrite (c : WireCtx) (x : Nat) (d : List Byte) : Request :=
  .i2cWrite (c.sel x) (c.abytes x ++ d) c.cfg.txnTimeoutMs

/-- I_READ(x, n), R153. -/
def iRead (c : WireCtx) (x n : Nat) : Request :=
  .i2cWriteRead (c.sel x) (c.abytes x) n c.cfg.txnTimeoutMs

/-- The array read frame of READ per family (R180). -/
def readFrame (c : WireCtx) (hw : HwFamily) (x n : Nat) : Request :=
  match hw with
  | .i2cEe => c.iRead x n
  | .spiNarrow => c.nRead x n
  | .spiNorSfdp => c.fRead x n

/-- `CHUNK(cur, c)` per family (R192). On SPI_NARROW the chunk is one byte (R191) and the frame carries `c[0]`. -/
def chunkFrame (c : WireCtx) (hw : HwFamily) (cur : Nat) (d : List Byte) : Request :=
  match hw with
  | .i2cEe => c.iWrite cur d
  | .spiNarrow => c.nWrite cur (d.headD 0#8)
  | .spiNorSfdp => c.fPp cur d

/-- The write-enable frame that `WE()` sends, or none (R173). -/
def writeEnable (c : WireCtx) (hw : HwFamily) : Option Request :=
  match c.cfg.wePolicy, hw with
  | .noEnable, _ => none
  | .perTxn, .spiNarrow => some c.nEwen
  | .perTxn, .spiNorSfdp => some c.fWren
  | .perTxn, .i2cEe => none

end WireCtx

end Sys2Proof
end

