-- ==== Sys2Proof/Machine/State.lean ====
section
/-! DEFINITION. The state of the ACE block as plain data: the handle registers (10_state.md R32), the SFDP registers
(R34), the port registers (R36), the sequencer working registers (R37) and, of the same rule, what a command in progress
still has to do. Beside them stand the model's own fields: the parameters, which no step writes; the inputs of the host
port and of the transport port; and the record of what the transport port carried. INVENTORY.md lists every field. -/

namespace Sys2Proof.Machine

/-- Register HSTATE (R32, R33): codes 0, 1, 2. Code 3 is never written, so it has no constructor. -/
inductive HState where
  | uninit
  | bound
  | ready
  deriving DecidableEq, Repr

/-- Register SFDP_STATE (R34, R35): codes 0 to 4. Codes 5 to 7 are never written. -/
inductive SfdpState where
  | noRun
  | headerRead
  | tableRead
  | parsed
  | failed
  deriving DecidableEq, Repr

/-- The handle registers, numbers 0 to 10 (R32). -/
structure Handle where
  hstate : HState
  family : Family
  iface : Iface
  variant : Word32
  size : Word32
  addrLen : Byte
  pageSize : Word32
  writeDelayMs : Word32
  select : Byte
  wp : Bool
  progress : Word32
  deriving DecidableEq, Repr

/-- The SFDP registers, numbers 16 to 28 (R34). -/
structure Sfdp where
  state : SfdpState
  hdrVer : BitVec 16
  hdrCount : Byte
  ptVer : BitVec 16
  ptSize : BitVec 16
  ptPtr : BitVec 24
  writeGran : Byte
  erase4kOp : Byte
  addrBytes : Byte
  dtr : Bool
  arraySize : Word32
  hdrBuf : List Byte
  ptBuf : List Byte
  deriving DecidableEq, Repr

/-- The port registers, numbers 32 to 36 (R36). -/
structure Port where
  busy : Bool
  status : Word32
  cmdr : CmdW
  din : List Byte
  dout : List Byte
  deriving DecidableEq, Repr

/-- The working registers CUR, REM, DONE and the current chunk buffer (R37). -/
structure Work where
  cur : Word32
  rem : Word32
  done : Word32
  chunk : List Byte
  deriving DecidableEq, Repr

/-! ### A command in progress

A command that needs more than one request takes more than one step (00_scope.md R3). Between two of them the block holds
where it stands: the local variables of the command's pseudocode, as plain data (R37). -/

/-- The values decoded from an SFDP header, "held in working registers" until commit (43_sfdp.md R247). -/
structure Header where
  hv : BitVec 16
  hc : Byte
  pv : BitVec 16
  ps : BitVec 16
  pp : BitVec 24
  deriving DecidableEq, Repr

/-- One modifying frame still to be sent (MODIFY, 40_codec.md R174). -/
structure Job where
  /-- the request due: the write-enable, the frame or the delay -/
  due : Request
  /-- the requests of this MODIFY after it, in order -/
  more : List Request
  /-- the working registers while it runs -/
  work : Option Work
  /-- the bytes in completed chunks of its sub-write before it: what PARTIAL reports if it fails (R194) -/
  done : Nat
  /-- does its completion count in PROGRESS (R231)? -/
  counts : Bool
  deriving DecidableEq, Repr

/-- The command a list of jobs belongs to, with what its finish needs. -/
inductive Goal where
  /-- WRITE and WRITE_BYTE (R185): the accounting, and the count of a full success -/
  | write (partialAcc : Bool) (total : Nat)
  /-- ERASE_PAGE (R220) -/
  | erasePage
  /-- ERASE (R224) -/
  | erase
  deriving DecidableEq, Repr

/-- The command a discovery runs in (43_sfdp.md R241). -/
inductive Discoverer where
  /-- INIT (R280) -/
  | init
  /-- DISCOVER (R240) -/
  | discover
  /-- ERASE with its VALUE (R228) -/
  | erase (value : Byte)
  deriving DecidableEq, Repr

/-- What a command in progress does next. -/
inductive Pending where
  /-- issue the table read of a discovery (R249) -/
  | table (who : Discoverer) (h : Header)
  /-- issue the request due of `job`; the jobs after it follow -/
  | jobs (job : Job) (rest : List Job) (goal : Goal)
  deriving DecidableEq, Repr

/-- A command handed over at the host port: CMDW and the write data (R107, R321). -/
structure Offer where
  cmdw : CmdW
  din : List Byte
  deriving DecidableEq, Repr

/-- What the outside world does at the host side, in order (log 1, log 2). -/
inductive HostEvent where
  /-- hand over a command (R107, R321) -/
  | command (o : Offer)
  /-- cycle the power, also in the middle of a command (R331) -/
  | powerOn
  /-- do nothing for one step -/
  | pass
  /-- do nothing until no command is in progress -/
  | await
  deriving DecidableEq, Repr

/-- The answers the transport will give, in order, one list per answer form (R113, R318). -/
structure Answers where
  xfer : List XferAnswer
  count : List CountAnswer
  release : List ReleaseAnswer
  deriving DecidableEq, Repr

/-- One request with its answer, or one delay (R3), and beside it BUSY, SFDP_STATE and the working registers as they were
when the request was issued. -/
structure PortStep where
  req : Request
  ans : Answer
  busy : Bool
  sfdpState : SfdpState
  work : Option Work
  deriving DecidableEq, Repr

/-- Why the machine stops with a fault. -/
inductive Fault where
  /-- Raised by WRITE and WRITE_BYTE when the effective page size is 0 and there is data to write: the loop of R186
  would make chunks of length 0 and never end, so the spec gives no next state. No reachable state has this
  (10_state.md R39 with 00_scope.md R10). Safe. -/
  | pageSizeZero
  deriving DecidableEq, Repr

/-- Why the machine has no step. -/
inductive Refusal where
  /-- Raised only by `exec`'s arms for an instruction without a meaning; this model has none. Safe. -/
  | notModelled (mnemonic : String)
  /-- Raised by `step` when the parameters do not meet the admission conditions: "An ill-formed registry is refused by
  the model" (00_scope.md R10). Safe. -/
  | illFormedRegistry
  /-- Raised by `step` when a command is offered while BUSY = 1: "refused by the port, and a model gives it no step"
  (60_exceptions.md R322). Safe. -/
  | busy
  deriving DecidableEq, Repr

structure State where
  /-- The parameters of 00_scope.md R7. Never written. -/
  cfg : Params
  handle : Handle
  sfdp : Sfdp
  port : Port
  /-- The working registers; `none` while no command uses them (R37, R330). -/
  work : Option Work
  /-- What the command in progress does next; `none` while there is no command in progress (R3, R37). -/
  pending : Option Pending
  /-- Model's own: the host events still to come. -/
  hostIn : List HostEvent
  /-- Model's own: the transport answers still to come. -/
  answers : Answers
  /-- Model's own: the requests issued so far, oldest first, each with its answer. -/
  wire : List PortStep
  /-- Model's own: how many free values have been drawn. -/
  drawn : Nat
  deriving DecidableEq, Repr

/-- The reset values of the handle registers (R32, R330). -/
def Handle.reset : Handle where
  hstate := .uninit
  family := .i2cEe
  iface := .i2c
  variant := 0#32
  size := 0#32
  addrLen := 0#8
  pageSize := 0#32
  writeDelayMs := 0#32
  select := 0#8
  wp := false
  progress := 0#32

/-- The reset values of the SFDP registers (R34, R330). -/
def Sfdp.reset : Sfdp where
  state := .noRun
  hdrVer := 0#16
  hdrCount := 0#8
  ptVer := 0#16
  ptSize := 0#16
  ptPtr := 0#24
  writeGran := 0#8
  erase4kOp := 0#8
  addrBytes := 0#8
  dtr := false
  arraySize := 0#32
  hdrBuf := List.replicate 15 0#8
  ptBuf := List.replicate 8 0#8

/-- The reset values of the port registers (R36, R330). -/
def Port.reset : Port where
  busy := false
  status := 0#32
  cmdr := 0#192
  din := []
  dout := []

/-- The power-on state of R330 of a block built with parameters `p`, before any input. -/
def State.resetWith (p : Params) : State where
  cfg := p
  handle := .reset
  sfdp := .reset
  port := .reset
  work := none
  pending := none
  hostIn := []
  answers := ⟨[], [], []⟩
  wire := []
  drawn := 0

/-- The power-on state of R330, with the suggested parameters (log 3). -/
def State.reset : State := State.resetWith Config.suggested

end Sys2Proof.Machine
end

