-- ==== Sys2Proof/Machine/Ops.lean ====
section
/-! DEFINITION. The shared operations: acceptance and finish of a command (30_encoding.md R107, 00_scope.md R18), error
delivery (60_exceptions.md R309), the register writes, the transport step T (R307), the modifying frames of a command
one request at a time (MODIFY, 40_codec.md R173, R174), and the entry checks (60_exceptions.md R305). -/

namespace Sys2Proof.Machine

/-- What a meaning answers. -/
abbrev Result := Host.Outcome State Fault Refusal

/-! ### Registers -/

/-- What the frame builders read of the state. -/
def State.wireCtx (s : State) : WireCtx where
  cfg := s.cfg
  family := s.handle.family
  size := s.handle.size
  addrLen := s.handle.addrLen
  select := s.handle.select
  erase4kOp := s.sfdp.erase4kOp

def State.setDout (d : List Byte) (s : State) : State := { s with port := { s.port with dout := d } }

def State.setProgress (n : Word32) (s : State) : State := { s with handle := { s.handle with progress := n } }

/-- `PROGRESS <- PROGRESS + 1`. -/
def State.countUnit (s : State) : State := s.setProgress (s.handle.progress + 1#32)

def State.setHstate (h : HState) (s : State) : State := { s with handle := { s.handle with hstate := h } }

def State.setSfdpState (t : SfdpState) (s : State) : State := { s with sfdp := { s.sfdp with state := t } }

def State.setHdrBuf (h : List Byte) (s : State) : State := { s with sfdp := { s.sfdp with hdrBuf := h } }

def State.setPtBuf (t : List Byte) (s : State) : State := { s with sfdp := { s.sfdp with ptBuf := t } }

/-- The working registers CUR, REM, DONE and the chunk (R37), from the numbers of the pseudocode. -/
def workOf (cur rem done : Nat) (chunk : List Byte) : Work :=
  ⟨BitVec.ofNat 32 cur, BitVec.ofNat 32 rem, BitVec.ofNat 32 done, chunk⟩

def State.setWork (w : Option Work) (s : State) : State := { s with work := w }

def State.setPending (p : Pending) (s : State) : State := { s with pending := some p }

/-- RESET_HANDLE (44_handle.md R285): every handle and SFDP register to its reset value; the port registers stay. -/
def State.resetHandle (s : State) : State := { s with handle := .reset, sfdp := .reset }

/-! ### The life of a command -/

/-- Acceptance (R107): latch CMDW and DIN, clear DOUT, BUSY <- 1. -/
def State.accept (o : Offer) (s : State) : State :=
  { s with port := { s.port with busy := true, cmdr := o.cmdw, din := o.din, dout := [] } }

/-- `finish(v)` (R18): STATUS <- v, BUSY <- 0; the working registers cease to exist (R37), and nothing is in progress. -/
def State.finish (v : Word32) (s : State) : State :=
  { s with port := { s.port with busy := false, status := v }, work := none, pending := none }

/-- `finish` with a byte count. A count that fits 32-bit two's complement is STATUS (R302). For a larger one the spec
states no result: a free value (log 5). -/
def State.finishCount (n : Nat) (s : State) : State :=
  if n < 2 ^ 31 then s.finish (BitVec.ofNat 32 n)
  else { s with drawn := s.drawn + 1 }.finish (Config.freeCountStatus s.drawn)

/-- `raise E` (R18, R309): the error is STATUS and the command ends; nothing else is written. -/
def State.raise (e : ErrorName) (s : State) : State := s.finish e.code

/-- Error delivery of the reading commands READ, READ_BYTE and RAW_XFER: `DOUT <- []` as well (R309). -/
def State.raiseReading (e : ErrorName) (s : State) : State := (s.setDout []).raise e

/-- Power-on (R331, R332): the whole state of R330; a command in progress is gone. What is outside the block stays: the
parameters, the host's and the transport's inputs, and the record of the wire. -/
def State.powerOn (s : State) : State :=
  { s with handle := .reset, sfdp := .reset, port := .reset, work := none, pending := none }

/-! ### The transport port -/

/-- Record one request with its answer (R3). -/
def State.record (req : Request) (ans : Answer) (s : State) : State :=
  { s with wire := s.wire ++ [⟨req, ans, s.port.busy, s.sfdp.state, s.work⟩] }

/-- The requests issued so far, in order. -/
def State.requests (s : State) : List Request := s.wire.map PortStep.req

/-- The transport's next answer to a data-reading request: the next listed one, else a free value (R318, log 4). -/
def State.takeXfer (s : State) : XferAnswer × State :=
  match s.answers.xfer with
  | a :: rest => (a, { s with answers := { s.answers with xfer := rest } })
  | [] => (Config.freeXferAnswer s.drawn, { s with drawn := s.drawn + 1 })

/-- The transport's next answer to an I2C write. -/
def State.takeCount (s : State) : CountAnswer × State :=
  match s.answers.count with
  | a :: rest => (a, { s with answers := { s.answers with count := rest } })
  | [] => (Config.freeCountAnswer s.drawn, { s with drawn := s.drawn + 1 })

/-- The transport's next answer to `W_TDEINIT`. -/
def State.takeRelease (s : State) : ReleaseAnswer × State :=
  match s.answers.release with
  | a :: rest => (a, { s with answers := { s.answers with release := rest } })
  | [] => (Config.freeReleaseAnswer s.drawn, { s with drawn := s.drawn + 1 })

/-- The transport step `T(req)` (R307): issue one request, take its answer, classify it (R306). -/
def transport (req : Request) (s : State) : TRes × State :=
  match req with
  | .spiXfer d =>
      let (a, s1) := s.takeXfer
      (a.result d.rlen, s1.record req (.xfer a))
  | .i2cWriteRead _ _ rlen _ =>
      let (a, s1) := s.takeXfer
      (a.result rlen, s1.record req (.xfer a))
  | .i2cWrite _ wdata _ =>
      let (a, s1) := s.takeCount
      (a.result wdata.length, s1.record req (.count a))
  | .tdeinit =>
      let (a, s1) := s.takeRelease
      (a.result, s1.record req (.release a))
  | .delay _ => (.okr [], s.record req .noResponse)

/-! ### Modifying frames, one request at a time -/

/-- `MODIFY(f, ms)` as a job (R174): the write-enable where the family has one (R173), the frame, the delay. -/
def modifyJob (c : WireCtx) (hw : HwFamily) (f : Request) (ms : Word32) (work : Option Work) (done : Nat)
    (counts : Bool) : Job :=
  match c.writeEnable hw with
  | none => { due := f, more := [.delay ms], work := work, done := done, counts := counts }
  | some w => { due := w, more := [f, .delay ms], work := work, done := done, counts := counts }

/-- A job whose requests have all succeeded (R231). -/
def State.endJob (j : Job) (s : State) : State := if j.counts then s.countUnit else s

/-- Every job has succeeded: the end of WRITE (R185), ERASE_PAGE (R220) and ERASE (R224). -/
def State.endJobs (g : Goal) (s : State) : State :=
  match g with
  | .write _ total => s.finishCount total
  | .erasePage => (s.setProgress 1#32).finish ErrorName.ok.code
  | .erase => s.finish ErrorName.ok.code

/-- A request of job `j` failed with code `e`: no further request (R194, R220, R231). -/
def State.failJob (g : Goal) (j : Job) (e : Word32) (s : State) : State :=
  match g with
  | .write partialAcc _ => if partialAcc then s.finishCount j.done else s.finish e
  | .erasePage => s.finish e
  | .erase => s.finish e

/-- The next job falls due, or the command ends. The working registers are the next job's from here on. -/
def State.nextJob (jobs : List Job) (g : Goal) (s : State) : State :=
  match jobs with
  | [] => s.endJobs g
  | j :: rest => (s.setWork j.work).setPending (.jobs j rest g)

/-- One step of a command with jobs (R3, R174): issue the request due, and take its answer. -/
def stepJob (j : Job) (rest : List Job) (g : Goal) (s : State) : State :=
  match transport j.due s with
  | (.bad e, s1) => s1.failJob g j e
  | (.okr _, s1) =>
    match j.more with
    | r :: more => s1.setPending (.jobs { j with due := r, more := more } rest g)
    | [] => (s1.endJob j).nextJob rest g

/-- The first request of jobs that have just fallen due: the step in which the command is accepted (log 1). -/
def State.issueJob (s : State) : State :=
  match s.pending with
  | none => s
  | some (.table _ _) => s
  | some (.jobs j rest g) => stepJob j rest g s

/-! ### Entry checks -/

/-- The hardware family behind FAMILY, or none for a stub: check 5 of R305 for the addressed commands (R143, R145). -/
def hardwareFamily : Family → Option HwFamily
  | .i2cEe => some .i2cEe
  | .spiNarrow => some .spiNarrow
  | .spiNorSfdp => some .spiNorSfdp
  | .stub0 => none
  | .stub1 => none

/-- Check 3 (R106): |DIN| = LEN for WRITE and RAW_XFER, DIN empty (length 0) for every other command. -/
def State.dinIs (n : Nat) (s : State) : Bool := s.port.din.length == n

/-- Check 6 (R147). -/
def State.sizeOk (s : State) : Bool := pow2 s.handle.size.toNat

/-- Check 7 (R146). -/
def State.addrOk (addr : Word32) (s : State) : Bool := decide (addr.toNat < s.handle.size.toNat)

/-- Checks 3 to 5 of a command that only a READY handle of a hardware family takes (R294); the family if they pass. -/
def State.readyFamily (din : Nat) (s : State) : Option HwFamily :=
  if !s.dinIs din then none
  else if s.handle.hstate ≠ .ready then none
  else hardwareFamily s.handle.family

/-- Checks 3 to 7 of READ, READ_BYTE, WRITE and WRITE_BYTE; the family if they pass. -/
def State.addressedFamily (din : Nat) (addr : Word32) (s : State) : Option HwFamily :=
  match s.readyFamily din with
  | none => none
  | some hw => if s.sizeOk && s.addrOk addr then some hw else none

end Sys2Proof.Machine
end

