-- ==== Sys2Proof/Machine/ReadWrite.lean ====
section
/-! DEFINITION. READ, READ_BYTE, WRITE and WRITE_BYTE, and the paged write engine (41_read_write.md). A READ is one
request, so one step. A WRITE sends its chunks one request a step: its meaning checks, plans the chunks of R186 and issues
the first request; `State.advance` (Machine/Sequencer.lean) issues the others. -/

namespace Sys2Proof.Machine

/-! ### READ -/

/-- READ(ADDR, LEN) after the descriptor checks (R180): one transaction of LEN bytes, no chunking, no delay (R182). -/
def readOp (addr len : Word32) (s : State) : State :=
  match s.addressedFamily 0 addr with
  | none => s.raiseReading .invalidArgument
  | some hw =>
    if len = 0#32 then (s.setDout []).finish ErrorName.ok.code
    else if s.handle.size.toNat < addr.toNat + len.toNat then s.raiseReading .invalidArgument
    else
      match transport (s.wireCtx.readFrame hw addr.toNat len.toNat) s with
      | (.bad e, s1) => (s1.setDout []).finish e
      | (.okr bytes, s1) => (s1.setDout bytes).finishCount len.toNat

/-- READ (R180). -/
def execRead (addr len : Word32) (s : State) : Result := .next (readOp addr len s)

/-- READ_BYTE (R183): exactly READ(ADDR, 1). -/
def execReadByte (addr : Word32) (s : State) : Result := .next (readOp addr 1#32 s)

/-! ### The paged write engine -/

/-- EPS(): the effective page size (R191). -/
def State.eps (hw : HwFamily) (s : State) : Nat :=
  match hw with
  | .spiNarrow => 1
  | .i2cEe => s.handle.pageSize.toNat
  | .spiNorSfdp => s.handle.pageSize.toNat

/-- The length of the next chunk: min(P − (cur mod P), rem) (R190). -/
def chunkLength (p cur rem : Nat) : Nat := min (p - cur % p) rem

/-- The chunks of CHUNKS in order, each with its start address (R186, R190). The fuel bounds their number. -/
def chunkPlan (p : Nat) : Nat → Nat → List Byte → List (Nat × List Byte)
  | 0, _, _ => []
  | fuel + 1, cur, d =>
    if d.isEmpty then []
    else
      let k := chunkLength p cur d.length
      (cur, d.take k) :: chunkPlan p fuel (cur + k) (d.drop k)

/-- All chunks of the data `d` at address `x`: with P ≥ 1 there are at most |d|. -/
def chunksOf (p x : Nat) (d : List Byte) : List (Nat × List Byte) := chunkPlan p d.length x d

/-- The data bytes of a list of chunks. -/
def chunkBytes (plan : List (Nat × List Byte)) : Nat := (plan.map fun c => c.2.length).sum

/-- The loop of CHUNKS over the planned chunks (R186): a MODIFY for each, with `done` bytes before it. -/
def chunkJobs (c : WireCtx) (hw : HwFamily) (ms : Word32) (done : Nat) : List (Nat × List Byte) → List Job
  | [] => []
  | (cur, d) :: rest =>
    modifyJob c hw (c.chunkFrame hw cur d) ms (some (workOf cur (d.length + chunkBytes rest) done d)) done false ::
      chunkJobs c hw ms (done + d.length) rest

/-- CHUNKS(x, d) (R186). -/
def State.chunks (hw : HwFamily) (x : Nat) (d : List Byte) (s : State) : List Job :=
  chunkJobs s.wireCtx hw s.handle.writeDelayMs 0 (chunksOf (s.eps hw) x d)

/-- `overflow = (addr + length) − size` on mathematical integers (R187). -/
def writeOverflow (x n size : Nat) : Int := (x : Int) + n - size

/-- The calls of CHUNKS that PW(x, d, wrap) makes, in order (R186 to R189). The fuel bounds the depth of the recursion. -/
def splitWrite (wrap : Bool) (size : Nat) : Nat → Nat → List Byte → List (Nat × List Byte)
  | 0, _, _ => []
  | fuel + 1, x, d =>
    if 0 < writeOverflow x d.length size then
      if wrap then splitWrite wrap size fuel x (d.take (size - x)) ++ splitWrite wrap size fuel 0 (d.drop (size - x))
      else [(x, d.take (size - x))]
    else [(x, d)]

/-- The calls with enough fuel: |d| + 1, since each recursive call has less data or no overflow (R186). -/
def pwCalls (wrap : Bool) (size x : Nat) (d : List Byte) : List (Nat × List Byte) :=
  splitWrite wrap size (d.length + 1) x d

/-- PW(x, d, wrap) (R186): the chunks of its calls of CHUNKS. -/
def State.pw (hw : HwFamily) (wrap : Bool) (x : Nat) (d : List Byte) (s : State) : List Job :=
  (pwCalls wrap s.handle.size.toNat x d).flatMap fun w => s.chunks hw w.1 w.2

/-- What PW counts when every chunk completes: c1 + c2 of its sub-writes (R186, R195). -/
def pwTotal (wrap : Bool) (size x : Nat) (d : List Byte) : Nat := chunkBytes (pwCalls wrap size x d)

/-- WRITE(ADDR, LEN, WRAP, PARTIAL, d) after check 3 has been read off `din` (R185). -/
def writeOp (din : Nat) (addr : Word32) (d : List Byte) (wrap partialAcc : Bool) (s : State) : Result :=
  match s.addressedFamily din addr with
  | none => .next (s.raise .invalidArgument)
  | some hw =>
    if s.eps hw = 0 ∧ d ≠ [] then .fault .pageSizeZero
    else
      .next
        (s.nextJob (s.pw hw wrap addr.toNat d)
          (.write partialAcc (pwTotal wrap s.handle.size.toNat addr.toNat d))).issueJob

/-- WRITE (R185): DIN holds exactly LEN bytes (R106). -/
def execWrite (addr len : Word32) (wrap partialAcc : Bool) (s : State) : Result :=
  writeOp len.toNat addr s.port.din wrap partialAcc s

/-- WRITE_BYTE (R196): exactly WRITE(ADDR, 1, no wrap, whole-buffer, [VALUE]); the command itself takes no DIN. -/
def execWriteByte (addr : Word32) (value : Byte) (s : State) : Result :=
  writeOp 0 addr [value] false false s

end Sys2Proof.Machine
end

