-- ==== Sys2Proof/Machine/EraseJobs.lean ====
section
/-! DEFINITION. The jobs of ERASE_PAGE and ERASE (42_erase.md): which modifying frames they send, in order, and what ERASE
does from its check 6 on. The working registers in the narrow loops and in SECTORS are the model's choice (log 9): CUR is
the unit's address, REM and DONE count units, the chunk buffer is empty; the erase-all has none. -/

namespace Sys2Proof.Machine

/-- Unit `i` of `n` of an erase loop, one modifying frame at address `cur`. DESIGN CHOICE (log 9): R37 names CUR, REM,
DONE and the current chunk buffer for the erase engine, and the pseudocode of 42_erase.md gives none of them a value in
the loops of R220, R226 and R229. -/
def unitJob (c : WireCtx) (hw : HwFamily) (n i cur : Nat) (f : Request) (ms : Word32) (counts : Bool) : Job :=
  modifyJob c hw f ms (some (workOf cur (n - i) i [])) 0 counts

/-- The frame that gives one byte of a narrow page its value: erase-one for 0xFF, else a byte write (R222). -/
def narrowEraseFrame (c : WireCtx) (x : Nat) (value : Byte) : Request :=
  if value = 0xFF#8 then c.nErase x else c.nWrite x value

/-- ERASE_PAGE on SPI_NARROW: every byte of the page at `x`, one modifying frame each (R220, R222). -/
def State.narrowPage (x : Nat) (value : Byte) (s : State) : List Job :=
  let n := s.handle.pageSize.toNat
  (List.range n).map fun i =>
    unitJob s.wireCtx .spiNarrow n i (x + i) (narrowEraseFrame s.wireCtx (x + i) value) s.handle.writeDelayMs false

/-- One page of PAGE_SIZE copies of VALUE through the paged write engine (R223, R227). -/
def State.fillPage (hw : HwFamily) (page : Nat) (value : Byte) (s : State) : List Job :=
  let p := s.handle.pageSize.toNat
  s.chunks hw (page * p) (List.replicate p value)

/-- The jobs of ERASE_PAGE per family (R220). -/
def State.erasePageJobs (hw : HwFamily) (page : Nat) (value : Byte) (s : State) : List Job :=
  match hw with
  | .spiNarrow => s.narrowPage (page * s.handle.pageSize.toNat) value
  | .i2cEe => s.fillPage .i2cEe page value
  | .spiNorSfdp => s.fillPage .spiNorSfdp page value

/-- np = SIZE div PAGE_SIZE (R221). A page size of 0 gives no pages (log 14). -/
def State.pageCount (s : State) : Nat := s.handle.size.toNat / s.handle.pageSize.toNat

/-- The byte-write loop of ERASE_NARROW over the full address range (R226). -/
def State.narrowFill (value : Byte) (s : State) : List Job :=
  let n := s.handle.size.toNat
  (List.range n).map fun x =>
    unitJob s.wireCtx .spiNarrow n x x (s.wireCtx.nWrite x value) s.handle.writeDelayMs true

/-- P_NARROW_ERAL_DELAY_MS (R7, R226); none is the variant's WRITE_DELAY_MS (log 15). -/
def State.eralDelay (s : State) : Word32 := s.cfg.narrowEralDelayMs.getD s.handle.writeDelayMs

/-- ERASE_NARROW(VALUE) (R226). PROGRESS <- 1 after the erase-all is its one unit counted from 0. -/
def State.eraseNarrow (value : Byte) (s : State) : List Job :=
  if value = 0xFF#8 then [modifyJob s.wireCtx .spiNarrow s.wireCtx.nEral s.eralDelay none 0 true]
  else s.narrowFill value

/-- PROGRESS counts a page when its last chunk is done (R227). -/
def countLast : List Job → List Job
  | [] => []
  | [j] => [{ j with counts := true }]
  | j :: k :: rest => j :: countLast (k :: rest)

/-- FILL(VALUE): page by page (R227). -/
def State.fill (hw : HwFamily) (value : Byte) (s : State) : List Job :=
  (List.range s.pageCount).flatMap fun page => countLast (s.fillPage hw page value)

/-- ceil(SIZE / 4096), the number of sector erases (R229). -/
def State.sectorCount (s : State) : Nat := (s.handle.size.toNat + 4095) / 4096

/-- SECTORS(): sector `i` at address 4096·i (R229). -/
def State.sectors (s : State) : List Job :=
  let n := s.sectorCount
  (List.range n).map fun i =>
    unitJob s.wireCtx .spiNorSfdp n i (4096 * i) (s.wireCtx.fSe4k (4096 * i)) s.cfg.norSectorDelayMs true

/-- The jobs of ERASE per family (R224). -/
def State.eraseJobs (hw : HwFamily) (value : Byte) (s : State) : List Job :=
  match hw with
  | .spiNarrow => s.eraseNarrow value
  | .i2cEe => s.fill .i2cEe value
  | .spiNorSfdp => if s.sfdp.erase4kOp ≠ 0#8 ∧ value = 0xFF#8 then s.sectors else s.fill .spiNorSfdp value

/-- ERASE from check 6 on (R224): its first frame falls due. PROGRESS is cleared only after check 6 passes
(90_conflicts.md C10). -/
def State.startErase (hw : HwFamily) (value : Byte) (s : State) : State :=
  if !s.sizeOk then s.raise .invalidArgument
  else (s.setProgress 0#32).nextJob (s.eraseJobs hw value) .erase

end Sys2Proof.Machine
end

