-- ==== Sys2Proof/Machine/Sfdp.lean ====
section
/-! DEFINITION. SFDP discovery: the header and parameter-table validator and decoder, the two steps of the discovery
procedure, and the command DISCOVER (43_sfdp.md). -/

namespace Sys2Proof.Machine

/-- Byte `i` of the bytes read. -/
def byteAt (h : List Byte) (i : Nat) : Byte := h.getD i 0#8

/-- ASCII "SFDP" (R16, R244). -/
def signature : List Byte := [0x53#8, 0x46#8, 0x44#8, 0x50#8]

/-- The header checks in order (R244 to R246, R248), then the decoded header (R247). -/
def parseHeader (h : List Byte) : Except ErrorName Header :=
  if h.take 4 ≠ signature then .error .sfdpNotSupported
  else if byteAt h 7 ≠ 0xFF#8 then .error .sfdpInvalidHeader
  else if (byteAt h 11).toNat < 2 then .error .sfdpInvalidHeader
  else
    .ok
      { hv := byteAt h 5 ++ byteAt h 4
        hc := byteAt h 6
        pv := byteAt h 10 ++ byteAt h 9
        ps := BitVec.ofNat 16 ((byteAt h 11).toNat * 4)
        pp := BitVec.ofNat 24 (leNat ((h.drop 12).take 3)) }

/-- The values decoded from the parameter table (R255 to R259). -/
structure Table where
  gran : Byte
  ab : Byte
  e4k : Byte
  dtr : Bool
  bytes : Word32
  deriving DecidableEq, Repr

/-- ADDRBYTES(c): the 2-bit address-bytes code; `none` is BAD (R256). -/
def addrBytesOf (p : AddrBytesRsvd) (c : BitVec 2) : Option Byte :=
  match c.toNat with
  | 0 => some 3#8
  | 1 => some 3#8
  | 2 => some 4#8
  | _ =>
    match p with
    | .fail => none
    | .four => some 4#8

/-- 2^exponent bits in bytes, or none at 2^32 bytes and more, decided from the exponent alone (R259, R260). -/
def bytesOfExponent (exponent : Nat) : Option Word32 :=
  if exponent < 35 then some (BitVec.ofNat 32 (2 ^ exponent / 8)) else none

/-- `DENSITY(W2) div 8`, or none when the size is not representable in P_SIZE_W bits (R259, R260). -/
def densityBytes (r : DensityRule) (w2 : Nat) : Option Word32 :=
  let e := w2 % 2 ^ 31
  if w2 / 2 ^ 31 % 2 = 0 then
    match r with
    | .doc => some (BitVec.ofNat 32 (e / 8))
    | .jedec => some (BitVec.ofNat 32 ((e + 1) / 8))
  else
    match r with
    | .doc => bytesOfExponent (e + 1)
    | .jedec => bytesOfExponent e

/-- The table checks in order (R248, R252 to R254, R256, R260), then the decoded table (R255 to R259). -/
def parseTable (p : Params) (t : List Byte) : Except ErrorName Table :=
  if (byteAt t 0).extractLsb' 5 3 ≠ 0b111#3 then .error .sfdpInvalidHeader
  else if (byteAt t 2).getLsbD 7 ≠ true then .error .sfdpInvalidHeader
  else if byteAt t 3 ≠ 0xFF#8 then .error .sfdpInvalidHeader
  else
    match addrBytesOf p.addrBytesRsvd ((byteAt t 2).extractLsb' 1 2) with
    | none => .error .sfdpInvalidHeader
    | some ab =>
      match densityBytes p.densityRule (leNat ((t.drop 4).take 4)) with
      | none => .error .sfdpInvalidHeader
      | some bytes =>
        .ok
          { gran := if (byteAt t 0).getLsbD 2 then 64#8 else 1#8
            ab := ab
            e4k := if (byteAt t 0).extractLsb' 0 2 = 0b11#2 then 0#8 else byteAt t 1
            dtr := (byteAt t 2).getLsbD 3
            bytes := bytes }

/-- FAIL(c) of R241 (R263): SFDP_STATE <- FAILED, HSTATE <- BOUND; parameters and geometry stay. -/
def State.discoveryFailed (s : State) : State := (s.setSfdpState .failed).setHstate .bound

/-- Success (R261, R262): the SFDP registers are written together, the geometry is overwritten, PARSED and READY. -/
def State.discoveryCommit (h : Header) (t : Table) (s : State) : State :=
  { s with
    sfdp :=
      { s.sfdp with
        state := .parsed
        hdrVer := h.hv
        hdrCount := h.hc
        ptVer := h.pv
        ptSize := h.ps
        ptPtr := h.pp
        writeGran := t.gran
        erase4kOp := t.e4k
        addrBytes := t.ab
        dtr := t.dtr
        arraySize := t.bytes }
    handle :=
      { s.handle with
        hstate := .ready
        size := t.bytes
        addrLen := 8#8 * t.ab
        pageSize := t.gran.setWidth 32
        writeDelayMs := s.cfg.norPageDelayMs } }

/-- What the command around a discovery does with its result, Ok (`none`) or a code: DISCOVER finishes (R240), INIT ends
READY or resets the handle (R280, R281), ERASE finishes or goes on to the erase (R224, R228). -/
def State.endDiscovery (who : Discoverer) (result : Option Word32) (s : State) : State :=
  match who, result with
  | .discover, none => s.finish ErrorName.ok.code
  | .discover, some c => s.finish c
  | .init, none => (s.setHstate .ready).finish ErrorName.ok.code
  | .init, some c => s.resetHandle.finish c
  | .erase value, none => s.startErase .spiNorSfdp value
  | .erase _, some c => s.finish c

/-- The first step of DISCOVERY() (R241): the header read, and the header checks. Past them the table read is due. -/
def readHeader (who : Discoverer) (s : State) : State :=
  let s0 := s.setSfdpState .headerRead
  match transport (s0.wireCtx.fRdsfdp 0 15) s0 with
  | (.bad e, s1) => s1.discoveryFailed.endDiscovery who (some e)
  | (.okr h, s1) =>
    let s2 := s1.setHdrBuf h
    match parseHeader h with
    | .error c => s2.discoveryFailed.endDiscovery who (some c.code)
    | .ok hd => s2.setPending (.table who hd)

/-- The second step of DISCOVERY() (R241, R249 to R263): the table read, the table checks, the commit. SFDP_STATE is set
to TABLE_READ "when it issues the table read" (10_state.md R35), so in this step. -/
def readTable (who : Discoverer) (h : Header) (s : State) : State :=
  let s0 := s.setSfdpState .tableRead
  match transport (s0.wireCtx.fRdsfdp h.pp.toNat h.ps.toNat) s0 with
  | (.bad e, s1) => s1.discoveryFailed.endDiscovery who (some e)
  | (.okr rdata, s1) =>
    let t := rdata.take 8
    let s2 := s1.setPtBuf t
    match parseTable s2.cfg t with
    | .error c => s2.discoveryFailed.endDiscovery who (some c.code)
    | .ok tb => (s2.discoveryCommit h tb).endDiscovery who none

/-- DISCOVER (R240). -/
def execDiscover (s : State) : Result :=
  if !s.dinIs 0 then .next (s.raise .invalidArgument)
  else if s.handle.hstate = .uninit ∨ s.handle.family ≠ .spiNorSfdp then .next (s.raise .invalidArgument)
  else .next (readHeader .discover s)

end Sys2Proof.Machine
end

