-- ==== Sys2Proof/Machine/Erase.lean ====
section
/-! DEFINITION. ERASE_PAGE and ERASE (42_erase.md). Each checks, and then issues its first request: that of its first
modifying frame, or the header read of ERASE's discovery. `State.advance` (Machine/Sequencer.lean) issues the others. -/

namespace Sys2Proof.Machine

/-- ERASE_PAGE (R220). -/
def execErasePage (page : Word32) (value : Byte) (s : State) : Result :=
  match s.readyFamily 0 with
  | none => .next (s.raise .invalidArgument)
  | some hw =>
    if !s.sizeOk then .next (s.raise .invalidArgument)
    else if s.pageCount ≤ page.toNat then .next (s.raise .invalidArgument)
    else .next ((s.setProgress 0#32).nextJob (s.erasePageJobs hw page.toNat value) .erasePage).issueJob

/-- Checks 3 to 5 of ERASE (R224, R294): READY, or BOUND on SPI_NOR_SFDP; not a stub. -/
def State.eraseFamily (s : State) : Option HwFamily :=
  if !s.dinIs 0 then none
  else
    match s.handle.hstate with
    | .uninit => none
    | .bound => if s.handle.family = .spiNorSfdp then some .spiNorSfdp else none
    | .ready => hardwareFamily s.handle.family

/-- ERASE (R224): "first runs discovery if needed" (R228), then the erase. -/
def execErase (value : Byte) (s : State) : Result :=
  match s.eraseFamily with
  | none => .next (s.raise .invalidArgument)
  | some hw =>
    if hw = .spiNorSfdp ∧ s.sfdp.state ≠ .parsed then .next (readHeader (.erase value) s)
    else .next (s.startErase hw value).issueJob

end Sys2Proof.Machine
end

