-- ==== Sys2Proof/Machine/Frames.lean ====
section
/-! DEFINITION. The wire frames of the opcode table as instructions (40_codec.md R152 to R172). Running a frame is one
transport step T (60_exceptions.md R307) of the request the frame's rule builds from the handle registers: the request
is issued and its answer taken. A frame writes no register of the block; what a command does with the answer is the
command's rule (log 7). -/

namespace Sys2Proof.Machine

/-- Issue one frame. DESIGN CHOICE (log 7): a frame run by itself also issues its request outside the operand domain of
its rule (an address at or past SIZE, a length of 0, a handle of another family or UNINIT, F_SE4K with ERASE4K_OP = 0 or
at no multiple of 4096). The rules define the builders on their domains only (R176); there no command builds a frame. -/
def issueFrame (f : Request) (s : State) : Result := .next (transport f s).2

/-- N_READ(x, n), R157. -/
def execNRead (x n : Word32) (s : State) : Result := issueFrame (s.wireCtx.nRead x.toNat n.toNat) s

/-- N_WRITE(x, v), R158. -/
def execNWrite (x : Word32) (v : Byte) (s : State) : Result := issueFrame (s.wireCtx.nWrite x.toNat v) s

/-- N_ERASE(x), R159. -/
def execNErase (x : Word32) (s : State) : Result := issueFrame (s.wireCtx.nErase x.toNat) s

/-- N_EWEN, R160. -/
def execNEwen (s : State) : Result := issueFrame s.wireCtx.nEwen s

/-- N_EWDS, R161. -/
def execNEwds (s : State) : Result := issueFrame s.wireCtx.nEwds s

/-- N_ERAL, R162. -/
def execNEral (s : State) : Result := issueFrame s.wireCtx.nEral s

/-- F_WREN, R164. -/
def execFWren (s : State) : Result := issueFrame s.wireCtx.fWren s

/-- F_WRDI, R165. -/
def execFWrdi (s : State) : Result := issueFrame s.wireCtx.fWrdi s

/-- F_RDSR, R166. -/
def execFRdsr (s : State) : Result := issueFrame s.wireCtx.fRdsr s

/-- F_WRSR(v), R167. -/
def execFWrsr (v : Byte) (s : State) : Result := issueFrame (s.wireCtx.fWrsr v) s

/-- F_READ(x, n), R168. -/
def execFRead (x n : Word32) (s : State) : Result := issueFrame (s.wireCtx.fRead x.toNat n.toNat) s

/-- F_PP(x, d), R169. -/
def execFPp (x : Word32) (d : List Byte) (s : State) : Result := issueFrame (s.wireCtx.fPp x.toNat d) s

/-- F_RDID, R170. -/
def execFRdid (s : State) : Result := issueFrame s.wireCtx.fRdid s

/-- F_RDSFDP(y, n), R171. -/
def execFRdsfdp (y : BitVec 24) (n : Word32) (s : State) : Result :=
  issueFrame (s.wireCtx.fRdsfdp y.toNat n.toNat) s

/-- F_SE4K(x), R172. -/
def execFSe4k (x : Word32) (s : State) : Result := issueFrame (s.wireCtx.fSe4k x.toNat) s

/-- I_WRITE(x, d), R152. -/
def execIWrite (x : Word32) (d : List Byte) (s : State) : Result := issueFrame (s.wireCtx.iWrite x.toNat d) s

/-- I_READ(x, n), R153. -/
def execIRead (x n : Word32) (s : State) : Result := issueFrame (s.wireCtx.iRead x.toNat n.toNat) s

end Sys2Proof.Machine
end

