-- ==== Sys2Proof/Machine/HandleCmds.lean ====
section
/-! DEFINITION. INIT, DEINIT, GET_INFO, GET_SFDP and RAW_XFER (44_handle.md). -/

namespace Sys2Proof.Machine

/-! ### INIT and DEINIT -/

/-- The six handle registers that MAP(e) gives (R142). A sentinel has no row there: `resolve` never returns one. -/
def mapEntry (p : Params) (e : Entry) (h : Handle) : Handle :=
  match e with
  | .hwI2cEe g =>
      { h with family := .i2cEe, iface := .i2c, size := g.sizeRegister, addrLen := g.addrLenRegister,
               pageSize := g.pageSizeRegister, writeDelayMs := g.writeDelayRegister }
  | .hwSpiNarrow g =>
      { h with family := .spiNarrow, iface := .spi, size := g.sizeRegister, addrLen := g.addrLenRegister,
               pageSize := g.pageSizeRegister, writeDelayMs := g.writeDelayRegister }
  | .sfdp =>
      { h with family := .spiNorSfdp, iface := .spi, size := 0#32, addrLen := 0#8, pageSize := 0#32,
               writeDelayMs := 0#32 }
  | .stub0 =>
      { h with family := .stub0, iface := p.stubIface0, size := 0#32, addrLen := 0#8, pageSize := 0#32,
               writeDelayMs := 0#32 }
  | .stub1 =>
      { h with family := .stub1, iface := p.stubIface1, size := 0#32, addrLen := 0#8, pageSize := 0#32,
               writeDelayMs := 0#32 }
  | .sentinel => h

/-- INIT's register writes up to HSTATE <- BOUND (R280). -/
def State.bind (v : Word32) (sel : Byte) (e : Entry) (s : State) : State :=
  { s with
    handle := { mapEntry s.cfg e s.handle with variant := v, select := sel, progress := 0#32, wp := false, hstate := .bound } }

/-- INIT (R280 to R283). -/
def execInit (variant : Word32) (sel : Byte) (s : State) : Result :=
  if !s.dinIs 0 then .next (s.raise .invalidArgument)
  else if s.handle.hstate ≠ .uninit then .next (s.raise .invalidArgument)
  else
    match s.cfg.resolve variant with
    | .error c => .next (s.raise c)
    | .ok e =>
      let s1 := s.bind variant sel e
      if s1.handle.family = .spiNorSfdp then .next (readHeader .init s1)
      else .next ((s1.setHstate .ready).finish ErrorName.ok.code)

/-- DEINIT (R284): the handle is reset whatever the transport answers; a FAIL is still reported. -/
def execDeinit (tdeinit : Bool) (s : State) : Result :=
  if !s.dinIs 0 then .next (s.raise .invalidArgument)
  else if s.handle.hstate = .uninit then .next (s.raise .invalidArgument)
  else if tdeinit then
    match transport .tdeinit s with
    | (.bad c, s1) => .next (s1.resetHandle.finish c)
    | (.okr _, s1) => .next (s1.resetHandle.finish ErrorName.ok.code)
  else .next (s.resetHandle.finish ErrorName.ok.code)

/-! ### The info records -/

/-- The register code of FAMILY (R32). -/
def familyCode : Family → Nat
  | .i2cEe => 0
  | .spiNarrow => 1
  | .spiNorSfdp => 2
  | .stub0 => 3
  | .stub1 => 4

/-- The register code of IFACE (R32). -/
def ifaceCode : Iface → Nat
  | .i2c => 0
  | .spi => 1

/-- The register code of HSTATE (R32). -/
def hstateCode : HState → Nat
  | .uninit => 0
  | .bound => 1
  | .ready => 2

/-- The register code of SFDP_STATE (R34). -/
def sfdpStateCode : SfdpState → Nat
  | .noRun => 0
  | .headerRead => 1
  | .tableRead => 2
  | .parsed => 3
  | .failed => 4

/-- NUM_PAGES: SIZE div PAGE_SIZE, or 0 when PAGE_SIZE = 0 (R287). -/
def numPages (h : Handle) : Nat := if h.pageSize = 0#32 then 0 else h.size.toNat / h.pageSize.toNat

/-- INFO_RECORD(), 32 bytes, little-endian (R287). -/
def infoRecord (s : State) : List Byte :=
  leBytes (familyCode s.handle.family) 1 ++ leBytes (ifaceCode s.handle.iface) 1 ++
    leBytes (hstateCode s.handle.hstate) 1 ++ leBytes (sfdpStateCode s.sfdp.state) 1 ++
    leBytes s.handle.variant.toNat 4 ++ leBytes s.handle.size.toNat 4 ++ leBytes s.handle.pageSize.toNat 4 ++
    [s.handle.addrLen, s.handle.select] ++ leBytes s.handle.wp.toNat 1 ++ [0#8] ++
    leBytes s.handle.writeDelayMs.toNat 4 ++ leBytes (numPages s.handle) 4 ++ leBytes s.handle.progress.toNat 4

/-- SFDP_RECORD(), 24 bytes, little-endian (R289). -/
def sfdpRecord (s : State) : List Byte :=
  leBytes s.sfdp.hdrVer.toNat 2 ++ [s.sfdp.hdrCount, s.sfdp.erase4kOp] ++ leBytes s.sfdp.ptVer.toNat 2 ++
    [s.sfdp.addrBytes] ++ leBytes s.sfdp.dtr.toNat 1 ++ leBytes s.sfdp.ptSize.toNat 4 ++
    leBytes s.sfdp.ptPtr.toNat 4 ++ leBytes s.sfdp.arraySize.toNat 4 ++ leBytes s.sfdp.writeGran.toNat 4

/-- GET_INFO (R286). -/
def execGetInfo (s : State) : Result :=
  if !s.dinIs 0 then .next (s.raise .invalidArgument)
  else if s.handle.hstate = .uninit then .next (s.raise .invalidArgument)
  else .next ((s.setDout (infoRecord s)).finish ErrorName.ok.code)

/-- GET_SFDP (R288). -/
def execGetSfdp (s : State) : Result :=
  if !s.dinIs 0 then .next (s.raise .invalidArgument)
  else if s.handle.hstate ≠ .ready then .next (s.raise .invalidArgument)
  else if s.handle.family ≠ .spiNorSfdp then .next (s.raise .invalidArgument)
  else if s.sfdp.state ≠ .parsed then .next (s.raise .invalidArgument)
  else .next ((s.setDout (sfdpRecord s)).finish ErrorName.ok.code)

/-! ### RAW_XFER -/

/-- The request of RAW_XFER, or none for a bad SPI width (R290). On I2C, SELECT is used unfolded. -/
def rawRequest (addr rlen : Word32) (opc : BitVec 16) (opw adw dmw : Byte) (s : State) : Option Request :=
  match s.handle.iface with
  | .spi =>
      if 16 < opw.toNat ∨ 32 < adw.toNat then none
      else
        some (s.wireCtx.spi (opcodeField opc.toNat opw.toNat) opw.toNat addr.toNat adw.toNat dmw.toNat s.port.din
          rlen.toNat)
  | .i2c =>
      if rlen = 0#32 then some (.i2cWrite s.handle.select s.port.din s.cfg.txnTimeoutMs)
      else some (.i2cWriteRead s.handle.select s.port.din rlen.toNat s.cfg.txnTimeoutMs)

/-- RAW_XFER (R290, R291): allowed on every READY handle; no family, size or address check. -/
def execRawXfer (addr len rlen : Word32) (opc : BitVec 16) (opw adw dmw : Byte) (s : State) : Result :=
  if !s.dinIs len.toNat then .next (s.raiseReading .invalidArgument)
  else if s.handle.hstate ≠ .ready then .next (s.raiseReading .invalidArgument)
  else
    match rawRequest addr rlen opc opw adw dmw s with
    | none => .next (s.raiseReading .invalidArgument)
    | some req =>
      match transport req s with
      | (.bad e, s1) => .next ((s1.setDout []).finish e)
      | (.okr bytes, s1) => .next ((s1.setDout bytes).finish ErrorName.ok.code)

end Sys2Proof.Machine
end

