-- ==== Sys2Proof/Syntax.lean ====
section
/-! DEFINITION. The instructions: one constructor per row of spec/opcode_table.json. The twelve host commands carry
the operand fields that 30_encoding.md R102 gives them; the seventeen wire frames carry the operands of their rules in
40_codec.md (`x` a logical address, `n` a read length, `v` a byte, `d` a chunk of data bytes, `y` an SFDP address). -/

namespace Sys2Proof

/-- The opcode table's rows: 12 host commands (R103) and 17 wire frames (R114 to R116). -/
inductive Instr where
  -- host commands (R102, R103)
  | init (variant : Word32) (sel : Byte)
  | deinit (tdeinit : Bool)
  | discover
  | getInfo
  | getSfdp
  | read (addr len : Word32)
  | readByte (addr : Word32)
  | write (addr len : Word32) (wrap partialAcc : Bool)
  | writeByte (addr : Word32) (value : Byte)
  | erasePage (page : Word32) (value : Byte)
  | erase (value : Byte)
  | rawXfer (addr len rlen : Word32) (opc : BitVec 16) (opw adw dmw : Byte)
  -- SPI_NARROW frames (R114)
  | nRead (x n : Word32)
  | nWrite (x : Word32) (v : Byte)
  | nErase (x : Word32)
  | nEwen
  | nEwds
  | nEral
  -- SPI_NOR_SFDP frames (R115)
  | fWren
  | fWrdi
  | fRdsr
  | fWrsr (v : Byte)
  | fRead (x n : Word32)
  | fPp (x : Word32) (d : List Byte)
  | fRdid
  | fRdsfdp (y : BitVec 24) (n : Word32)
  | fSe4k (x : Word32)
  -- I2C_EE frames (R116)
  | iWrite (x : Word32) (d : List Byte)
  | iRead (x n : Word32)
  deriving DecidableEq, Repr

/-- Is this row a host command, that is, can it stand in a CMDW (R103)? The other rows are wire frames. -/
def Instr.isCommand : Instr → Bool
  | .init _ _ => true
  | .deinit _ => true
  | .discover => true
  | .getInfo => true
  | .getSfdp => true
  | .read _ _ => true
  | .readByte _ => true
  | .write _ _ _ _ => true
  | .writeByte _ _ => true
  | .erasePage _ _ => true
  | .erase _ => true
  | .rawXfer _ _ _ _ _ _ _ => true
  | .nRead _ _ => false
  | .nWrite _ _ => false
  | .nErase _ => false
  | .nEwen => false
  | .nEwds => false
  | .nEral => false
  | .fWren => false
  | .fWrdi => false
  | .fRdsr => false
  | .fWrsr _ => false
  | .fRead _ _ => false
  | .fPp _ _ => false
  | .fRdid => false
  | .fRdsfdp _ _ => false
  | .fSe4k _ => false
  | .iWrite _ _ => false
  | .iRead _ _ => false

end Sys2Proof
end

