-- ==== Sys2Proof/Machine/Dispatch.lean ====
section
/-! DEFINITION. One arm per row of spec/opcode_table.json: the meaning of each instruction. -/

namespace Sys2Proof.Machine

def exec (i : Instr) (s : State) : Host.Outcome State Fault Refusal :=
  match i with
  | .init variant sel => Sys2Proof.Machine.execInit variant sel s
  | .deinit tdeinit => Sys2Proof.Machine.execDeinit tdeinit s
  | .discover => Sys2Proof.Machine.execDiscover s
  | .getInfo => Sys2Proof.Machine.execGetInfo s
  | .getSfdp => Sys2Proof.Machine.execGetSfdp s
  | .read addr len => Sys2Proof.Machine.execRead addr len s
  | .readByte addr => Sys2Proof.Machine.execReadByte addr s
  | .write addr len wrap partialAcc => Sys2Proof.Machine.execWrite addr len wrap partialAcc s
  | .writeByte addr value => Sys2Proof.Machine.execWriteByte addr value s
  | .erasePage page value => Sys2Proof.Machine.execErasePage page value s
  | .erase value => Sys2Proof.Machine.execErase value s
  | .rawXfer addr len rlen opc opw adw dmw => Sys2Proof.Machine.execRawXfer addr len rlen opc opw adw dmw s
  | .nRead x n => Sys2Proof.Machine.execNRead x n s
  | .nWrite x v => Sys2Proof.Machine.execNWrite x v s
  | .nErase x => Sys2Proof.Machine.execNErase x s
  | .nEwen => Sys2Proof.Machine.execNEwen s
  | .nEwds => Sys2Proof.Machine.execNEwds s
  | .nEral => Sys2Proof.Machine.execNEral s
  | .fWren => Sys2Proof.Machine.execFWren s
  | .fWrdi => Sys2Proof.Machine.execFWrdi s
  | .fRdsr => Sys2Proof.Machine.execFRdsr s
  | .fWrsr v => Sys2Proof.Machine.execFWrsr v s
  | .fRead x n => Sys2Proof.Machine.execFRead x n s
  | .fPp x d => Sys2Proof.Machine.execFPp x d s
  | .fRdid => Sys2Proof.Machine.execFRdid s
  | .fRdsfdp y n => Sys2Proof.Machine.execFRdsfdp y n s
  | .fSe4k x => Sys2Proof.Machine.execFSe4k x s
  | .iWrite x d => Sys2Proof.Machine.execIWrite x d s
  | .iRead x n => Sys2Proof.Machine.execIRead x n s

end Sys2Proof.Machine
end

