-- ==== Sys2Proof/WellFormed.lean ====
section
/-! DEFINITION. Which instruction terms are well formed. The field widths of a host command are its Lean types, so
every command term is well formed; a wire frame's operands carry the conditions its rule states. -/

namespace Sys2Proof

/-- The operand conditions that hold whatever the handle: a read frame reads at least one byte (R153, R157, R168,
R171), a data frame carries a non-empty chunk (R152, R169), a sector erase addresses a multiple of 4096 (R172). -/
def Instr.wellFormed : Instr → Bool
  | .init _ _ => true
  | .deinit _ => true
  | .discover => true
  | .getInfo => true
  | .getSfdp => true
  | .read _ _ => true
  | .readByte _ => true
  | .write _ _ _ _ => true
  | .writeByte _ _ => true
  | .erasePage _ _ => true
  | .erase _ => true
  | .rawXfer _ _ _ _ _ _ _ => true
  | .nRead _ n => n != 0#32
  | .nWrite _ _ => true
  | .nErase _ => true
  | .nEwen => true
  | .nEwds => true
  | .nEral => true
  | .fWren => true
  | .fWrdi => true
  | .fRdsr => true
  | .fWrsr _ => true
  | .fRead _ n => n != 0#32
  | .fPp _ d => !d.isEmpty
  | .fRdid => true
  | .fRdsfdp _ n => n != 0#32
  | .fSe4k x => x.toNat % 4096 == 0
  | .iWrite _ d => !d.isEmpty
  | .iRead _ n => n != 0#32

end Sys2Proof
end

