-- ==== Sys2Proof/Decode.lean ====
section
/-! DEFINITION. The two encodings of 30_encoding.md. Section 1, the host command: `decode` from a 24-byte CMDW, total
on any bytes and rejecting by name, and `encode`. Section 2, the wire request: `encodeFrame` and `decodeFrame`, which
need handle state (R117: "A decoder of wire requests therefore needs ADDR_LEN, which is handle state"). -/

namespace Sys2Proof

/-! ### Host commands -/

/-- The fields of CMDW (R100), with FLAGS split into its four parts (R101). -/
structure CmdFields where
  cmd : Byte := 0
  wrap : Bool := false
  partialAcc : Bool := false
  tdeinit : Bool := false
  flagsRsvd : BitVec 5 := 0
  value : Byte := 0
  sel : Byte := 0
  addr : Word32 := 0
  len : Word32 := 0
  rlen : Word32 := 0
  opc : BitVec 16 := 0
  opw : Byte := 0
  adw : Byte := 0
  dmw : Byte := 0
  rsvd : BitVec 24 := 0
  deriving DecidableEq, Repr

/-- The field layout of R100 read from le(CMDW[0..24)); the bit ranges are those of spec/opcode_table.json. -/
def CmdFields.unpack (w : CmdW) : CmdFields where
  cmd := w.extractLsb' 0 8
  wrap := w.getLsbD 8
  partialAcc := w.getLsbD 9
  tdeinit := w.getLsbD 10
  flagsRsvd := w.extractLsb' 11 5
  value := w.extractLsb' 16 8
  sel := w.extractLsb' 24 8
  addr := w.extractLsb' 32 32
  len := w.extractLsb' 64 32
  rlen := w.extractLsb' 96 32
  opc := w.extractLsb' 128 16
  opw := w.extractLsb' 144 8
  adw := w.extractLsb' 152 8
  dmw := w.extractLsb' 160 8
  rsvd := w.extractLsb' 168 24

/-- The field layout of R100 written out, the last byte first. -/
def CmdFields.pack (f : CmdFields) : CmdW :=
  f.rsvd ++ f.dmw ++ f.adw ++ f.opw ++ f.opc ++ f.rlen ++ f.len ++ f.addr ++ f.sel ++ f.value ++
    f.flagsRsvd ++ BitVec.ofBool f.tdeinit ++ BitVec.ofBool f.partialAcc ++ BitVec.ofBool f.wrap ++ f.cmd

/-- Why the decoder refuses a host command. -/
inductive DecodeError where
  /-- CMD is not in the code map (R104); check 1 of R305 -/
  | illegalCommand (code : Byte)
  /-- FLAGS[7:3] ≠ 0 or RSVD ≠ 0 (R105); check 2 of R305 -/
  | reservedBits
  /-- not 24 bytes: "a decoder always reads 24 bytes" (R100) -/
  | badLength (bytes : Nat)
  deriving DecidableEq, Repr

/-- The command codes of R103 and the operand fields of R102; every other field is ignored (R101, R102). -/
def CmdFields.command (f : CmdFields) : Except DecodeError Instr :=
  match f.cmd.toNat with
  | 0x01 => .ok (.init f.addr f.sel)
  | 0x02 => .ok (.deinit f.tdeinit)
  | 0x03 => .ok .discover
  | 0x04 => .ok .getInfo
  | 0x05 => .ok .getSfdp
  | 0x10 => .ok (.read f.addr f.len)
  | 0x11 => .ok (.readByte f.addr)
  | 0x12 => .ok (.write f.addr f.len f.wrap f.partialAcc)
  | 0x13 => .ok (.writeByte f.addr f.value)
  | 0x20 => .ok (.erasePage f.addr f.value)
  | 0x21 => .ok (.erase f.value)
  | 0x30 => .ok (.rawXfer f.addr f.len f.rlen f.opc f.opw f.adw f.dmw)
  | _ => .error (.illegalCommand f.cmd)

/-- The host command decoder: check 1, then check 2 of R305. -/
def decode (w : CmdW) : Except DecodeError Instr :=
  let f := CmdFields.unpack w
  match f.command with
  | .error e => .error e
  | .ok i => if f.flagsRsvd = 0#5 ∧ f.rsvd = 0#24 then .ok i else .error .reservedBits

/-- Decoding from bytes, byte 0 first; total on any byte list. -/
def decodeBytes (bs : List Byte) : Except DecodeError Instr :=
  if bs.length = 24 then decode (BitVec.ofNat 192 (leNat bs)) else .error (.badLength bs.length)

/-- The 24 bytes of a CMDW, byte 0 first. -/
def cmdBytes (w : CmdW) : List Byte := leBytes w.toNat 24

/-- The fields of a host command with every unused field 0 (R102, R103); `none` for a wire frame, which is no host
command. -/
def commandFields : Instr → Option CmdFields
  | .init variant sel => some { cmd := 0x01#8, addr := variant, sel := sel }
  | .deinit tdeinit => some { cmd := 0x02#8, tdeinit := tdeinit }
  | .discover => some { cmd := 0x03#8 }
  | .getInfo => some { cmd := 0x04#8 }
  | .getSfdp => some { cmd := 0x05#8 }
  | .read addr len => some { cmd := 0x10#8, addr := addr, len := len }
  | .readByte addr => some { cmd := 0x11#8, addr := addr }
  | .write addr len wrap partialAcc =>
      some { cmd := 0x12#8, addr := addr, len := len, wrap := wrap, partialAcc := partialAcc }
  | .writeByte addr value => some { cmd := 0x13#8, addr := addr, value := value }
  | .erasePage page value => some { cmd := 0x20#8, addr := page, value := value }
  | .erase value => some { cmd := 0x21#8, value := value }
  | .rawXfer addr len rlen opc opw adw dmw =>
      some { cmd := 0x30#8, addr := addr, len := len, rlen := rlen, opc := opc, opw := opw, adw := adw, dmw := dmw }
  | .nRead _ _ => none
  | .nWrite _ _ => none
  | .nErase _ => none
  | .nEwen => none
  | .nEwds => none
  | .nEral => none
  | .fWren => none
  | .fWrdi => none
  | .fRdsr => none
  | .fWrsr _ => none
  | .fRead _ _ => none
  | .fPp _ _ => none
  | .fRdid => none
  | .fRdsfdp _ _ => none
  | .fSe4k _ => none
  | .iWrite _ _ => none
  | .iRead _ _ => none

/-- The CMDW of a host command. -/
def encode (i : Instr) : Option CmdW := (commandFields i).map CmdFields.pack

/-- The host's question of the decoder: the low `nbits` of `w` as the first bytes of a CMDW, zeros above. The answer is
what the host command decoder reads. The opcode values of the wire-frame rows number another space (SPI opcodes,
which overlap the command codes), so such a word is read as the command of that code, or refused (log 12). -/
def decodeTableWord (nbits w : Nat) : Option Instr :=
  match decodeBytes (leBytes (w % 2 ^ nbits) 24) with
  | .ok i => some i
  | .error _ => none

/-! ### Wire frames -/

/-- The wire request of a frame (R114 to R116); `none` for a host command, which is no frame. -/
def encodeFrame (c : WireCtx) : Instr → Option Request
  | .init _ _ => none
  | .deinit _ => none
  | .discover => none
  | .getInfo => none
  | .getSfdp => none
  | .read _ _ => none
  | .readByte _ => none
  | .write _ _ _ _ => none
  | .writeByte _ _ => none
  | .erasePage _ _ => none
  | .erase _ => none
  | .rawXfer _ _ _ _ _ _ _ => none
  | .nRead x n => some (c.nRead x.toNat n.toNat)
  | .nWrite x v => some (c.nWrite x.toNat v)
  | .nErase x => some (c.nErase x.toNat)
  | .nEwen => some c.nEwen
  | .nEwds => some c.nEwds
  | .nEral => some c.nEral
  | .fWren => some c.fWren
  | .fWrdi => some c.fWrdi
  | .fRdsr => some c.fRdsr
  | .fWrsr v => some (c.fWrsr v)
  | .fRead x n => some (c.fRead x.toNat n.toNat)
  | .fPp x d => some (c.fPp x.toNat d)
  | .fRdid => some c.fRdid
  | .fRdsfdp y n => some (c.fRdsfdp y.toNat n.toNat)
  | .fSe4k x => some (c.fSe4k x.toNat)
  | .iWrite x d => some (c.iWrite x.toNat d)
  | .iRead x n => some (c.iRead x.toNat n.toNat)

/-- The logical address that an I2C request's select byte and address bytes carry: the in-band field below, the
folded bits above (R150, R151). DESIGN CHOICE (log 23): where SELECT[3:1] is not 0, several addresses can share the
select byte (R346), and the spec does not say which one a decoder reads; the fold is read as `selb XOR SELECT`, the least
of them. -/
def i2cAddress (c : WireCtx) (selb : Byte) (addrField : List Byte) : Word32 :=
  let low := beNat addrField
  if c.addrLen.toNat < c.addrWidth then
    BitVec.ofNat 32 (low + (((selb ^^^ c.select).toNat >>> 1) &&& 7) * 2 ^ c.addrLen.toNat)
  else BitVec.ofNat 32 low

/-- The frames of the handle's family that a request could be, its fields read off (R114 to R116). A stub handle has
no frames (R143). DESIGN CHOICE (log 23): the address of an SPI frame is read as the value of its address field, the least
of the addresses that share it when SIZE > 2^ADW (R154, R343). -/
def frameCandidates (c : WireCtx) (r : Request) : List Instr :=
  match c.family, r with
  | .spiNarrow, .spiXfer d =>
      [.nRead d.adr (BitVec.ofNat 32 d.rlen), .nWrite d.adr (d.wdata.headD 0#8), .nErase d.adr, .nEwen, .nEwds, .nEral]
  | .spiNorSfdp, .spiXfer d =>
      [.fWren, .fWrdi, .fRdsr, .fWrsr (d.wdata.headD 0#8), .fRead d.adr (BitVec.ofNat 32 d.rlen), .fPp d.adr d.wdata,
        .fRdid, .fRdsfdp (d.adr.setWidth 24) (BitVec.ofNat 32 d.rlen), .fSe4k d.adr]
  | .i2cEe, .i2cWrite selb w _ =>
      [.iWrite (i2cAddress c selb (w.take (c.addrLen.toNat / 8))) (w.drop (c.addrLen.toNat / 8))]
  | .i2cEe, .i2cWriteRead selb w rlen _ => [.iRead (i2cAddress c selb w) (BitVec.ofNat 32 rlen)]
  | _, _ => []

/-- The wire-frame decoder (R117): the first well-formed frame of the family whose encoding is this very request. DESIGN
CHOICE (log 23): where the constants make two frames one request, the first in the order of `frameCandidates` is read. -/
def decodeFrame (c : WireCtx) (r : Request) : Option Instr :=
  (frameCandidates c r).find? fun i => i.wellFormed && encodeFrame c i == some r

end Sys2Proof
end

