-- ==== Sys2Proof/Machine/Sequencer.lean ====
section
/-! DEFINITION. One step of a command in progress (00_scope.md R3). -/

namespace Sys2Proof.Machine

/-- Issue the request that is due, take its answer, and run the command's rule on to its next request or to its finish
(R3, R85). Without a command in progress nothing happens. -/
def State.advance (s : State) : State :=
  match s.pending with
  | none => s
  | some (.table who h) => readTable who h s
  | some (.jobs j rest g) => stepJob j rest g s

end Sys2Proof.Machine
end

