-- ==== Sys2Proof/Machine/HostPort.lean ====
section
/-! DEFINITION. The host port (60_exceptions.md R321): how the next event is taken, and how a command word that the
decoder refuses is finished (30_encoding.md R104, R105). -/

namespace Sys2Proof.Machine

/-- Drop the first host event. -/
def State.takeEvent (s : State) : State := { s with hostIn := s.hostIn.drop 1 }

/-- A command the decoder refuses, by check 1 or 2 of R305: accepted, then finished at once with InvalidArgument, no
request and no other register (R104, R105). -/
def refuseCommand (_ : DecodeError) (s : State) : State := s.raise .invalidArgument

/-- The host waits until no command is in progress, then goes on to its next event. -/
def awaitIdle (s : State) : State :=
  match s.pending with
  | none => s.takeEvent
  | some _ => s.advance

/-- A program: its commands handed over one at a time, each once the one before it has finished (R107, R120). -/
def programEvents (offers : List Offer) : List HostEvent := offers.flatMap fun o => [.command o, .await]

end Sys2Proof.Machine
end

