-- ==== Sys2Proof/Machine/Step.lean ====
section
/-! DEFINITION. One step of the machine (00_scope.md R3): one request on the transport port with its answer, or one delay.
A command is accepted in the step of its first request (30_encoding.md R107, 60_exceptions.md R321); a command in progress
issues its next request; a command that needs no request runs in one step without one (log 1). -/

namespace Sys2Proof.Machine

/-- Accept a command handed over while BUSY = 0, decode it, and run it up to the answer of its first request. -/
def runOffer (o : Offer) (s : State) : Host.Outcome State Fault Refusal :=
  match decode o.cmdw with
  | .ok i => exec i (s.accept o)
  | .error e => .next (refuseCommand e (s.accept o))

def step (s : State) : Host.Outcome State Fault Refusal :=
  if s.cfg.admitted then
    match s.hostIn with
    | [] => .next s.advance
    | .powerOn :: _ => .next s.takeEvent.powerOn
    | .pass :: _ => .next s.takeEvent.advance
    | .await :: _ => .next (awaitIdle s)
    | .command o :: _ => if s.port.busy then .refused .busy else runOffer o s.takeEvent
  else .refused .illFormedRegistry

/-- `s` with the command word of the low `nbits` bits of `w` (zeros above) next at the host port, without write data,
and the block ready to accept it. The step fetches its next instruction there. -/
def State.withFetchWord (s : State) (nbits w : Nat) : State :=
  { s with
    hostIn := .command ⟨BitVec.ofNat 192 (w % 2 ^ nbits), []⟩ :: s.hostIn
    port := { s.port with busy := false }
    pending := none }

end Sys2Proof.Machine
end

