-- ==== Sys2Proof/Safety.lean ====
section
/-! DEFINITION. The states a block can be in (10_state.md R39, with what the registry, discovery and a command in progress
add to it), the requests the transport contract allows (30_encoding.md R110, R111, 60_exceptions.md R318), and the runs of
a command over its steps (00_scope.md R3). -/

namespace Sys2Proof.Machine

/-- Does the handle's geometry equal this registry entry's (R39, R142)? -/
def Handle.hasGeometry (h : Handle) (g : Geometry) : Prop :=
  h.size = g.sizeRegister ∧ h.addrLen = g.addrLenRegister ∧ h.pageSize = g.pageSizeRegister ∧
    h.writeDelayMs = g.writeDelayRegister

/-- No geometry: what a stub has (R143), and an SFDP part from INIT until its discovery succeeds (R144). -/
def Handle.noGeometry (h : Handle) : Prop :=
  h.size = 0#32 ∧ h.addrLen = 0#8 ∧ h.pageSize = 0#32 ∧ h.writeDelayMs = 0#32

/-- An SFDP part's geometry is that of its last successful discovery (R262, R263, R267). -/
def State.NorGeometry (s : State) : Prop :=
  s.handle.size = s.sfdp.arraySize ∧ (s.handle.addrLen = 24#8 ∨ s.handle.addrLen = 32#8) ∧
    (s.handle.pageSize = 1#32 ∨ s.handle.pageSize = 64#32) ∧ s.handle.writeDelayMs = s.cfg.norPageDelayMs

/-- Is this a legal value of PAGE_SIZE (R32)? -/
def LegalPageSize (w : Word32) : Prop := w = 0#32 ∨ ∃ k, w.toNat = 2 ^ k

/-- The legal values of R32 for VARIANT, ADDR_LEN and PAGE_SIZE. WP's is `Inv.wpClear`; the types of the other handle
registers admit the legal values only. VARIANT names an entry from INIT to DEINIT; an UNINIT handle's is 0 (R39). -/
structure Handle.Legal (p : Params) (h : Handle) : Prop where
  variant : h.hstate ≠ .uninit → h.variant.toNat < p.registry.length
  addrLen : h.addrLen.toNat ≤ 32
  pageSize : LegalPageSize h.pageSize

/-- Is this a legal value of PT_SIZE (R34)? -/
def LegalPtSize (w : BitVec 16) : Prop := 8 ≤ w.toNat ∧ w.toNat ≤ 1020 ∧ w.toNat % 4 = 0

/-- The parameter registers are at reset until a discovery succeeds, and have the legal values of R34 from then on: they
are written together, at PARSED (R34, R261). -/
def Sfdp.Legal (f : Sfdp) : Prop :=
  f.state ≠ .parsed ∧ f = { Sfdp.reset with state := f.state, hdrBuf := f.hdrBuf, ptBuf := f.ptBuf } ∨
    LegalPtSize f.ptSize ∧ (f.writeGran = 1#8 ∨ f.writeGran = 64#8) ∧ (f.addrBytes = 3#8 ∨ f.addrBytes = 4#8)

/-- The invariants of R39 on the handle and SFDP registers, and their consequences for the other registers. They hold
between commands, and during one except between the two requests of a discovery. -/
structure State.Settled (s : State) : Prop where
  /-- R39, first bullet -/
  uninitReset : s.handle.hstate = .uninit → s.handle = .reset ∧ s.sfdp = .reset
  /-- R39, second bullet, I2C_EE -/
  i2cGeometry : s.handle.hstate = .ready → s.handle.family = .i2cEe →
    ∃ g, s.cfg.registry[s.handle.variant.toNat]? = some (.hwI2cEe g) ∧ s.handle.hasGeometry g
  /-- R39, second bullet, SPI_NARROW -/
  narrowGeometry : s.handle.hstate = .ready → s.handle.family = .spiNarrow →
    ∃ g, s.cfg.registry[s.handle.variant.toNat]? = some (.hwSpiNarrow g) ∧ s.handle.hasGeometry g
  /-- R39, third bullet -/
  norParsed : s.handle.hstate = .ready → s.handle.family = .spiNorSfdp → s.sfdp.state = .parsed
  /-- R39, fourth bullet -/
  boundFailed : s.handle.hstate = .bound → s.handle.family = .spiNorSfdp ∧ s.sfdp.state = .failed
  /-- R39, fifth bullet -/
  stubNoGeometry : s.handle.hstate = .ready → s.handle.family = .stub0 ∨ s.handle.family = .stub1 → s.handle.noGeometry
  norGeometry : s.handle.hstate ≠ .uninit → s.handle.family = .spiNorSfdp → s.NorGeometry
  /-- only an SFDP handle has SFDP registers that are not at reset (R34, R261) -/
  sfdpOnlyOnNor : s.handle.family ≠ .spiNorSfdp → s.sfdp = .reset
  /-- the interface follows the family (R142) -/
  ifaceFollows : s.handle.hstate ≠ .uninit →
    s.handle.iface =
      match s.handle.family with
      | .i2cEe => .i2c
      | .spiNarrow => .spi
      | .spiNorSfdp => .spi
      | .stub0 => s.cfg.stubIface0
      | .stub1 => s.cfg.stubIface1

/-- Between the two requests of a discovery (R35, R241). -/
structure State.Discovering (who : Discoverer) (s : State) : Prop where
  headerRead : s.sfdp.state = .headerRead
  bound : s.handle.hstate ≠ .uninit
  nor : s.handle.family = .spiNorSfdp
  spi : s.handle.iface = .spi
  /-- INIT's discovery starts from a fresh handle (R280, R144) -/
  fresh : who = .init →
    s.handle.hstate = .bound ∧ s.handle.noGeometry ∧ s.sfdp = { Sfdp.reset with state := .headerRead, hdrBuf := s.sfdp.hdrBuf }
  /-- a re-run still has what the discovery before it left (R263) -/
  geometry : who ≠ .init → s.NorGeometry

/-- Every state of a run has these. -/
structure State.Inv (s : State) : Prop where
  /-- BUSY is 1 exactly while a command is in progress (R36, R107) -/
  busy : s.port.busy = s.pending.isSome
  /-- "No command sets it" (R41) -/
  wpClear : s.handle.wp = false
  /-- the legal values of R32 and of R34 -/
  legal : s.handle.Legal s.cfg ∧ s.sfdp.Legal
  /-- HDR_BUF is 15 bytes and PT_BUF 8 bytes (R34) -/
  bufferLengths : s.sfdp.hdrBuf.length = 15 ∧ s.sfdp.ptBuf.length = 8
  /-- what the command in progress, or that there is none, adds -/
  progress :
    match s.pending with
    /- "The sequencer working registers do not exist between commands" (R330) -/
    | none => s.Settled ∧ s.work = none
    /- the header read has passed its checks, so the table's size is legal (R246, R247) -/
    | some (.table who h) => s.Discovering who ∧ LegalPtSize h.ps ∧ s.work = none
    | some (.jobs j _ _) => s.Settled ∧ s.handle.hstate = .ready ∧ s.work = j.work

/-- A request within the field ranges of R110 and R111, with the timeout that goes with every request (R314). -/
def requestInContract (p : Params) : Request → Prop
  | .spiXfer d =>
      d.opw ≤ 16 ∧ d.adw ≤ 32 ∧ d.dmw ≤ 255 ∧ d.adr.toNat < 2 ^ d.adw ∧ d.rlen < 2 ^ 32 ∧ d.tmo = p.txnTimeoutMs
  | .i2cWrite _ _ tmo => tmo = p.txnTimeoutMs
  | .i2cWriteRead _ _ rlen tmo => rlen < 2 ^ 32 ∧ tmo = p.txnTimeoutMs
  | .delay _ => True
  | .tdeinit => True

/-- The requests a job still has to issue, in order. -/
def Job.requests (j : Job) : List Request := j.due :: j.more

/-- The requests that are still to be issued for sure if all succeed. -/
def State.stillDue (s : State) : List Request :=
  match s.pending with
  | none => []
  | some (.table _ h) => [s.wireCtx.fRdsfdp h.pp.toNat h.ps.toNat]
  | some (.jobs j rest _) => (j :: rest).flatMap Job.requests

/-- Every recorded step of the block is a request within the contract, issued while BUSY = 1 (R107, R110, R111), and the
requests still due are within the contract. -/
def State.WireOk (s : State) : Prop :=
  (∀ e ∈ s.wire, requestInContract s.cfg e.req ∧ e.busy = true) ∧ ∀ r ∈ s.stillDue, requestInContract s.cfg r

/-! ### The runs of a command

A command that needs more than one request takes more than one step (R3). -/

/-- The next `n` steps of a command in progress (`State.advance`), the host doing nothing. -/
def carryOn : Nat → State → State
  | 0, s => s
  | n + 1, s => carryOn n s.advance

/-- `exec` answers a next state for `i` in `s`, and `t` is that state or one the command comes to in later steps. -/
def Reaches (i : Instr) (s t : State) : Prop := ∃ u n, exec i s = .next u ∧ carryOn n u = t

/-- `exec` answers a next state for `i` in `s`, the command runs on to its finish, and `t` is the state it leaves. -/
def Completes (i : Instr) (s t : State) : Prop := Reaches i s t ∧ t.pending = none

/-! ### The terms in which claims speak of requests and answers -/

/-- No register of the block and no parameter differs: the two states may differ in the record of the wire, in the
answers and in the counter of drawn values only. -/
def SameBlock (s t : State) : Prop :=
  t.cfg = s.cfg ∧ t.handle = s.handle ∧ t.sfdp = s.sfdp ∧ t.port = s.port ∧ t.work = s.work ∧ t.pending = s.pending ∧
    t.hostIn = s.hostIn

/-- Do the listed answers answer these requests, in order, each with success (R306)? The answers left over, if so. -/
def Answers.success : List Request → Answers → Option Answers
  | [], a => some a
  | .spiXfer d :: rs, a =>
    match a.xfer with
    | .ok data :: tl => if data.length = d.rlen then Answers.success rs { a with xfer := tl } else none
    | _ => none
  | .i2cWriteRead _ _ rlen _ :: rs, a =>
    match a.xfer with
    | .ok data :: tl => if data.length = rlen then Answers.success rs { a with xfer := tl } else none
    | _ => none
  | .i2cWrite _ wdata _ :: rs, a =>
    match a.count with
    | .ok n :: tl => if n = wdata.length then Answers.success rs { a with count := tl } else none
    | _ => none
  | .tdeinit :: rs, a =>
    match a.release with
    | .ok :: tl => Answers.success rs { a with release := tl }
    | _ => none
  | .delay _ :: rs, a => Answers.success rs a

/-- The code with which the first listed answer fails this request, if it does (R306). -/
def Answers.failure (r : Request) (a : Answers) : Option Word32 :=
  match r with
  | .spiXfer d =>
    match a.xfer with
    | .ok data :: _ => if data.length = d.rlen then none else some ErrorName.fail.code
    | .err e :: _ => some e.code
    | [] => none
  | .i2cWriteRead _ _ rlen _ =>
    match a.xfer with
    | .ok data :: _ => if data.length = rlen then none else some ErrorName.fail.code
    | .err e :: _ => some e.code
    | [] => none
  | .i2cWrite _ wdata _ =>
    match a.count with
    | .ok n :: _ => if n = wdata.length then none else some ErrorName.fail.code
    | .err e :: _ => some e.code
    | [] => none
  | .tdeinit =>
    match a.release with
    | .fail :: _ => some ErrorName.fail.code
    | _ => none
  | .delay _ => none

/-- The requests of one successful MODIFY (R174): the write-enable where the family has one, the frame, the delay. -/
def modifyRequests (c : WireCtx) (hw : HwFamily) (f : Request) (ms : Word32) : List Request :=
  (c.writeEnable hw).toList ++ [f, .delay ms]

/-- The requests of a list of chunks that all succeed (R192, R193). -/
def chunkRequests (c : WireCtx) (hw : HwFamily) (ms : Word32) (plan : List (Nat × List Byte)) : List Request :=
  plan.flatMap fun k => modifyRequests c hw (c.chunkFrame hw k.1 k.2) ms

end Sys2Proof.Machine
end

