-- ==== Sys2Proof/Certificates/Slice0/Obligations.lean ====
section
/-! DEFINITION. The statements for the provers, one `def Obligations.<Name> : Prop` each; OBLIGATIONS.json lists them
with the rules they formalise. `Sys2Proof.Claims` holds the few terms they share. -/

namespace Sys2Proof.Claims

open Sys2Proof.Machine

/-- A READY handle of hardware family `hw` whose SIZE is a power of two (checks 4 to 6 of R305). -/
def ReadyOn (s : State) (hw : HwFamily) : Prop :=
  s.handle.hstate = .ready ∧
    s.handle.family = (match hw with | .i2cEe => .i2cEe | .spiNarrow => .spiNarrow | .spiNorSfdp => .spiNorSfdp) ∧
    ∃ k, s.handle.size.toNat = 2 ^ k

/-- The effective page size of R191. -/
def effectivePage (s : State) (hw : HwFamily) : Nat :=
  match hw with
  | .spiNarrow => 1
  | .i2cEe => s.handle.pageSize.toNat
  | .spiNorSfdp => s.handle.pageSize.toNat

/-- How every command ends (R18, R107): BUSY 0, STATUS and DOUT as given, CMDR and DIN as latched, no working
registers, no command in progress; the parameters and the host's further events are untouched. -/
def Finished (s t : State) (status : Word32) (dout : List Byte) : Prop :=
  t.port = { busy := false, status := status, cmdr := s.port.cmdr, din := s.port.din, dout := dout } ∧
    t.work = none ∧ t.pending = none ∧ t.cfg = s.cfg ∧ t.hostIn = s.hostIn

/-- No handle register and no SFDP register differs. -/
def SameHandle (s t : State) : Prop := t.handle = s.handle ∧ t.sfdp = s.sfdp

/-- STATUS reports the count `n`. A count of 2^31 or more does not fit STATUS and the spec gives no result: then
nothing is said (log 5). -/
def Reports (status : Word32) (n : Nat) : Prop := n < 2 ^ 31 → status = BitVec.ofNat 32 n

/-- How one MODIFY (R174) fails on the listed answers `a`: its write-enable fails, or that succeeds and the frame
fails. `code` is the failing answer's code and `sent` what was issued. -/
def ModifyFails (c : WireCtx) (hw : HwFamily) (f : Request) (a : Answers) (code : Word32) (sent : List Request) : Prop :=
  (∃ w, c.writeEnable hw = some w ∧ a.failure w = some code ∧ sent = [w]) ∨
    (∃ a1, a.success (c.writeEnable hw).toList = some a1 ∧ a1.failure f = some code ∧
      sent = (c.writeEnable hw).toList ++ [f])

/-- The sub-writes of a WRITE of `d` at `x` with wrap, each with its address: up to SIZE, then again from 0 for as long
as there is data (R188). -/
def subWrites (size x : Nat) (d : List Byte) : List (Nat × List Byte) :=
  (x, d.take (size - x)) ::
    (List.range ((d.length - (size - x) + size - 1) / size)).map fun j => (0, (d.drop (size - x + j * size)).take size)

/-- The requests of sub-writes that all succeed: their chunks in order. -/
def subWriteRequests (s : State) (hw : HwFamily) (w : List (Nat × List Byte)) : List Request :=
  w.flatMap fun k => chunkRequests s.wireCtx hw s.handle.writeDelayMs (chunksOf (effectivePage s hw) k.1 k.2)

/-- The frames of an ERASE_PAGE in order (R220, R222, R223). -/
def pageFrames (s : State) (hw : HwFamily) (page : Nat) (value : Byte) : List Request :=
  let p := s.handle.pageSize.toNat
  match hw with
  | .spiNarrow =>
    (List.range p).map fun i =>
      if value = 0xFF then s.wireCtx.nErase (page * p + i) else s.wireCtx.nWrite (page * p + i) value
  | .i2cEe => [s.wireCtx.iWrite (page * p) (List.replicate p value)]
  | .spiNorSfdp => [s.wireCtx.fPp (page * p) (List.replicate p value)]

/-- The units of a page-by-page fill (R227), each a frame with its delay. -/
def fillUnits (s : State) (hw : HwFamily) (value : Byte) : List (Request × Word32) :=
  let p := s.handle.pageSize.toNat
  (List.range (s.handle.size.toNat / p)).map fun i =>
    (s.wireCtx.chunkFrame hw (i * p) (List.replicate p value), s.handle.writeDelayMs)

/-- The units of an ERASE in order (R226, R227, R229, R230), each a frame with its delay. -/
def eraseUnits (s : State) (hw : HwFamily) (value : Byte) : List (Request × Word32) :=
  match hw with
  | .spiNarrow =>
    if value = 0xFF then [(s.wireCtx.nEral, s.cfg.narrowEralDelayMs.getD s.handle.writeDelayMs)]
    else (List.range s.handle.size.toNat).map fun x => (s.wireCtx.nWrite x value, s.handle.writeDelayMs)
  | .i2cEe => fillUnits s .i2cEe value
  | .spiNorSfdp =>
    if s.sfdp.erase4kOp ≠ 0 ∧ value = 0xFF then
      (List.range ((s.handle.size.toNat + 4095) / 4096)).map fun i =>
        (s.wireCtx.fSe4k (4096 * i), s.cfg.norSectorDelayMs)
    else fillUnits s .spiNorSfdp value

/-- The SPI request with these fields and the timeout of every request (R155, R314). -/
def spiRequest (s : State) (opc : BitVec 16) (opw : Nat) (adr : Word32) (adw dmw : Nat) (d : List Byte) (n : Nat) :
    Request :=
  .spiXfer { opc := opc, opw := opw, adr := adr, adw := adw, dmw := dmw, wdata := d, rlen := n, tmo := s.cfg.txnTimeoutMs }

/-- ADDR_LEN as a number. -/
def al (s : State) : Nat := s.handle.addrLen.toNat

/-- Running the frame `i` issues the one request `r`, and changes no register (R176, log 7). -/
def Issues (i : Instr) (s : State) (r : Request) : Prop :=
  ∃ t, exec i s = .next t ∧ SameBlock s t ∧ t.requests = s.requests ++ [r]

/-- The device-select byte of R150, written out. -/
def foldedSelect (s : State) (x : Nat) : Byte :=
  if al s < bitlength (s.handle.size.toNat - 1) then
    BitVec.ofNat 8 (s.handle.select.toNat ||| ((x / 2 ^ al s * 2) &&& 15))
  else s.handle.select

/-- The address bytes of R151 for the two admitted widths, most significant byte first. -/
def inBandBytes (s : State) (x : Nat) : List Byte :=
  if al s = 16 then [BitVec.ofNat 8 (x / 256), BitVec.ofNat 8 x] else [BitVec.ofNat 8 x]

/-- A command that finishes with InvalidArgument and writes nothing but STATUS (R305): as acceptance left it, DOUT is
empty. -/
def RefusedWith (i : Instr) (s : State) (e : ErrorName) : Prop :=
  exec i s = .next { s with port := { s.port with busy := false, status := e.code }, work := none, pending := none }

/-- R294 and check 3 of R305, as a table: does the command get past its DIN, lifecycle-state and family checks? -/
def admitted (s : State) : Instr → Prop
  | .init _ _ => s.port.din = [] ∧ s.handle.hstate = .uninit
  | .deinit _ => s.port.din = [] ∧ s.handle.hstate ≠ .uninit
  | .discover => s.port.din = [] ∧ s.handle.hstate ≠ .uninit ∧ s.handle.family = .spiNorSfdp
  | .getInfo => s.port.din = [] ∧ s.handle.hstate ≠ .uninit
  | .getSfdp => s.port.din = [] ∧ s.handle.hstate = .ready ∧ s.handle.family = .spiNorSfdp ∧ s.sfdp.state = .parsed
  | .read _ _ => s.port.din = [] ∧ s.handle.hstate = .ready ∧ s.handle.family ≠ .stub0 ∧ s.handle.family ≠ .stub1
  | .readByte _ => s.port.din = [] ∧ s.handle.hstate = .ready ∧ s.handle.family ≠ .stub0 ∧ s.handle.family ≠ .stub1
  | .write _ len _ _ =>
      s.port.din.length = len.toNat ∧ s.handle.hstate = .ready ∧ s.handle.family ≠ .stub0 ∧ s.handle.family ≠ .stub1
  | .writeByte _ _ => s.port.din = [] ∧ s.handle.hstate = .ready ∧ s.handle.family ≠ .stub0 ∧ s.handle.family ≠ .stub1
  | .erasePage _ _ => s.port.din = [] ∧ s.handle.hstate = .ready ∧ s.handle.family ≠ .stub0 ∧ s.handle.family ≠ .stub1
  | .erase _ =>
      s.port.din = [] ∧
        (s.handle.hstate = .ready ∧ s.handle.family ≠ .stub0 ∧ s.handle.family ≠ .stub1 ∨
          s.handle.hstate = .bound ∧ s.handle.family = .spiNorSfdp)
  | .rawXfer _ len _ _ _ _ _ => s.port.din.length = len.toNat ∧ s.handle.hstate = .ready
  | .nRead _ _ => True
  | .nWrite _ _ => True
  | .nErase _ => True
  | .nEwen => True
  | .nEwds => True
  | .nEral => True
  | .fWren => True
  | .fWrdi => True
  | .fRdsr => True
  | .fWrsr _ => True
  | .fRead _ _ => True
  | .fPp _ _ => True
  | .fRdid => True
  | .fRdsfdp _ _ => True
  | .fSe4k _ => True
  | .iWrite _ _ => True
  | .iRead _ _ => True

/-- The admission conditions of R10 on one registry entry, with powers of two spelled out. -/
def EntryOk : Entry → Prop
  | .hwI2cEe g =>
      (∃ k, g.size = 2 ^ k) ∧ (∃ k, g.pageSize = 2 ^ k) ∧ g.pageSize ≤ g.size ∧ g.writeDelayMs < 2 ^ 32 ∧
        (g.addrLen = 8 ∨ g.addrLen = 16) ∧ g.pageSize ≤ 2 ^ g.addrLen ∧
        (bitlength (g.size - 1) : Int) - g.addrLen ≤ 3
  | .hwSpiNarrow g =>
      (∃ k, g.size = 2 ^ k) ∧ (∃ k, g.pageSize = 2 ^ k) ∧ g.pageSize ≤ g.size ∧ g.writeDelayMs < 2 ^ 32 ∧
        2 ≤ g.addrLen ∧ g.addrLen ≤ 32 ∧ g.size ≤ 2 ^ g.addrLen
  | .sfdp => True
  | .sentinel => True
  | .stub0 => True
  | .stub1 => True

/-- An opcode width of R11 and R12. -/
def WidthOk (w : Nat) : Prop := 1 ≤ w ∧ w ≤ 16

/-- The header passes the checks of R244 to R246. -/
def HeaderOk (h : List Byte) : Prop :=
  h.take 4 = [0x53#8, 0x46#8, 0x44#8, 0x50#8] ∧ h[7]? = some 0xFF#8 ∧ ∃ n, h[11]? = some n ∧ 2 ≤ n.toNat

/-- The registers a discovery that fails leaves as they were: all but HSTATE, SFDP_STATE and the two buffers (R263). -/
def KeptByFailedDiscovery (s t : State) : Prop :=
  t.handle = { s.handle with hstate := .bound } ∧
    t.sfdp = { s.sfdp with state := .failed, hdrBuf := t.sfdp.hdrBuf, ptBuf := t.sfdp.ptBuf }

/-- The request that a command in progress issues in its next step. -/
def dueRequest (s : State) : Option Request :=
  match s.pending with
  | none => none
  | some (.table _ h) => some (spiRequest s s.cfg.nor.rdsfdpOpc 8 (BitVec.ofNat 32 h.pp.toNat) 24 8 [] h.ps.toNat)
  | some (.jobs j _ _) => some j.due

end Sys2Proof.Claims

open Sys2Proof Sys2Proof.Machine Sys2Proof.Claims

/-! ### Reset, admission and the step -/

/-- R330, every register and the absence of working registers: `State.reset`, and the reset state of a block with any
other parameters. -/
def Obligations.ResetStateIsAsSpecified : Prop :=
  let asSpecified (s : State) : Prop :=
    hstateCode s.handle.hstate = 0 ∧ familyCode s.handle.family = 0 ∧ ifaceCode s.handle.iface = 0 ∧
      s.handle.variant = 0 ∧ s.handle.size = 0 ∧ s.handle.addrLen = 0 ∧ s.handle.pageSize = 0 ∧
      s.handle.writeDelayMs = 0 ∧ s.handle.select = 0 ∧ s.handle.wp = false ∧ s.handle.progress = 0 ∧
      sfdpStateCode s.sfdp.state = 0 ∧ s.sfdp.hdrVer = 0 ∧ s.sfdp.hdrCount = 0 ∧ s.sfdp.ptVer = 0 ∧
      s.sfdp.ptSize = 0 ∧ s.sfdp.ptPtr = 0 ∧ s.sfdp.writeGran = 0 ∧ s.sfdp.erase4kOp = 0 ∧ s.sfdp.addrBytes = 0 ∧
      s.sfdp.dtr = false ∧ s.sfdp.arraySize = 0 ∧
      s.sfdp.hdrBuf = [0, 0, 0, 0, 0, 0, 0, 0, 0, 0, 0, 0, 0, 0, 0] ∧ s.sfdp.ptBuf = [0, 0, 0, 0, 0, 0, 0, 0] ∧
      s.port.busy = false ∧ s.port.status = 0 ∧ s.port.cmdr = 0 ∧ s.port.din = [] ∧ s.port.dout = [] ∧ s.work = none ∧
      s.pending = none
  asSpecified State.reset ∧ ∀ p : Params, asSpecified (State.resetWith p)

/-- R331, R332: a power cycle, also one in the middle of a command, gives every register of R330 its reset value, ends the
command in progress and touches nothing outside the block. That it is an event at the host side, between two steps, is the
model's (log 2). -/
def Obligations.PowerOnResetsEveryRegister : Prop :=
  ∀ (s : State) (rest : List HostEvent), s.cfg.admitted = true → s.hostIn = .powerOn :: rest →
    step s =
      .next { State.resetWith s.cfg with hostIn := rest, answers := s.answers, wire := s.wire, drawn := s.drawn }

/-- R10, R11, R12: the model admits exactly the parameter sets that meet the admission conditions, and has no step for
any other. -/
def Obligations.AdmissionConditions : Prop :=
  (∀ p : Params,
    p.admitted = true ↔
      (∀ e ∈ p.registry, EntryOk e) ∧ p.registry.count .sentinel = 2 ∧ p.registry.count .stub0 = 1 ∧
        p.registry.count .stub1 = 1 ∧
        (∀ k ∈ [p.narrow.read, p.narrow.write, p.narrow.erase, p.narrow.ewen, p.narrow.ewds, p.narrow.eral],
          WidthOk k.opw) ∧
        (∀ k ∈ [p.nor.wren, p.nor.wrdi, p.nor.rdsr, p.nor.wrsr, p.nor.read, p.nor.pp, p.nor.rdid], WidthOk k.opw)) ∧
  (∀ s : State, s.cfg.admitted = false → step s = .refused .illFormedRegistry)

/-- A step runs the decoded command: with BUSY = 0 and a command at the host port whose CMDW decodes to `i`, the step
is `exec i` in the accepted state (R107: CMDW and DIN latched, DOUT cleared, BUSY 1; the event taken off the port).
`exec i` runs the command up to the answer of its first request; that its acceptance and that request are one step is the
model's (log 1). -/
def Obligations.StepRunsDecodedCommand : Prop :=
  ∀ (s : State) (o : Offer) (rest : List HostEvent) (i : Instr),
    s.cfg.admitted = true → s.hostIn = .command o :: rest → s.port.busy = false → decode o.cmdw = .ok i →
    step s =
      exec i
        { s with
          hostIn := rest
          port := { busy := true, status := s.port.status, cmdr := o.cmdw, din := o.din, dout := [] } }

/-- R3, R322: one command at a time, and one request a step. A command offered while BUSY = 1 gets no step; a step issues
at most one request; while the host does nothing, or waits, a command in progress issues exactly the request that is due,
and without one nothing happens. So the runs of `Completes` and `Reaches` are runs of `step`. That a command without a
request takes a step of its own, and what the host can do beside handing over commands, is the model's (log 1, log 19). -/
def Obligations.BusyOfferHasNoStep : Prop :=
  ∀ s : State, s.cfg.admitted = true →
    (∀ o rest, s.hostIn = .command o :: rest → s.port.busy = true → step s = .refused .busy) ∧
    (∀ t, step s = .next t → ∃ r, r.length ≤ 1 ∧ t.requests = s.requests ++ r) ∧
    ((s.hostIn = [] ∨ ∃ rest, s.hostIn = .pass :: rest) →
      ∃ t, step s = .next t ∧ t = carryOn 1 { s with hostIn := s.hostIn.drop 1 } ∧
        t.requests = s.requests ++ (dueRequest s).toList ∧
        (s.pending = none → t = { s with hostIn := s.hostIn.drop 1 })) ∧
    (∀ rest, s.hostIn = .await :: rest →
      (s.pending = none → step s = .next { s with hostIn := rest }) ∧
      (s.pending ≠ none → step s = .next (carryOn 1 s) ∧
        (carryOn 1 s).requests = s.requests ++ (dueRequest s).toList))

/-- R104, R105: an illegal CMD code, or a reserved bit set beside a legal code, finishes with InvalidArgument, issues no
request and changes no handle or SFDP register. The acceptance of R107 (CMDR, DIN, DOUT) comes first (log 6). -/
def Obligations.IllegalWordsFinishInvalidArgument : Prop :=
  ∀ (s : State) (o : Offer) (rest : List HostEvent),
    s.cfg.admitted = true → s.hostIn = .command o :: rest → s.port.busy = false →
    (o.cmdw.toNat % 256 ∉ [0x01, 0x02, 0x03, 0x04, 0x05, 0x10, 0x11, 0x12, 0x13, 0x20, 0x21, 0x30] ∨
      o.cmdw.toNat / 2 ^ 11 % 2 ^ 5 ≠ 0 ∨ o.cmdw.toNat / 2 ^ 168 ≠ 0) →
    step s =
      .next
        { s with
          hostIn := rest
          port := { busy := false, status := ErrorName.invalidArgument.code, cmdr := o.cmdw, din := o.din, dout := [] }
          work := none
          pending := none }

/-! ### Encodings -/

/-- Words written out from R100 to R103 decode to the commands they stand for, and an illegal and a reserved one do
not decode. -/
def Obligations.WrittenOutWordsDecode : Prop :=
  decode 0xA0000001#192 = .ok (.init 0 0xA0) ∧
    decode 0x00000402#192 = .ok (.deinit true) ∧
    decode 0x00000002000001FE00000010#192 = .ok (.read 0x1FE 2) ∧
    decode 0x00000010000007F800000112#192 = .ok (.write 0x7F8 16 true false) ∧
    decode 0x00000004005A0013#192 = .ok (.writeByte 4 0x5A) ∧
    decode 0x000000041008_01FF_00000000_00000002_00123456_00000030#192 = .ok (.rawXfer 0x123456 2 0 0x1FF 8 16 4) ∧
    decode 0x06#192 = .error (.illegalCommand 0x06) ∧
    decode 0x0810#192 = .error .reservedBits

/-- Decode and encode agree on the host commands: for every command, its CMDW, as a number and as 24 bytes, decodes to
it, with every operand at every value. -/
def Obligations.DecodeOfEncodeIsTheCommand : Prop :=
  ∀ i : Instr, i.isCommand = true → i.wellFormed = true →
    ∃ w, encode i = some w ∧ decode w = .ok i ∧ (cmdBytes w).length = 24 ∧ decodeBytes (cmdBytes w) = .ok i

/-- R101, R102: a command ignores every field it does not use. Two words with the same command code whose used fields
agree decode to the same instruction; here for every field one command or another leaves unused. -/
def Obligations.UnusedFieldsAreIgnored : Prop :=
  ∀ f g : CmdFields, f.flagsRsvd = 0 → f.rsvd = 0 → g.flagsRsvd = 0 → g.rsvd = 0 → f.cmd = g.cmd →
    (f.cmd = 0x01 → f.addr = g.addr ∧ f.sel = g.sel) →
    (f.cmd = 0x02 → f.tdeinit = g.tdeinit) →
    (f.cmd = 0x10 → f.addr = g.addr ∧ f.len = g.len) →
    (f.cmd = 0x11 → f.addr = g.addr) →
    (f.cmd = 0x12 → f.addr = g.addr ∧ f.len = g.len ∧ f.wrap = g.wrap ∧ f.partialAcc = g.partialAcc) →
    (f.cmd = 0x13 → f.addr = g.addr ∧ f.value = g.value) →
    (f.cmd = 0x20 → f.addr = g.addr ∧ f.value = g.value) →
    (f.cmd = 0x21 → f.value = g.value) →
    (f.cmd = 0x30 → f.addr = g.addr ∧ f.len = g.len ∧ f.rlen = g.rlen ∧ f.opc = g.opc ∧ f.opw = g.opw ∧
      f.adw = g.adw ∧ f.dmw = g.dmw) →
    decode f.pack = decode g.pack

/-- No address bit is lost in band: on an admitted I2C geometry with SELECT[3:1] = 0, the wire decoder reads the address
and the data of I_WRITE, and the address and length of I_READ, back from the request. -/
def Obligations.I2cFramesCarryTheWholeAddress : Prop :=
  ∀ (c : WireCtx) (x : Word32),
    c.family = .i2cEe → (c.addrLen = 8 ∨ c.addrLen = 16) → (∃ k, c.size.toNat = 2 ^ k) →
    bitlength (c.size.toNat - 1) ≤ c.addrLen.toNat + 3 → c.select &&& 0x0E = 0 → x.toNat < c.size.toNat →
    (∀ d : List Byte, d ≠ [] → decodeFrame c (c.iWrite x.toNat d) = some (.iWrite x d)) ∧
    (∀ n : Word32, n ≠ 0 → decodeFrame c (c.iRead x.toNat n.toNat) = some (.iRead x n))

/-- The fold law of R175 in the form that holds: with SELECT[3:1] = 0 and a < w, bits 3:1 of sel(x) are the address bits
above the native field, and every other bit is SELECT's. With SELECT[0] = 0 as well, the low nibble is the law's. R175
itself does not mention SELECT[0] (log 10). -/
def Obligations.FoldedBitsAreTheHighAddressBits : Prop :=
  ∀ (c : WireCtx) (x : Nat),
    c.addrLen.toNat < bitlength (c.size.toNat - 1) → c.select &&& 0x0E = 0 →
    (c.sel x &&& 0x0E = BitVec.ofNat 8 ((x / 2 ^ c.addrLen.toNat * 2) &&& 15)) ∧
    (c.sel x &&& 0xF1 = c.select &&& 0xF1) ∧
    (c.select &&& 0x01 = 0 → (c.sel x).toNat &&& 15 = (x / 2 ^ c.addrLen.toNat * 2) &&& 15)

/-! ### Wire frames -/

/-- R157 to R162 with R154 to R156: the request of every SPI_NARROW frame, field by field. -/
def Obligations.NarrowFramesOnTheWire : Prop :=
  ∀ (s : State) (x n : Word32) (v : Byte),
    let o := s.cfg.narrow
    let field (a : Nat) : Word32 := BitVec.ofNat 32 (a % 2 ^ al s)
    let top (k : NarrowConst) : Nat := (k.sub.getD 0).toNat * 2 ^ (al s - 2)
    Issues (.nRead x n) s
        (spiRequest s o.read.opc o.read.opw (field x.toNat) (al s) s.cfg.narrowReadDummy.toNat [] n.toNat) ∧
      Issues (.nWrite x v) s (spiRequest s o.write.opc o.write.opw (field x.toNat) (al s) 0 [v] 0) ∧
      Issues (.nErase x) s (spiRequest s o.erase.opc o.erase.opw (field x.toNat) (al s) 0 [] 0) ∧
      Issues .nEwen s (spiRequest s o.ewen.opc o.ewen.opw (field (top o.ewen)) (al s) 0 [] 0) ∧
      Issues .nEwds s (spiRequest s o.ewds.opc o.ewds.opw (field (top o.ewds)) (al s) 0 [] 0) ∧
      Issues .nEral s (spiRequest s o.eral.opc o.eral.opw (field (top o.eral)) (al s) 0 [] 0)

/-- R164 to R172 with R154, R155, R163: the request of every SPI_NOR_SFDP frame, field by field. -/
def Obligations.NorFramesOnTheWire : Prop :=
  ∀ (s : State) (x n : Word32) (v : Byte) (d : List Byte) (y : BitVec 24),
    let o := s.cfg.nor
    let field : Word32 := BitVec.ofNat 32 (x.toNat % 2 ^ al s)
    Issues .fWren s (spiRequest s o.wren.opc o.wren.opw 0 0 0 [] 0) ∧
      Issues .fWrdi s (spiRequest s o.wrdi.opc o.wrdi.opw 0 0 0 [] 0) ∧
      Issues .fRdsr s (spiRequest s o.rdsr.opc o.rdsr.opw 0 0 0 [] 1) ∧
      Issues (.fWrsr v) s (spiRequest s o.wrsr.opc o.wrsr.opw 0 0 0 [v] 0) ∧
      Issues (.fRead x n) s
        (spiRequest s o.read.opc o.read.opw field (al s) s.cfg.norReadDummy.toNat [] n.toNat) ∧
      Issues (.fPp x d) s (spiRequest s o.pp.opc o.pp.opw field (al s) 0 d 0) ∧
      Issues .fRdid s (spiRequest s o.rdid.opc o.rdid.opw 0 0 0 [] 3) ∧
      Issues (.fRdsfdp y n) s (spiRequest s o.rdsfdpOpc 8 (BitVec.ofNat 32 y.toNat) 24 8 [] n.toNat) ∧
      Issues (.fSe4k x) s (spiRequest s (BitVec.ofNat 16 s.sfdp.erase4kOp.toNat) 8 field (al s) 0 [] 0)

/-- R150 to R153, R72: the request of the two I2C frames on the two admitted address widths. -/
def Obligations.I2cFramesOnTheWire : Prop :=
  ∀ (s : State) (x n : Word32) (d : List Byte), al s = 8 ∨ al s = 16 →
    Issues (.iWrite x d) s
        (.i2cWrite (foldedSelect s x.toNat) (inBandBytes s x.toNat ++ d) s.cfg.txnTimeoutMs) ∧
      Issues (.iRead x n) s
        (.i2cWriteRead (foldedSelect s x.toNat) (inBandBytes s x.toNat) n.toNat s.cfg.txnTimeoutMs)

/-- R306: how each answer to each kind of request is classified. -/
def Obligations.AnswersAreClassified : Prop :=
  ∀ s : State,
    (∀ d a rest, s.answers.xfer = a :: rest →
      (transport (.spiXfer d) s).1 =
        match a with
        | .ok data => if data.length = d.rlen then .okr data else .bad (BitVec.ofInt 32 (-1))
        | .err e => .bad e.code) ∧
    (∀ b w n tmo a rest, s.answers.xfer = a :: rest →
      (transport (.i2cWriteRead b w n tmo) s).1 =
        match a with
        | .ok data => if data.length = n then .okr data else .bad (BitVec.ofInt 32 (-1))
        | .err e => .bad e.code) ∧
    (∀ b w tmo a rest, s.answers.count = a :: rest →
      (transport (.i2cWrite b w tmo) s).1 =
        match a with
        | .ok n => if n = w.length then .okr [] else .bad (BitVec.ofInt 32 (-1))
        | .err e => .bad e.code) ∧
    (∀ a rest, s.answers.release = a :: rest →
      (transport .tdeinit s).1 = match a with | .ok => .okr [] | .fail => .bad (BitVec.ofInt 32 (-1))) ∧
    (∀ ms, (transport (.delay ms) s).1 = .okr []) ∧
    (∀ e : NegCode, e.code.toInt < 0 ∧ e.code.toNat % 2 ^ 31 = e.low.toNat)

/-! ### READ and READ_BYTE -/

/-- R180, R181, R182, R184: READ past its entry checks. The request is the family's read frame; the data and the count
are delivered as they came; an error leaves DOUT empty. -/
def Obligations.ReadFollowsItsRule : Prop :=
  ∀ (s : State) (hw : HwFamily) (addr len : Word32),
    ReadyOn s hw → s.port.din = [] → addr.toNat < s.handle.size.toNat →
    let req : Request :=
      match hw with
      | .i2cEe => s.wireCtx.iRead addr.toNat len.toNat
      | .spiNarrow => s.wireCtx.nRead addr.toNat len.toNat
      | .spiNorSfdp => s.wireCtx.fRead addr.toNat len.toNat
    (len = 0 →
      ∃ t, exec (.read addr len) s = .next t ∧ Finished s t 0 [] ∧ SameHandle s t ∧ t.wire = s.wire) ∧
    (s.handle.size.toNat < addr.toNat + len.toNat →
      ∃ t, exec (.read addr len) s = .next t ∧ Finished s t (BitVec.ofInt 32 (-3)) [] ∧ SameHandle s t ∧
        t.wire = s.wire) ∧
    (len ≠ 0 → addr.toNat + len.toNat ≤ s.handle.size.toNat →
      (∀ data rest, s.answers.xfer = .ok data :: rest → data.length = len.toNat →
        ∃ t v, exec (.read addr len) s = .next t ∧ Finished s t v data ∧ Reports v len.toNat ∧ SameHandle s t ∧
          t.requests = s.requests ++ [req] ∧ t.answers = { s.answers with xfer := rest }) ∧
      (∀ data rest, s.answers.xfer = .ok data :: rest → data.length ≠ len.toNat →
        ∃ t, exec (.read addr len) s = .next t ∧ Finished s t (BitVec.ofInt 32 (-1)) [] ∧ SameHandle s t ∧
          t.requests = s.requests ++ [req]) ∧
      (∀ e rest, s.answers.xfer = .err e :: rest →
        ∃ t, exec (.read addr len) s = .next t ∧ Finished s t e.code [] ∧ SameHandle s t ∧
          t.requests = s.requests ++ [req]))

/-- R183: READ_BYTE reads one byte at ADDR; on every handle, in every case, it is READ(ADDR, 1). -/
def Obligations.ReadByteReadsOneByte : Prop :=
  (∀ (s : State) (addr : Word32), exec (.readByte addr) s = exec (.read addr 1) s) ∧
  (∀ (s : State) (hw : HwFamily) (addr : Word32) (b : Byte) (rest : List XferAnswer),
    ReadyOn s hw → s.port.din = [] → addr.toNat < s.handle.size.toNat → s.answers.xfer = .ok [b] :: rest →
    ∃ t, exec (.readByte addr) s = .next t ∧ Finished s t 1 [b] ∧ SameHandle s t ∧
      t.requests =
        s.requests ++
          [match hw with
            | .i2cEe => s.wireCtx.iRead addr.toNat 1
            | .spiNarrow => s.wireCtx.nRead addr.toNat 1
            | .spiNorSfdp => s.wireCtx.fRead addr.toNat 1])

/-! ### WRITE and WRITE_BYTE -/

/-- R190: the chunks of a write start where it starts, follow one another, carry its data in order, are not empty, have
length min(P − (cur mod P), rem), never cross a page boundary, and start on a page boundary after the first. -/
def Obligations.ChunksNeverCrossAPage : Prop :=
  ∀ (p x : Nat) (d : List Byte), 0 < p →
    (chunksOf p x d).flatMap Prod.snd = d ∧
    (∀ i, ∀ k ∈ (chunksOf p x d)[i]?,
      k.2 ≠ [] ∧ k.2.length ≤ p ∧ k.1 / p = (k.1 + k.2.length - 1) / p ∧
        k.1 = x + chunkBytes ((chunksOf p x d).take i) ∧ k.2.length = min (p - k.1 % p) (d.length - (k.1 - x)) ∧
        (0 < i → k.1 % p = 0))

/-- R197: the number of chunks of a write of n ≥ 1 bytes is 1 + ceil((n − k0) / P), and as many W_DELAY requests go with
them. -/
def Obligations.ChunkCountLaw : Prop :=
  ∀ (p x : Nat) (d : List Byte), 0 < p → d ≠ [] →
    let n := 1 + (d.length - min (p - x % p) d.length + p - 1) / p
    (chunksOf p x d).length = n ∧
      ∀ (c : WireCtx) (hw : HwFamily) (ms : Word32), (chunkRequests c hw ms (chunksOf p x d)).count (.delay ms) = n

/-- R185, R189, R190, R193, R195: a WRITE without wrap whose answers all succeed sends the bytes up to SIZE in chunks, a
delay after each, and reports their number; the tail past SIZE is dropped without an error. -/
def Obligations.WriteWithoutWrapSendsItsChunks : Prop :=
  ∀ (s : State) (hw : HwFamily) (addr len : Word32) (partialAcc : Bool) (a : Answers),
    ReadyOn s hw → s.port.din.length = len.toNat → addr.toNat < s.handle.size.toNat → 0 < effectivePage s hw →
    let d := s.port.din.take (s.handle.size.toNat - addr.toNat)
    let reqs := chunkRequests s.wireCtx hw s.handle.writeDelayMs (chunksOf (effectivePage s hw) addr.toNat d)
    s.answers.success reqs = some a →
    ∃ t v, Completes (.write addr len false partialAcc) s t ∧ Finished s t v s.port.dout ∧ Reports v d.length ∧
      SameHandle s t ∧ t.requests = s.requests ++ reqs ∧ t.answers = a

/-- R188, R195, R198: a WRITE with wrap whose answers all succeed sends the bytes up to SIZE at ADDR, then the rest from
0, again from 0 if they go past SIZE once more, and reports LEN. With an overflow of at most SIZE there are two
sub-writes; without one there is one. -/
def Obligations.WrappedWriteSendsItsSubWrites : Prop :=
  ∀ (s : State) (hw : HwFamily) (addr len : Word32) (partialAcc : Bool),
    ReadyOn s hw → s.port.din.length = len.toNat → addr.toNat < s.handle.size.toNat → 0 < effectivePage s hw →
    let split := s.handle.size.toNat - addr.toNat
    let w := subWrites s.handle.size.toNat addr.toNat s.port.din
    (∀ a, s.answers.success (subWriteRequests s hw w) = some a →
      ∃ t v, Completes (.write addr len true partialAcc) s t ∧ Finished s t v s.port.dout ∧ Reports v len.toNat ∧
        SameHandle s t ∧ t.requests = s.requests ++ subWriteRequests s hw w ∧ t.answers = a) ∧
    w.flatMap Prod.snd = s.port.din ∧
    (addr.toNat + len.toNat ≤ s.handle.size.toNat → w = [(addr.toNat, s.port.din)]) ∧
    (s.handle.size.toNat < addr.toNat + len.toNat → addr.toNat + len.toNat ≤ 2 * s.handle.size.toNat →
      w = [(addr.toNat, s.port.din.take split), (0, s.port.din.drop split)])

/-- R194: when a chunk of a WRITE without wrap fails, nothing more is issued; STATUS is the error code, or with PARTIAL
the bytes of the chunks before it. -/
def Obligations.FailedChunkEndsTheWrite : Prop :=
  ∀ (s : State) (hw : HwFamily) (addr len : Word32) (partialAcc : Bool) (before after : List (Nat × List Byte))
    (cur : Nat) (c : List Byte) (a : Answers) (code : Word32) (sent : List Request),
    ReadyOn s hw → s.port.din.length = len.toNat → addr.toNat < s.handle.size.toNat → 0 < effectivePage s hw →
    chunksOf (effectivePage s hw) addr.toNat (s.port.din.take (s.handle.size.toNat - addr.toNat)) =
      before ++ (cur, c) :: after →
    s.answers.success (chunkRequests s.wireCtx hw s.handle.writeDelayMs before) = some a →
    ModifyFails s.wireCtx hw (s.wireCtx.chunkFrame hw cur c) a code sent →
    ∃ t v, Completes (.write addr len false partialAcc) s t ∧ Finished s t v s.port.dout ∧
      (if partialAcc then Reports v (chunkBytes before) else v = code) ∧ SameHandle s t ∧
      t.requests = s.requests ++ chunkRequests s.wireCtx hw s.handle.writeDelayMs before ++ sent

/-- R188, R194: when a chunk of one of the sub-writes of a WRITE with wrap fails, nothing more is issued; PARTIAL reports
that sub-write's own count, not the sum. -/
def Obligations.FailedSubWriteReportsItsOwnCount : Prop :=
  ∀ (s : State) (hw : HwFamily) (addr len : Word32) (earlier later : List (Nat × List Byte)) (x : Nat) (d : List Byte)
    (before after : List (Nat × List Byte)) (cur : Nat) (c : List Byte) (a : Answers) (code : Word32)
    (sent : List Request),
    ReadyOn s hw → s.port.din.length = len.toNat → addr.toNat < s.handle.size.toNat → 0 < effectivePage s hw →
    subWrites s.handle.size.toNat addr.toNat s.port.din = earlier ++ (x, d) :: later →
    chunksOf (effectivePage s hw) x d = before ++ (cur, c) :: after →
    let reqs := subWriteRequests s hw earlier ++ chunkRequests s.wireCtx hw s.handle.writeDelayMs before
    s.answers.success reqs = some a →
    ModifyFails s.wireCtx hw (s.wireCtx.chunkFrame hw cur c) a code sent →
    (∃ t v, Completes (.write addr len true true) s t ∧ Finished s t v s.port.dout ∧
      Reports v (chunkBytes before) ∧ SameHandle s t ∧ t.requests = s.requests ++ reqs ++ sent) ∧
    (∃ t, Completes (.write addr len true false) s t ∧ Finished s t code s.port.dout ∧ SameHandle s t ∧
      t.requests = s.requests ++ reqs ++ sent)

/-- R199: a WRITE with LEN = 0 that passes the entry checks issues nothing and reports 0; they still ask ADDR < SIZE. -/
def Obligations.EmptyWriteSendsNothing : Prop :=
  ∀ (s : State) (hw : HwFamily) (addr : Word32) (wrap partialAcc : Bool),
    ReadyOn s hw → s.port.din = [] →
    (addr.toNat < s.handle.size.toNat →
      exec (.write addr 0 wrap partialAcc) s =
        .next { s with port := { s.port with busy := false, status := 0 }, work := none, pending := none }) ∧
    (s.handle.size.toNat ≤ addr.toNat → RefusedWith (.write addr 0 wrap partialAcc) s .invalidArgument)

/-- R196: WRITE_BYTE sends one frame with its byte, after a write-enable on the SPI families, then one delay, and
reports 1; a failing answer's code is STATUS. -/
def Obligations.WriteByteSendsOneByte : Prop :=
  ∀ (s : State) (hw : HwFamily) (addr : Word32) (value : Byte),
    ReadyOn s hw → s.port.din = [] → addr.toNat < s.handle.size.toNat → 0 < effectivePage s hw →
    let frame : Request :=
      match hw with
      | .i2cEe => s.wireCtx.iWrite addr.toNat [value]
      | .spiNarrow => s.wireCtx.nWrite addr.toNat value
      | .spiNorSfdp => s.wireCtx.fPp addr.toNat [value]
    let reqs := modifyRequests s.wireCtx hw frame s.handle.writeDelayMs
    (∀ a, s.answers.success reqs = some a →
      ∃ t, Completes (.writeByte addr value) s t ∧ Finished s t 1 s.port.dout ∧ SameHandle s t ∧
        t.requests = s.requests ++ reqs ∧ t.answers = a) ∧
    (∀ code sent, ModifyFails s.wireCtx hw frame s.answers code sent →
      ∃ t, Completes (.writeByte addr value) s t ∧ Finished s t code s.port.dout ∧ SameHandle s t ∧
        t.requests = s.requests ++ sent)

/-- R185 "Registers written: STATUS only", R196: whatever the answers, in every state they come to, WRITE and WRITE_BYTE
have changed no handle or SFDP register, not DOUT, CMDR or DIN, and taken back nothing already on the wire; STATUS and
BUSY change when they finish. -/
def Obligations.WritesChangeOnlyStatus : Prop :=
  ∀ (s t : State) (addr len : Word32) (wrap partialAcc : Bool) (value : Byte),
    (Reaches (.write addr len wrap partialAcc) s t ∨ Reaches (.writeByte addr value) s t) →
    ((∃ v, Finished s t v s.port.dout) ∨
      t.pending ≠ none ∧ t.port = s.port ∧ t.cfg = s.cfg ∧ t.hostIn = s.hostIn) ∧
    SameHandle s t ∧ s.wire <+: t.wire

/-! ### ERASE_PAGE and ERASE -/

/-- R220, R223: on I2C_EE and SPI_NOR_SFDP, ERASE_PAGE sends one chunk of PAGE_SIZE copies of VALUE at the page's
address and one delay; PROGRESS 1, STATUS 0. -/
def Obligations.ErasePageFillsThePage : Prop :=
  ∀ (s : State) (hw : HwFamily) (page : Word32) (value : Byte) (a : Answers),
    ReadyOn s hw → hw ≠ .spiNarrow → s.port.din = [] → s.handle.pageSize ≠ 0 →
    page.toNat < s.handle.size.toNat / s.handle.pageSize.toNat →
    let p := s.handle.pageSize.toNat
    let reqs :=
      modifyRequests s.wireCtx hw (s.wireCtx.chunkFrame hw (page.toNat * p) (List.replicate p value))
        s.handle.writeDelayMs
    s.answers.success reqs = some a →
    ∃ t, Completes (.erasePage page value) s t ∧ Finished s t 0 s.port.dout ∧
      t.handle = { s.handle with progress := 1 } ∧ t.sfdp = s.sfdp ∧ t.requests = s.requests ++ reqs ∧ t.answers = a

/-- R220, R222: on SPI_NARROW, ERASE_PAGE sends one modifying frame per byte of the page: erase-one when VALUE is 0xFF,
a byte write otherwise. -/
def Obligations.NarrowErasePageGoesByteByByte : Prop :=
  ∀ (s : State) (page : Word32) (value : Byte) (a : Answers),
    ReadyOn s .spiNarrow → s.port.din = [] → s.handle.pageSize ≠ 0 →
    page.toNat < s.handle.size.toNat / s.handle.pageSize.toNat →
    let p := s.handle.pageSize.toNat
    let frame (x : Nat) : Request := if value = 0xFF then s.wireCtx.nErase x else s.wireCtx.nWrite x value
    let reqs :=
      (List.range p).flatMap fun i =>
        modifyRequests s.wireCtx .spiNarrow (frame (page.toNat * p + i)) s.handle.writeDelayMs
    s.answers.success reqs = some a →
    ∃ t, Completes (.erasePage page value) s t ∧ Finished s t 0 s.port.dout ∧
      t.handle = { s.handle with progress := 1 } ∧ t.sfdp = s.sfdp ∧ t.requests = s.requests ++ reqs ∧ t.answers = a

/-- R221: a page index at or past SIZE div PAGE_SIZE fails with InvalidArgument before any request, PROGRESS unchanged.
With PAGE_SIZE 0 there is no page. -/
def Obligations.PageIndexIsChecked : Prop :=
  ∀ (s : State) (hw : HwFamily) (page : Word32) (value : Byte),
    ReadyOn s hw → s.port.din = [] →
    (s.handle.pageSize = 0 ∨ s.handle.size.toNat < (page.toNat + 1) * s.handle.pageSize.toNat) →
    RefusedWith (.erasePage page value) s .invalidArgument

/-- R220: an ERASE_PAGE one of whose modifying frames fails leaves PROGRESS 0, STATUS the code, and issues nothing
more. -/
def Obligations.FailedErasePageLeavesProgressZero : Prop :=
  ∀ (s : State) (hw : HwFamily) (page : Word32) (value : Byte) (before after : List Request) (f : Request)
    (a : Answers) (code : Word32) (sent : List Request),
    ReadyOn s hw → s.port.din = [] → s.handle.pageSize ≠ 0 →
    page.toNat < s.handle.size.toNat / s.handle.pageSize.toNat →
    pageFrames s hw page.toNat value = before ++ f :: after →
    let reqs := before.flatMap fun g => modifyRequests s.wireCtx hw g s.handle.writeDelayMs
    s.answers.success reqs = some a →
    ModifyFails s.wireCtx hw f a code sent →
    ∃ t, Completes (.erasePage page value) s t ∧ Finished s t code s.port.dout ∧
      t.handle = { s.handle with progress := 0 } ∧ t.sfdp = s.sfdp ∧ t.requests = s.requests ++ reqs ++ sent

/-- R226: on SPI_NARROW, ERASE 0xFF sends one write-enable and one erase-all, never the byte loop. That the delay is the
variant's WRITE_DELAY_MS where P_NARROW_ERAL_DELAY_MS is not given is the model's reading of R7 (log 15). -/
def Obligations.NarrowEraseAllIsOneFrame : Prop :=
  ∀ (s : State) (a : Answers), ReadyOn s .spiNarrow → s.port.din = [] →
    let reqs :=
      modifyRequests s.wireCtx .spiNarrow s.wireCtx.nEral (s.cfg.narrowEralDelayMs.getD s.handle.writeDelayMs)
    s.answers.success reqs = some a →
    ∃ t, Completes (.erase 0xFF) s t ∧ Finished s t 0 s.port.dout ∧
      t.handle = { s.handle with progress := 1 } ∧ t.sfdp = s.sfdp ∧ t.requests = s.requests ++ reqs ∧ t.answers = a

/-- R226: on SPI_NARROW, ERASE of any other value writes every byte from 0 to SIZE − 1; PROGRESS is SIZE. -/
def Obligations.NarrowEraseWritesEveryByte : Prop :=
  ∀ (s : State) (value : Byte) (a : Answers), ReadyOn s .spiNarrow → s.port.din = [] → value ≠ 0xFF →
    let reqs :=
      (List.range s.handle.size.toNat).flatMap fun x =>
        modifyRequests s.wireCtx .spiNarrow (s.wireCtx.nWrite x value) s.handle.writeDelayMs
    s.answers.success reqs = some a →
    ∃ t, Completes (.erase value) s t ∧ Finished s t 0 s.port.dout ∧
      t.handle = { s.handle with progress := s.handle.size } ∧ t.sfdp = s.sfdp ∧
      t.requests = s.requests ++ reqs ∧ t.answers = a

/-- R227, R230: ERASE fills page by page on I2C_EE, and on SPI_NOR_SFDP when VALUE is not 0xFF or no sector erase was
discovered; PROGRESS is the number of pages. -/
def Obligations.EraseFillsPageByPage : Prop :=
  ∀ (s : State) (hw : HwFamily) (value : Byte) (a : Answers),
    ReadyOn s hw → s.port.din = [] → s.handle.pageSize ≠ 0 →
    (hw = .i2cEe ∨ hw = .spiNorSfdp ∧ s.sfdp.state = .parsed ∧ (s.sfdp.erase4kOp = 0 ∨ value ≠ 0xFF)) →
    let p := s.handle.pageSize.toNat
    let np := s.handle.size.toNat / p
    let reqs :=
      (List.range np).flatMap fun i =>
        modifyRequests s.wireCtx hw (s.wireCtx.chunkFrame hw (i * p) (List.replicate p value)) s.handle.writeDelayMs
    s.answers.success reqs = some a →
    ∃ t, Completes (.erase value) s t ∧ Finished s t 0 s.port.dout ∧
      t.handle = { s.handle with progress := BitVec.ofNat 32 np } ∧ t.sfdp = s.sfdp ∧
      t.requests = s.requests ++ reqs ∧ t.answers = a

/-- R229: with a discovered sector erase, ERASE 0xFF on SPI_NOR_SFDP sends ceil(SIZE / 4096) sector erases at multiples
of 4096; PROGRESS is their number. -/
def Obligations.EraseUsesSectorErases : Prop :=
  ∀ (s : State) (a : Answers),
    ReadyOn s .spiNorSfdp → s.port.din = [] → s.sfdp.state = .parsed → s.sfdp.erase4kOp ≠ 0 →
    let n := (s.handle.size.toNat + 4095) / 4096
    let reqs :=
      (List.range n).flatMap fun i =>
        modifyRequests s.wireCtx .spiNorSfdp (s.wireCtx.fSe4k (4096 * i)) s.cfg.norSectorDelayMs
    s.answers.success reqs = some a →
    ∃ t, Completes (.erase 0xFF) s t ∧ Finished s t 0 s.port.dout ∧
      t.handle = { s.handle with progress := BitVec.ofNat 32 n } ∧ t.sfdp = s.sfdp ∧
      t.requests = s.requests ++ reqs ∧ t.answers = a

/-- R231: when a unit of an ERASE fails, a page, a sector, a byte or the erase-all, STATUS is its code, PROGRESS is the
number of units before it, and nothing more is issued. -/
def Obligations.FailedUnitStopsTheErase : Prop :=
  ∀ (s : State) (hw : HwFamily) (value : Byte) (before after : List (Request × Word32)) (f : Request) (ms : Word32)
    (a : Answers) (code : Word32) (sent : List Request),
    ReadyOn s hw → s.port.din = [] → (hw = .spiNorSfdp → s.sfdp.state = .parsed) →
    eraseUnits s hw value = before ++ (f, ms) :: after →
    let reqs := before.flatMap fun u => modifyRequests s.wireCtx hw u.1 u.2
    s.answers.success reqs = some a →
    ModifyFails s.wireCtx hw f a code sent →
    ∃ t, Completes (.erase value) s t ∧ Finished s t code s.port.dout ∧
      t.handle = { s.handle with progress := BitVec.ofNat 32 before.length } ∧ t.sfdp = s.sfdp ∧
      t.requests = s.requests ++ reqs ++ sent

/-- R224 check 6 with C10: an ERASE whose SIZE is no power of two, with no discovery to run, writes nothing but STATUS;
PROGRESS stays. -/
def Obligations.EraseChecksTheSize : Prop :=
  ∀ (s : State) (value : Byte), s.port.din = [] → s.handle.hstate = .ready →
    (s.handle.family = .i2cEe ∨ s.handle.family = .spiNarrow ∨
      s.handle.family = .spiNorSfdp ∧ s.sfdp.state = .parsed) →
    (∀ k, s.handle.size.toNat ≠ 2 ^ k) → RefusedWith (.erase value) s .invalidArgument

/-- R224, R228: an ERASE that has to discover first runs discovery; if that fails it ends as DISCOVER does, with no
erase request; if it succeeds, the erase goes on as from the state DISCOVER leaves. -/
def Obligations.EraseDiscoversFirst : Prop :=
  ∀ (s d : State) (value : Byte),
    s.port.din = [] → s.handle.hstate = .bound → s.handle.family = .spiNorSfdp → s.sfdp.state ≠ .parsed →
    Completes .discover s d →
    (d.port.status ≠ 0 → Completes (.erase value) s d) ∧
    (d.port.status = 0 →
      ∃ t, Completes (.erase value) s t ∧
        Completes (.erase value)
          { d with port := { d.port with busy := s.port.busy, status := s.port.status } } t)

/-- R88, R231, R304: whatever the answers, in every state they come to, ERASE_PAGE, and ERASE without a discovery, have
changed no register but PROGRESS and taken back nothing on the wire; STATUS and BUSY change when they finish. -/
def Obligations.ErasesChangeOnlyProgressAndStatus : Prop :=
  ∀ (s t : State) (page : Word32) (value : Byte),
    (Reaches (.erasePage page value) s t ∨
      s.handle.family ≠ .spiNorSfdp ∧ Reaches (.erase value) s t ∨
      s.sfdp.state = .parsed ∧ Reaches (.erase value) s t) →
    ((∃ v, Finished s t v s.port.dout) ∨
      t.pending ≠ none ∧ t.port = s.port ∧ t.cfg = s.cfg ∧ t.hostIn = s.hostIn) ∧
    t.handle = { s.handle with progress := t.handle.progress } ∧ t.sfdp = s.sfdp ∧ s.wire <+: t.wire

/-! ### SFDP -/

/-- R241 to R262: a discovery whose two reads succeed and whose bytes pass every check writes every SFDP register and the
geometry from the bytes at their places, and makes the handle READY. -/
def Obligations.DiscoverDecodesTheTable : Prop :=
  ∀ (s : State) (h0 h1 h2 h3 h4 h5 h6 h7 h8 h9 h10 h11 h12 h13 h14 t0 t1 t2 t3 t4 t5 t6 t7 : Byte) (tail : List Byte)
    (rest : List XferAnswer) (ab : Byte) (bytes : Word32),
    s.port.din = [] → s.handle.hstate ≠ .uninit → s.handle.family = .spiNorSfdp →
    h0 = 0x53 ∧ h1 = 0x46 ∧ h2 = 0x44 ∧ h3 = 0x50 → h7 = 0xFF → 2 ≤ h11.toNat →
    tail.length + 8 = 4 * h11.toNat →
    t0.toNat / 32 = 7 → t2.toNat / 128 = 1 → t3 = 0xFF →
    (t2.toNat / 2 % 4 = 0 ∧ ab = 3 ∨ t2.toNat / 2 % 4 = 1 ∧ ab = 3 ∨ t2.toNat / 2 % 4 = 2 ∧ ab = 4 ∨
      t2.toNat / 2 % 4 = 3 ∧ s.cfg.addrBytesRsvd = .four ∧ ab = 4) →
    densityBytes s.cfg.densityRule (t4.toNat + 256 * t5.toNat + 65536 * t6.toNat + 16777216 * t7.toNat) = some bytes →
    s.answers.xfer =
      .ok [h0, h1, h2, h3, h4, h5, h6, h7, h8, h9, h10, h11, h12, h13, h14] ::
        .ok ([t0, t1, t2, t3, t4, t5, t6, t7] ++ tail) :: rest →
    let gran : Byte := if t0.toNat / 4 % 2 = 1 then 64 else 1
    let pp := h12.toNat + 256 * h13.toNat + 65536 * h14.toNat
    ∃ t, Completes .discover s t ∧ Finished s t 0 s.port.dout ∧
      t.sfdp =
        { state := .parsed, hdrVer := BitVec.ofNat 16 (h5.toNat * 256 + h4.toNat), hdrCount := h6
          ptVer := BitVec.ofNat 16 (h10.toNat * 256 + h9.toNat), ptSize := BitVec.ofNat 16 (4 * h11.toNat)
          ptPtr := BitVec.ofNat 24 pp, writeGran := gran
          erase4kOp := if t0.toNat % 4 = 3 then 0 else t1
          addrBytes := ab, dtr := decide (t2.toNat / 8 % 2 = 1), arraySize := bytes
          hdrBuf := [h0, h1, h2, h3, h4, h5, h6, h7, h8, h9, h10, h11, h12, h13, h14]
          ptBuf := [t0, t1, t2, t3, t4, t5, t6, t7] } ∧
      t.handle =
        { s.handle with
          hstate := .ready, size := bytes, addrLen := BitVec.ofNat 8 (8 * ab.toNat)
          pageSize := BitVec.ofNat 32 gran.toNat, writeDelayMs := s.cfg.norPageDelayMs } ∧
      t.requests =
        s.requests ++
          [spiRequest s s.cfg.nor.rdsfdpOpc 8 0 24 8 [] 15,
            spiRequest s s.cfg.nor.rdsfdpOpc 8 (BitVec.ofNat 32 pp) 24 8 [] (4 * h11.toNat)]

/-- R263, R264, R267: whatever the answers, a DISCOVER that goes past its entry checks ends PARSED, READY with STATUS 0,
or FAILED, BOUND with every parameter and geometry register kept; it issues one or two SFDP reads. -/
def Obligations.DiscoverEndsParsedOrFailed : Prop :=
  ∀ s : State, s.port.din = [] → s.handle.hstate ≠ .uninit → s.handle.family = .spiNorSfdp →
    ∃ t v, Completes .discover s t ∧ Finished s t v s.port.dout ∧
      (t.sfdp.state = .parsed ∧ t.handle.hstate = .ready ∧ v = 0 ∨
        KeptByFailedDiscovery s t ∧ v.toInt < 0) ∧
      (∃ r, r.length ≤ 1 ∧
        t.requests = s.requests ++ spiRequest s s.cfg.nor.rdsfdpOpc 8 0 24 8 [] 15 :: r)

/-- R244, R245, R246, R248, R267 (a), (b): the header checks and their codes, in order. A header that fails ends the
discovery in the step of its one request. -/
def Obligations.BadHeadersFailDiscovery : Prop :=
  ∀ (s : State) (h : List Byte) (rest : List XferAnswer),
    s.port.din = [] → s.handle.hstate ≠ .uninit → s.handle.family = .spiNorSfdp → h.length = 15 →
    s.answers.xfer = .ok h :: rest → ¬ HeaderOk h →
    let code : Word32 :=
      if h.take 4 ≠ [0x53, 0x46, 0x44, 0x50] then BitVec.ofInt 32 (-5) else BitVec.ofInt 32 (-6)
    ∃ t, exec .discover s = .next t ∧ Finished s t code s.port.dout ∧ KeptByFailedDiscovery s t ∧
      t.sfdp.hdrBuf = h ∧ t.sfdp.ptBuf = s.sfdp.ptBuf ∧
      t.requests = s.requests ++ [spiRequest s s.cfg.nor.rdsfdpOpc 8 0 24 8 [] 15]

/-- R252 to R254, R256, R260: past a good header, a table that breaks one of the checks ends the discovery with
SfdpInvalidHeader, and one that breaks none is accepted. -/
def Obligations.TableChecks : Prop :=
  ∀ (s : State) (h : List Byte) (n t0 t1 t2 t3 t4 t5 t6 t7 : Byte) (tail : List Byte) (rest : List XferAnswer),
    s.port.din = [] → s.handle.hstate ≠ .uninit → s.handle.family = .spiNorSfdp →
    h.length = 15 → HeaderOk h → h[11]? = some n → tail.length + 8 = 4 * n.toNat →
    s.answers.xfer = .ok h :: .ok ([t0, t1, t2, t3, t4, t5, t6, t7] ++ tail) :: rest →
    let ok :=
      t0.toNat / 32 = 7 ∧ t2.toNat / 128 = 1 ∧ t3 = 0xFF ∧
        (t2.toNat / 2 % 4 ≠ 3 ∨ s.cfg.addrBytesRsvd = .four) ∧
        densityBytes s.cfg.densityRule
          (t4.toNat + 256 * t5.toNat + 65536 * t6.toNat + 16777216 * t7.toNat) ≠ none
    ∃ t v, Completes .discover s t ∧ Finished s t v s.port.dout ∧ t.sfdp.hdrBuf = h ∧
      t.sfdp.ptBuf = [t0, t1, t2, t3, t4, t5, t6, t7] ∧
      (ok → v = 0 ∧ t.sfdp.state = .parsed ∧ t.handle.hstate = .ready) ∧
      (¬ ok → v = BitVec.ofInt 32 (-6) ∧ KeptByFailedDiscovery s t)

/-- R259, R260: the density word under both rules, and the sizes that do not fit 32 bits. -/
def Obligations.DensityRules : Prop :=
  ∀ (w : Nat), w < 2 ^ 32 →
    let e := w % 2 ^ 31
    let bits : DensityRule → Nat
      | .doc => if w < 2 ^ 31 then e else 2 ^ (e + 1)
      | .jedec => if w < 2 ^ 31 then e + 1 else 2 ^ e
    ∀ r, densityBytes r w = if bits r / 8 < 2 ^ 32 then some (BitVec.ofNat 32 (bits r / 8)) else none

/-! ### The handle -/

/-- R280, R281, R142: INIT of an I2C_EE, SPI_NARROW or stub entry issues no request and leaves the handle READY with the
entry's geometry (where 32 bits do not hold the entry's, SIZE is left open, and so is which legal value of R32, 0 or a
power of two, PAGE_SIZE has, log 22). INIT of an SFDP entry issues the header read
first and at most one more request; its discovery is DISCOVER's, from the handle just bound: a success leaves what DISCOVER
leaves, a failure the reset handle with DISCOVER's code. -/
def Obligations.InitBindsTheEntry : Prop :=
  ∀ (s : State) (v : Word32) (sel : Byte) (e : Entry),
    s.port.din = [] → s.handle.hstate = .uninit → s.cfg.registry[v.toNat]? = some e →
    let bound (hstate : HState) (family : Family) (iface : Iface) (size : Word32) (addrLen : Byte)
        (pageSize delay : Word32) : Handle :=
      { hstate := hstate, family := family, iface := iface, variant := v, size := size, addrLen := addrLen
        pageSize := pageSize, writeDelayMs := delay, select := sel, wp := false, progress := 0 }
    let becomes (h : Handle) : Prop :=
      ∃ t, exec (.init v sel) s = .next t ∧ Finished s t 0 s.port.dout ∧ t.handle = h ∧ t.sfdp = s.sfdp ∧
        t.wire = s.wire
    let becomesHw (family : Family) (iface : Iface) (g : Geometry) : Prop :=
      ∃ size pageSize : Word32, (g.size < 2 ^ 32 → size = BitVec.ofNat 32 g.size) ∧
        (g.pageSize < 2 ^ 32 → pageSize = BitVec.ofNat 32 g.pageSize) ∧
        (2 ^ 32 ≤ g.pageSize → pageSize = 0 ∨ ∃ k, pageSize.toNat = 2 ^ k) ∧
        becomes
          (bound .ready family iface size (BitVec.ofNat 8 g.addrLen) pageSize (BitVec.ofNat 32 g.writeDelayMs))
    match e with
    | .hwI2cEe g => becomesHw .i2cEe .i2c g
    | .hwSpiNarrow g => becomesHw .spiNarrow .spi g
    | .stub0 => becomes (bound .ready .stub0 s.cfg.stubIface0 0 0 0 0)
    | .stub1 => becomes (bound .ready .stub1 s.cfg.stubIface1 0 0 0 0)
    | .sentinel => RefusedWith (.init v sel) s .invalidArgument
    | .sfdp =>
      ∃ d t, Completes .discover { s with handle := bound .bound .spiNorSfdp .spi 0 0 0 0 } d ∧
        Completes (.init v sel) s t ∧ Finished s t d.port.status s.port.dout ∧
        t = (if d.port.status = 0 then d else { d with handle := .reset, sfdp := .reset }) ∧
        (d.port.status = 0 ∧ t.sfdp.state = .parsed ∧
            t.handle =
              bound .ready .spiNorSfdp .spi t.sfdp.arraySize (8 * t.sfdp.addrBytes) (t.sfdp.writeGran.setWidth 32)
                s.cfg.norPageDelayMs ∨
          d.port.status.toInt < 0 ∧ t.handle = .reset ∧ t.sfdp = .reset) ∧
        ∃ r, r.length ≤ 1 ∧ t.requests = s.requests ++ spiRequest s s.cfg.nor.rdsfdpOpc 8 0 24 8 [] 15 :: r

/-- R141, R283: INIT of an identifier past the registry, and INIT on a handle that is not UNINIT, fail with
InvalidArgument and write nothing but STATUS. -/
def Obligations.InitRefusals : Prop :=
  ∀ (s : State) (v : Word32) (sel : Byte), s.port.din = [] →
    (s.handle.hstate ≠ .uninit ∨ s.cfg.registry.length ≤ v.toNat) → RefusedWith (.init v sel) s .invalidArgument

/-- R284, R285: DEINIT on a handle that is not UNINIT resets every handle and SFDP register, with or without the
transport's release and whatever it answers; a FAIL is STATUS. -/
def Obligations.DeinitResetsTheHandle : Prop :=
  ∀ s : State, s.port.din = [] → s.handle.hstate ≠ .uninit →
    (∃ t, exec (.deinit false) s = .next t ∧ Finished s t 0 s.port.dout ∧ t.handle = .reset ∧ t.sfdp = .reset ∧
      t.wire = s.wire) ∧
    (∀ a rest, s.answers.release = a :: rest →
      ∃ t, exec (.deinit true) s = .next t ∧
        Finished s t (match a with | .ok => 0 | .fail => BitVec.ofInt 32 (-1)) s.port.dout ∧
        t.handle = .reset ∧ t.sfdp = .reset ∧ t.requests = s.requests ++ [.tdeinit])

/-- R286, R287: GET_INFO returns the 32-byte record of the handle registers and changes none. -/
def Obligations.GetInfoReturnsTheRecord : Prop :=
  ∀ s : State, s.port.din = [] → s.handle.hstate ≠ .uninit →
    ∃ t r, exec .getInfo s = .next t ∧ Finished s t 0 r ∧ SameHandle s t ∧ t.wire = s.wire ∧ r.length = 32 ∧
      r[0]? = some (BitVec.ofNat 8 (familyCode s.handle.family)) ∧ r[1]? = some (BitVec.ofNat 8 (ifaceCode s.handle.iface)) ∧
      r[2]? = some (BitVec.ofNat 8 (hstateCode s.handle.hstate)) ∧ r[3]? = some (BitVec.ofNat 8 (sfdpStateCode s.sfdp.state)) ∧
      leNat ((r.drop 4).take 4) = s.handle.variant.toNat ∧ leNat ((r.drop 8).take 4) = s.handle.size.toNat ∧
      leNat ((r.drop 12).take 4) = s.handle.pageSize.toNat ∧ r[16]? = some s.handle.addrLen ∧
      r[17]? = some s.handle.select ∧ r[18]? = some (if s.handle.wp then 1 else 0) ∧ r[19]? = some 0 ∧
      leNat ((r.drop 20).take 4) = s.handle.writeDelayMs.toNat ∧
      leNat ((r.drop 24).take 4) =
        (if s.handle.pageSize = 0 then 0 else s.handle.size.toNat / s.handle.pageSize.toNat) ∧
      leNat ((r.drop 28).take 4) = s.handle.progress.toNat

/-- R288, R289: GET_SFDP returns the 24-byte record of the SFDP registers and changes none. -/
def Obligations.GetSfdpReturnsTheRecord : Prop :=
  ∀ s : State, s.port.din = [] → s.handle.hstate = .ready → s.handle.family = .spiNorSfdp → s.sfdp.state = .parsed →
    ∃ t r, exec .getSfdp s = .next t ∧ Finished s t 0 r ∧ SameHandle s t ∧ t.wire = s.wire ∧ r.length = 24 ∧
      leNat (r.take 2) = s.sfdp.hdrVer.toNat ∧ r[2]? = some s.sfdp.hdrCount ∧ r[3]? = some s.sfdp.erase4kOp ∧
      leNat ((r.drop 4).take 2) = s.sfdp.ptVer.toNat ∧ r[6]? = some s.sfdp.addrBytes ∧
      r[7]? = some (if s.sfdp.dtr then 1 else 0) ∧ leNat ((r.drop 8).take 4) = s.sfdp.ptSize.toNat ∧
      leNat ((r.drop 12).take 4) = s.sfdp.ptPtr.toNat ∧ leNat ((r.drop 16).take 4) = s.sfdp.arraySize.toNat ∧
      leNat ((r.drop 20).take 4) = s.sfdp.writeGran.toNat

/-- R290: RAW_XFER sends the host's own request on any READY handle; the answer's data go to DOUT, STATUS is 0, and an
error leaves DOUT empty. On I2C, SELECT is not folded. -/
def Obligations.RawXferSendsTheHostsRequest : Prop :=
  ∀ (s : State) (addr len rlen : Word32) (opc : BitVec 16) (opw adw dmw : Byte),
    s.port.din.length = len.toNat → s.handle.hstate = .ready →
    let i := Instr.rawXfer addr len rlen opc opw adw dmw
    (s.handle.iface = .spi → opw.toNat ≤ 16 → adw.toNat ≤ 32 → ∀ a rest, s.answers.xfer = a :: rest →
      ∃ t, exec i s = .next t ∧ SameHandle s t ∧
        t.requests =
          s.requests ++
            [spiRequest s (BitVec.ofNat 16 (opc.toNat % 2 ^ opw.toNat)) opw.toNat
              (BitVec.ofNat 32 (addr.toNat % 2 ^ adw.toNat)) adw.toNat dmw.toNat s.port.din rlen.toNat] ∧
        match a with
        | .ok data =>
          if data.length = rlen.toNat then Finished s t 0 data else Finished s t (BitVec.ofInt 32 (-1)) []
        | .err e => Finished s t e.code []) ∧
    (s.handle.iface = .i2c → rlen ≠ 0 → ∀ a rest, s.answers.xfer = a :: rest →
      ∃ t, exec i s = .next t ∧ SameHandle s t ∧
        t.requests =
          s.requests ++ [.i2cWriteRead s.handle.select s.port.din rlen.toNat s.cfg.txnTimeoutMs] ∧
        match a with
        | .ok data =>
          if data.length = rlen.toNat then Finished s t 0 data else Finished s t (BitVec.ofInt 32 (-1)) []
        | .err e => Finished s t e.code []) ∧
    (s.handle.iface = .i2c → rlen = 0 → ∀ a rest, s.answers.count = a :: rest →
      ∃ t, exec i s = .next t ∧ SameHandle s t ∧
        t.requests = s.requests ++ [.i2cWrite s.handle.select s.port.din s.cfg.txnTimeoutMs] ∧
        match a with
        | .ok n => if n = s.port.din.length then Finished s t 0 [] else Finished s t (BitVec.ofInt 32 (-1)) []
        | .err e => Finished s t e.code [])

/-- R290: on SPI, an opcode width above 16 or an address width above 32 is InvalidArgument before any request. -/
def Obligations.RawXferChecksTheWidths : Prop :=
  ∀ (s : State) (addr len rlen : Word32) (opc : BitVec 16) (opw adw dmw : Byte),
    s.port.din.length = len.toNat → s.port.dout = [] → s.handle.hstate = .ready → s.handle.iface = .spi →
    (16 < opw.toNat ∨ 32 < adw.toNat) → RefusedWith (.rawXfer addr len rlen opc opw adw dmw) s .invalidArgument

/-! ### The entry checks and the whole machine -/

/-- R294, R305, R309: a command that its DIN, the lifecycle state or the family excludes finishes with InvalidArgument,
issues no request and writes nothing but STATUS. -/
def Obligations.ExcludedCommandsWriteOnlyStatus : Prop :=
  ∀ (s : State) (i : Instr), i.isCommand = true → s.port.dout = [] → ¬ admitted s i →
    RefusedWith i s .invalidArgument

/-- R146, R147, R305 checks 6 and 7: an addressed command on a SIZE that is no power of two, or at an address past it,
finishes with InvalidArgument and writes nothing but STATUS. -/
def Obligations.AddressedCommandsCheckSizeAndAddress : Prop :=
  ∀ (s : State) (addr len page : Word32) (wrap partialAcc : Bool) (value : Byte),
    s.port.dout = [] →
    ((∀ k, s.handle.size.toNat ≠ 2 ^ k) ∨ s.handle.size.toNat ≤ addr.toNat →
      RefusedWith (.read addr len) s .invalidArgument ∧ RefusedWith (.readByte addr) s .invalidArgument ∧
        RefusedWith (.write addr len wrap partialAcc) s .invalidArgument ∧
        RefusedWith (.writeByte addr value) s .invalidArgument) ∧
    ((∀ k, s.handle.size.toNat ≠ 2 ^ k) → RefusedWith (.erasePage page value) s .invalidArgument)

/-- The frame of the commands that only report: READ, READ_BYTE, GET_INFO, GET_SFDP and RAW_XFER change DOUT and STATUS
and no other register, whatever the answers (R82, R286, R288, R290). -/
def Obligations.ReportingCommandsChangeOnlyDoutAndStatus : Prop :=
  ∀ (s t : State) (i : Instr) (addr len rlen : Word32) (opc : BitVec 16) (opw adw dmw : Byte),
    i = .read addr len ∨ i = .readByte addr ∨ i = .getInfo ∨ i = .getSfdp ∨
      i = .rawXfer addr len rlen opc opw adw dmw →
    exec i s = .next t →
    (∃ v d, Finished s t v d) ∧ SameHandle s t ∧ ∃ r, r.length ≤ 1 ∧ t.requests = s.requests ++ r

/-- R107, R40, R310: every command comes to its finish. In every state with the invariants of R39 and admitted parameters,
a command accepted while BUSY = 0 answers a next state and, whatever the transport answers, runs on to a state with
BUSY = 0 and no working registers; CMDR and DIN are the command's, the parameters are kept, and no request already issued
is taken back. -/
def Obligations.EveryCommandFinishes : Prop :=
  ∀ (s : State) (o : Offer) (i : Instr),
    s.cfg.admitted = true → s.Inv → s.port.busy = false → decode o.cmdw = .ok i →
    ∃ t, Completes i (s.accept o) t ∧ (∃ v d, Finished (s.accept o) t v d) ∧ s.wire <+: t.wire

/-- R293: how each command moves HSTATE. INIT from UNINIT may make it READY; DEINIT makes it UNINIT; DISCOVER and ERASE
move it only on an SPI_NOR_SFDP handle that is bound, to READY or BOUND; every other command leaves it. -/
def Obligations.HandleLifecycle : Prop :=
  ∀ (s t : State) (i : Instr), s.pending = none → Completes i s t → t.handle.hstate ≠ s.handle.hstate →
    (∃ v sel, i = .init v sel ∧ s.handle.hstate = .uninit ∧ t.handle.hstate = .ready) ∨
    (∃ r, i = .deinit r ∧ t.handle.hstate = .uninit) ∨
    ((i = .discover ∨ ∃ value, i = .erase value) ∧ s.handle.hstate ≠ .uninit ∧ s.handle.family = .spiNorSfdp ∧
      (t.handle.hstate = .ready ∨ t.handle.hstate = .bound))

/-- The "written by" column of R32, with R41: which instructions can change FAMILY, IFACE, VARIANT, SELECT, the geometry
and PROGRESS in any state they come to, and that none sets WP. -/
def Obligations.WhoWritesTheHandle : Prop :=
  ∀ (s t : State) (i : Instr), s.pending = none → Reaches i s t →
    ((∀ v sel, i ≠ .init v sel) → (∀ r, i ≠ .deinit r) →
      t.handle.family = s.handle.family ∧ t.handle.iface = s.handle.iface ∧ t.handle.variant = s.handle.variant ∧
        t.handle.select = s.handle.select ∧
        (i ≠ .discover → (∀ value, i ≠ .erase value) →
          t.handle.size = s.handle.size ∧ t.handle.addrLen = s.handle.addrLen ∧
            t.handle.pageSize = s.handle.pageSize ∧ t.handle.writeDelayMs = s.handle.writeDelayMs ∧ t.sfdp = s.sfdp) ∧
        ((∀ value, i ≠ .erase value) → (∀ page value, i ≠ .erasePage page value) →
          t.handle.progress = s.handle.progress)) ∧
    (s.handle.wp = false → t.handle.wp = false)

/-! ### Invariants -/

/-- The invariants of R39, the legal values of R32 and R34, and what the model adds hold after reset. That nothing is on the wire then is the model's
choice (log 18). -/
def Obligations.InvariantsHoldAtReset : Prop :=
  ∀ p : Params, (State.resetWith p).Inv ∧ (State.resetWith p).WireOk ∧ (State.resetWith p).wire = []

/-- Every step keeps the invariants of R39, the legal values of R32 and R34, and what holds during a command, from every
state that has them. -/
def Obligations.EveryStepKeepsTheInvariants : Prop :=
  ∀ s t : State, s.cfg.admitted = true → s.Inv → step s = .next t → t.Inv

/-- Every request a step puts on the wire, and every one then due, is within the field ranges of R110 and R111 and
carries the timeout of R314; each is issued while BUSY = 1. -/
def Obligations.EveryRequestIsInContract : Prop :=
  ∀ s t : State, s.cfg.admitted = true → s.Inv → s.WireOk → step s = .next t → t.WireOk

/-- A machine with admitted parameters never stops: from every state with the invariants of R39, whatever the host does
but offer a command while BUSY = 1, and whatever the transport answers, there is a next state. -/
def Obligations.NoStepFaults : Prop :=
  ∀ s : State, s.cfg.admitted = true → s.Inv →
    (s.port.busy = true → ∀ o rest, s.hostIn ≠ .command o :: rest) → ∃ t, step s = .next t
end

