-- ==== Sys2Proof/Laws/Codec.lean ====
section
/-! SUPPORT. The number operands of R14 and R16 and the command word of R100: one lemma per definition, which the
proofs about encodings cite. -/

namespace Sys2Proof

/-! ### pow2 and bitlength (R14) -/

theorem pow2_iff (n : Nat) : pow2 n = true ↔ ∃ k, n = 2 ^ k := by
  simp only [pow2, beq_iff_eq]
  constructor
  · intro h
    exact ⟨_, h⟩
  · rintro ⟨k, rfl⟩
    rw [Nat.log2_two_pow]

theorem pow2_eq_false_iff (n : Nat) : pow2 n = false ↔ ∀ k, n ≠ 2 ^ k := by
  rw [← Bool.not_eq_true, pow2_iff]
  simp

theorem pow2_pos {n : Nat} (h : pow2 n = true) : 0 < n := by
  obtain ⟨k, rfl⟩ := (pow2_iff n).mp h
  exact Nat.two_pow_pos k

/-- n fits its bitlength. -/
theorem lt_two_pow_bitlength (n : Nat) : n < 2 ^ bitlength n := by
  unfold bitlength
  split
  · next h => simp [h]
  · exact Nat.lt_log2_self

/-- A power of two is 2 to the width of its address space. -/
theorem bitlength_two_pow_sub_one (k : Nat) : bitlength (2 ^ k - 1) = k := by
  unfold bitlength
  have hk := Nat.two_pow_pos k
  split
  · next h =>
    by_contra hne
    have : 2 ^ 1 ≤ 2 ^ k := Nat.pow_le_pow_right (by omega) (by omega)
    omega
  · next h =>
    have h1 : (2 ^ k - 1).log2 < k := (Nat.log2_lt h).mpr (by omega)
    have h2 : k - 1 ≤ (2 ^ k - 1).log2 := by
      rw [Nat.le_log2 h]
      have : 2 ^ k = 2 * 2 ^ (k - 1) := by
        rw [← Nat.pow_succ']
        congr 1
        by_contra hc
        have : k = 0 := by omega
        subst this
        simp at h
      have := Nat.two_pow_pos (k - 1)
      omega
    have : 0 < k := by
      rcases Nat.eq_zero_or_pos k with rfl | hp
      · simp at h
      · exact hp
    omega

/-! ### Byte sequences (R16, R76) -/

@[simp] theorem leBytes_length (v n : Nat) : (leBytes v n).length = n := by
  induction n generalizing v with
  | zero => rfl
  | succ n ih => simp [leBytes, ih]

theorem leNat_leBytes (v n : Nat) : leNat (leBytes v n) = v % 2 ^ (8 * n) := by
  induction n generalizing v with
  | zero => simp [leBytes, leNat, Nat.mod_one]
  | succ n ih =>
    have e : 2 ^ (8 * (n + 1)) = 256 * 2 ^ (8 * n) := by
      rw [show 8 * (n + 1) = 8 + 8 * n by omega, Nat.pow_add]
    rw [leBytes, leNat, ih, e, Nat.mod_mul, byteOf, BitVec.toNat_ofNat]

theorem leNat_leBytes_of_lt {v n : Nat} (h : v < 2 ^ (8 * n)) : leNat (leBytes v n) = v := by
  rw [leNat_leBytes, Nat.mod_eq_of_lt h]

theorem leBytes_one (v : Nat) : leBytes v 1 = [byteOf v] := rfl

theorem leBytes_two (v : Nat) : leBytes v 2 = [byteOf v, byteOf (v / 256)] := rfl

theorem leBytes_four (v : Nat) :
    leBytes v 4 = [byteOf v, byteOf (v / 256), byteOf (v / 256 / 256), byteOf (v / 256 / 256 / 256)] := rfl

theorem leNat_two {v : Nat} (h : v < 2 ^ 16) : leNat [byteOf v, byteOf (v / 256)] = v :=
  leNat_leBytes_of_lt (n := 2) h

theorem leNat_four {v : Nat} (h : v < 2 ^ 32) :
    leNat [byteOf v, byteOf (v / 256), byteOf (v / 256 / 256), byteOf (v / 256 / 256 / 256)] = v :=
  leNat_leBytes_of_lt (n := 4) h

@[simp] theorem beBytes_length (v n : Nat) : (beBytes v n).length = n := by
  induction n with
  | zero => rfl
  | succ n ih => simp [beBytes, ih]

theorem beNat_beBytes (v n : Nat) : beNat (beBytes v n) = v % 2 ^ (8 * n) := by
  induction n with
  | zero => simp [beBytes, beNat, Nat.mod_one]
  | succ n ih =>
    rw [beBytes, beNat, ih, beBytes_length, byteOf, BitVec.toNat_ofNat]
    rw [show 8 * (n + 1) = 8 * n + 8 by omega, Nat.pow_add, Nat.mod_mul]
    rw [Nat.mul_comm (v / 2 ^ (8 * n) % 2 ^ 8)]
    omega

@[simp] theorem cmdBytes_length (w : CmdW) : (cmdBytes w).length = 24 := leBytes_length _ _

/-- The bytes of a CMDW decode as the CMDW does. -/
theorem decodeBytes_cmdBytes (w : CmdW) : decodeBytes (cmdBytes w) = decode w := by
  have h : leNat (leBytes w.toNat 24) = w.toNat := leNat_leBytes_of_lt w.isLt
  simp [decodeBytes, cmdBytes, h]

/-! ### The address field (R154) -/

theorem addressField_toNat {x adw : Nat} (h : adw ≤ 32) : (addressField x adw).toNat = x % 2 ^ adw := by
  have h1 : x % 2 ^ adw < 2 ^ adw := Nat.mod_lt _ (Nat.two_pow_pos adw)
  have h2 : (2 : Nat) ^ adw ≤ 2 ^ 32 := Nat.pow_le_pow_right (by omega) h
  rw [addressField, BitVec.toNat_ofNat, Nat.mod_eq_of_lt (by omega)]

theorem addressField_lt {x adw : Nat} (h : adw ≤ 32) : (addressField x adw).toNat < 2 ^ adw := by
  rw [addressField_toNat h]
  exact Nat.mod_lt _ (Nat.two_pow_pos adw)

/-! ### The command word (R100) -/

namespace CmdFields

theorem ofBool_getLsbD_zero (b : Bool) : (BitVec.ofBool b).getLsbD 0 = b := by cases b <;> rfl

/-- A bit above the low part of an append. -/
theorem getLsbD_append_high {m n : Nat} (x : BitVec m) (y : BitVec n) (i : Nat) (h : n ≤ i) :
    (x ++ y).getLsbD i = x.getLsbD (i - n) := by
  rw [BitVec.getLsbD_append, if_neg (by omega)]

/-- A bit in the low part of an append. -/
theorem getLsbD_append_low {m n : Nat} (x : BitVec m) (y : BitVec n) (i : Nat) (h : i < n) :
    (x ++ y).getLsbD i = y.getLsbD i := by
  rw [BitVec.getLsbD_append, if_pos h]

/-- Every field is read back from where it was written. -/
theorem unpack_pack (f : CmdFields) : unpack f.pack = f := by
  obtain ⟨cmd, wrap, pa, td, fr, value, sel, addr, len, rlen, opc, opw, adw, dmw, rsvd⟩ := f
  simp (disch := decide) only [unpack, pack, BitVec.extractLsb'_append_eq_of_le,
    BitVec.extractLsb'_append_eq_of_add_le, getLsbD_append_high, getLsbD_append_low, Nat.reduceSub,
    ofBool_getLsbD_zero, BitVec.extractLsb'_eq_self]

end CmdFields

/-- Two field records with the same word are the same. -/
theorem CmdFields.pack_injective {f g : CmdFields} (h : f.pack = g.pack) : f = g := by
  rw [← unpack_pack f, ← unpack_pack g, h]

/-- The decoder on a word built from fields (checks 1 and 2 of R305). -/
theorem decode_pack (f : CmdFields) :
    decode f.pack =
      match f.command with
      | .error e => .error e
      | .ok i => if f.flagsRsvd = 0#5 ∧ f.rsvd = 0#24 then .ok i else .error .reservedBits := by
  rw [decode]
  simp only [CmdFields.unpack_pack] <;> rfl

/-- Only a host command decodes. -/
theorem CmdFields.command_isCommand {f : CmdFields} {i : Instr} (h : f.command = .ok i) : i.isCommand = true := by
  unfold CmdFields.command at h
  split at h <;> first | (cases h; rfl) | cases h

theorem decode_isCommand {w : CmdW} {i : Instr} (h : decode w = .ok i) : i.isCommand = true := by
  unfold decode at h
  simp only at h
  split at h
  · cases h
  · next j hj =>
    split at h
    · cases h; exact CmdFields.command_isCommand hj
    · cases h

end Sys2Proof
end

