-- ==== Sys2Proof/Laws/State.lean ====
section
/-! SUPPORT. One lemma per field per update of State, true by `rfl`, so that no later proof unfolds a record update. -/

namespace Sys2Proof.Machine

variable (s : State)

@[simp] theorem State.setDout_cfg (d : List Byte) : (s.setDout d).cfg = s.cfg := rfl
@[simp] theorem State.setDout_handle (d : List Byte) : (s.setDout d).handle = s.handle := rfl
@[simp] theorem State.setDout_sfdp (d : List Byte) : (s.setDout d).sfdp = s.sfdp := rfl
@[simp] theorem State.setDout_port (d : List Byte) : (s.setDout d).port = { s.port with dout := d } := rfl
@[simp] theorem State.setDout_work (d : List Byte) : (s.setDout d).work = s.work := rfl
@[simp] theorem State.setDout_pending (d : List Byte) : (s.setDout d).pending = s.pending := rfl
@[simp] theorem State.setDout_hostIn (d : List Byte) : (s.setDout d).hostIn = s.hostIn := rfl
@[simp] theorem State.setDout_answers (d : List Byte) : (s.setDout d).answers = s.answers := rfl
@[simp] theorem State.setDout_wire (d : List Byte) : (s.setDout d).wire = s.wire := rfl
@[simp] theorem State.setDout_drawn (d : List Byte) : (s.setDout d).drawn = s.drawn := rfl

@[simp] theorem State.setProgress_cfg (n : Word32) : (s.setProgress n).cfg = s.cfg := rfl
@[simp] theorem State.setProgress_handle (n : Word32) : (s.setProgress n).handle = { s.handle with progress := n } := rfl
@[simp] theorem State.setProgress_sfdp (n : Word32) : (s.setProgress n).sfdp = s.sfdp := rfl
@[simp] theorem State.setProgress_port (n : Word32) : (s.setProgress n).port = s.port := rfl
@[simp] theorem State.setProgress_work (n : Word32) : (s.setProgress n).work = s.work := rfl
@[simp] theorem State.setProgress_pending (n : Word32) : (s.setProgress n).pending = s.pending := rfl
@[simp] theorem State.setProgress_hostIn (n : Word32) : (s.setProgress n).hostIn = s.hostIn := rfl
@[simp] theorem State.setProgress_answers (n : Word32) : (s.setProgress n).answers = s.answers := rfl
@[simp] theorem State.setProgress_wire (n : Word32) : (s.setProgress n).wire = s.wire := rfl
@[simp] theorem State.setProgress_drawn (n : Word32) : (s.setProgress n).drawn = s.drawn := rfl

@[simp] theorem State.countUnit_cfg : s.countUnit.cfg = s.cfg := rfl
@[simp] theorem State.countUnit_handle : s.countUnit.handle = { s.handle with progress := s.handle.progress + 1#32 } := rfl
@[simp] theorem State.countUnit_sfdp : s.countUnit.sfdp = s.sfdp := rfl
@[simp] theorem State.countUnit_port : s.countUnit.port = s.port := rfl
@[simp] theorem State.countUnit_work : s.countUnit.work = s.work := rfl
@[simp] theorem State.countUnit_pending : s.countUnit.pending = s.pending := rfl
@[simp] theorem State.countUnit_hostIn : s.countUnit.hostIn = s.hostIn := rfl
@[simp] theorem State.countUnit_answers : s.countUnit.answers = s.answers := rfl
@[simp] theorem State.countUnit_wire : s.countUnit.wire = s.wire := rfl
@[simp] theorem State.countUnit_drawn : s.countUnit.drawn = s.drawn := rfl

@[simp] theorem State.setHstate_cfg (h : HState) : (s.setHstate h).cfg = s.cfg := rfl
@[simp] theorem State.setHstate_handle (h : HState) : (s.setHstate h).handle = { s.handle with hstate := h } := rfl
@[simp] theorem State.setHstate_sfdp (h : HState) : (s.setHstate h).sfdp = s.sfdp := rfl
@[simp] theorem State.setHstate_port (h : HState) : (s.setHstate h).port = s.port := rfl
@[simp] theorem State.setHstate_work (h : HState) : (s.setHstate h).work = s.work := rfl
@[simp] theorem State.setHstate_pending (h : HState) : (s.setHstate h).pending = s.pending := rfl
@[simp] theorem State.setHstate_hostIn (h : HState) : (s.setHstate h).hostIn = s.hostIn := rfl
@[simp] theorem State.setHstate_answers (h : HState) : (s.setHstate h).answers = s.answers := rfl
@[simp] theorem State.setHstate_wire (h : HState) : (s.setHstate h).wire = s.wire := rfl
@[simp] theorem State.setHstate_drawn (h : HState) : (s.setHstate h).drawn = s.drawn := rfl

@[simp] theorem State.setSfdpState_cfg (t : SfdpState) : (s.setSfdpState t).cfg = s.cfg := rfl
@[simp] theorem State.setSfdpState_handle (t : SfdpState) : (s.setSfdpState t).handle = s.handle := rfl
@[simp] theorem State.setSfdpState_sfdp (t : SfdpState) : (s.setSfdpState t).sfdp = { s.sfdp with state := t } := rfl
@[simp] theorem State.setSfdpState_port (t : SfdpState) : (s.setSfdpState t).port = s.port := rfl
@[simp] theorem State.setSfdpState_work (t : SfdpState) : (s.setSfdpState t).work = s.work := rfl
@[simp] theorem State.setSfdpState_pending (t : SfdpState) : (s.setSfdpState t).pending = s.pending := rfl
@[simp] theorem State.setSfdpState_hostIn (t : SfdpState) : (s.setSfdpState t).hostIn = s.hostIn := rfl
@[simp] theorem State.setSfdpState_answers (t : SfdpState) : (s.setSfdpState t).answers = s.answers := rfl
@[simp] theorem State.setSfdpState_wire (t : SfdpState) : (s.setSfdpState t).wire = s.wire := rfl
@[simp] theorem State.setSfdpState_drawn (t : SfdpState) : (s.setSfdpState t).drawn = s.drawn := rfl

@[simp] theorem State.setHdrBuf_cfg (h : List Byte) : (s.setHdrBuf h).cfg = s.cfg := rfl
@[simp] theorem State.setHdrBuf_handle (h : List Byte) : (s.setHdrBuf h).handle = s.handle := rfl
@[simp] theorem State.setHdrBuf_sfdp (h : List Byte) : (s.setHdrBuf h).sfdp = { s.sfdp with hdrBuf := h } := rfl
@[simp] theorem State.setHdrBuf_port (h : List Byte) : (s.setHdrBuf h).port = s.port := rfl
@[simp] theorem State.setHdrBuf_work (h : List Byte) : (s.setHdrBuf h).work = s.work := rfl
@[simp] theorem State.setHdrBuf_pending (h : List Byte) : (s.setHdrBuf h).pending = s.pending := rfl
@[simp] theorem State.setHdrBuf_hostIn (h : List Byte) : (s.setHdrBuf h).hostIn = s.hostIn := rfl
@[simp] theorem State.setHdrBuf_answers (h : List Byte) : (s.setHdrBuf h).answers = s.answers := rfl
@[simp] theorem State.setHdrBuf_wire (h : List Byte) : (s.setHdrBuf h).wire = s.wire := rfl
@[simp] theorem State.setHdrBuf_drawn (h : List Byte) : (s.setHdrBuf h).drawn = s.drawn := rfl

@[simp] theorem State.setPtBuf_cfg (t : List Byte) : (s.setPtBuf t).cfg = s.cfg := rfl
@[simp] theorem State.setPtBuf_handle (t : List Byte) : (s.setPtBuf t).handle = s.handle := rfl
@[simp] theorem State.setPtBuf_sfdp (t : List Byte) : (s.setPtBuf t).sfdp = { s.sfdp with ptBuf := t } := rfl
@[simp] theorem State.setPtBuf_port (t : List Byte) : (s.setPtBuf t).port = s.port := rfl
@[simp] theorem State.setPtBuf_work (t : List Byte) : (s.setPtBuf t).work = s.work := rfl
@[simp] theorem State.setPtBuf_pending (t : List Byte) : (s.setPtBuf t).pending = s.pending := rfl
@[simp] theorem State.setPtBuf_hostIn (t : List Byte) : (s.setPtBuf t).hostIn = s.hostIn := rfl
@[simp] theorem State.setPtBuf_answers (t : List Byte) : (s.setPtBuf t).answers = s.answers := rfl
@[simp] theorem State.setPtBuf_wire (t : List Byte) : (s.setPtBuf t).wire = s.wire := rfl
@[simp] theorem State.setPtBuf_drawn (t : List Byte) : (s.setPtBuf t).drawn = s.drawn := rfl

@[simp] theorem State.setWork_cfg (w : Option Work) : (s.setWork w).cfg = s.cfg := rfl
@[simp] theorem State.setWork_handle (w : Option Work) : (s.setWork w).handle = s.handle := rfl
@[simp] theorem State.setWork_sfdp (w : Option Work) : (s.setWork w).sfdp = s.sfdp := rfl
@[simp] theorem State.setWork_port (w : Option Work) : (s.setWork w).port = s.port := rfl
@[simp] theorem State.setWork_work (w : Option Work) : (s.setWork w).work = w := rfl
@[simp] theorem State.setWork_pending (w : Option Work) : (s.setWork w).pending = s.pending := rfl
@[simp] theorem State.setWork_hostIn (w : Option Work) : (s.setWork w).hostIn = s.hostIn := rfl
@[simp] theorem State.setWork_answers (w : Option Work) : (s.setWork w).answers = s.answers := rfl
@[simp] theorem State.setWork_wire (w : Option Work) : (s.setWork w).wire = s.wire := rfl
@[simp] theorem State.setWork_drawn (w : Option Work) : (s.setWork w).drawn = s.drawn := rfl

@[simp] theorem State.setPending_cfg (p : Pending) : (s.setPending p).cfg = s.cfg := rfl
@[simp] theorem State.setPending_handle (p : Pending) : (s.setPending p).handle = s.handle := rfl
@[simp] theorem State.setPending_sfdp (p : Pending) : (s.setPending p).sfdp = s.sfdp := rfl
@[simp] theorem State.setPending_port (p : Pending) : (s.setPending p).port = s.port := rfl
@[simp] theorem State.setPending_work (p : Pending) : (s.setPending p).work = s.work := rfl
@[simp] theorem State.setPending_pending (p : Pending) : (s.setPending p).pending = some p := rfl
@[simp] theorem State.setPending_hostIn (p : Pending) : (s.setPending p).hostIn = s.hostIn := rfl
@[simp] theorem State.setPending_answers (p : Pending) : (s.setPending p).answers = s.answers := rfl
@[simp] theorem State.setPending_wire (p : Pending) : (s.setPending p).wire = s.wire := rfl
@[simp] theorem State.setPending_drawn (p : Pending) : (s.setPending p).drawn = s.drawn := rfl

@[simp] theorem State.resetHandle_cfg : s.resetHandle.cfg = s.cfg := rfl
@[simp] theorem State.resetHandle_handle : s.resetHandle.handle = Handle.reset := rfl
@[simp] theorem State.resetHandle_sfdp : s.resetHandle.sfdp = Sfdp.reset := rfl
@[simp] theorem State.resetHandle_port : s.resetHandle.port = s.port := rfl
@[simp] theorem State.resetHandle_work : s.resetHandle.work = s.work := rfl
@[simp] theorem State.resetHandle_pending : s.resetHandle.pending = s.pending := rfl
@[simp] theorem State.resetHandle_hostIn : s.resetHandle.hostIn = s.hostIn := rfl
@[simp] theorem State.resetHandle_answers : s.resetHandle.answers = s.answers := rfl
@[simp] theorem State.resetHandle_wire : s.resetHandle.wire = s.wire := rfl
@[simp] theorem State.resetHandle_drawn : s.resetHandle.drawn = s.drawn := rfl

@[simp] theorem State.accept_cfg (o : Offer) : (s.accept o).cfg = s.cfg := rfl
@[simp] theorem State.accept_handle (o : Offer) : (s.accept o).handle = s.handle := rfl
@[simp] theorem State.accept_sfdp (o : Offer) : (s.accept o).sfdp = s.sfdp := rfl
@[simp] theorem State.accept_port (o : Offer) : (s.accept o).port = { s.port with busy := true, cmdr := o.cmdw, din := o.din, dout := [] } := rfl
@[simp] theorem State.accept_work (o : Offer) : (s.accept o).work = s.work := rfl
@[simp] theorem State.accept_pending (o : Offer) : (s.accept o).pending = s.pending := rfl
@[simp] theorem State.accept_hostIn (o : Offer) : (s.accept o).hostIn = s.hostIn := rfl
@[simp] theorem State.accept_answers (o : Offer) : (s.accept o).answers = s.answers := rfl
@[simp] theorem State.accept_wire (o : Offer) : (s.accept o).wire = s.wire := rfl
@[simp] theorem State.accept_drawn (o : Offer) : (s.accept o).drawn = s.drawn := rfl

@[simp] theorem State.finish_cfg (v : Word32) : (s.finish v).cfg = s.cfg := rfl
@[simp] theorem State.finish_handle (v : Word32) : (s.finish v).handle = s.handle := rfl
@[simp] theorem State.finish_sfdp (v : Word32) : (s.finish v).sfdp = s.sfdp := rfl
@[simp] theorem State.finish_port (v : Word32) : (s.finish v).port = { s.port with busy := false, status := v } := rfl
@[simp] theorem State.finish_work (v : Word32) : (s.finish v).work = none := rfl
@[simp] theorem State.finish_pending (v : Word32) : (s.finish v).pending = none := rfl
@[simp] theorem State.finish_hostIn (v : Word32) : (s.finish v).hostIn = s.hostIn := rfl
@[simp] theorem State.finish_answers (v : Word32) : (s.finish v).answers = s.answers := rfl
@[simp] theorem State.finish_wire (v : Word32) : (s.finish v).wire = s.wire := rfl
@[simp] theorem State.finish_drawn (v : Word32) : (s.finish v).drawn = s.drawn := rfl

@[simp] theorem State.raise_cfg (e : ErrorName) : (s.raise e).cfg = s.cfg := rfl
@[simp] theorem State.raise_handle (e : ErrorName) : (s.raise e).handle = s.handle := rfl
@[simp] theorem State.raise_sfdp (e : ErrorName) : (s.raise e).sfdp = s.sfdp := rfl
@[simp] theorem State.raise_port (e : ErrorName) : (s.raise e).port = { s.port with busy := false, status := e.code } := rfl
@[simp] theorem State.raise_work (e : ErrorName) : (s.raise e).work = none := rfl
@[simp] theorem State.raise_pending (e : ErrorName) : (s.raise e).pending = none := rfl
@[simp] theorem State.raise_hostIn (e : ErrorName) : (s.raise e).hostIn = s.hostIn := rfl
@[simp] theorem State.raise_answers (e : ErrorName) : (s.raise e).answers = s.answers := rfl
@[simp] theorem State.raise_wire (e : ErrorName) : (s.raise e).wire = s.wire := rfl
@[simp] theorem State.raise_drawn (e : ErrorName) : (s.raise e).drawn = s.drawn := rfl

@[simp] theorem State.raiseReading_cfg (e : ErrorName) : (s.raiseReading e).cfg = s.cfg := rfl
@[simp] theorem State.raiseReading_handle (e : ErrorName) : (s.raiseReading e).handle = s.handle := rfl
@[simp] theorem State.raiseReading_sfdp (e : ErrorName) : (s.raiseReading e).sfdp = s.sfdp := rfl
@[simp] theorem State.raiseReading_port (e : ErrorName) : (s.raiseReading e).port = { s.port with busy := false, status := e.code, dout := [] } := rfl
@[simp] theorem State.raiseReading_work (e : ErrorName) : (s.raiseReading e).work = none := rfl
@[simp] theorem State.raiseReading_pending (e : ErrorName) : (s.raiseReading e).pending = none := rfl
@[simp] theorem State.raiseReading_hostIn (e : ErrorName) : (s.raiseReading e).hostIn = s.hostIn := rfl
@[simp] theorem State.raiseReading_answers (e : ErrorName) : (s.raiseReading e).answers = s.answers := rfl
@[simp] theorem State.raiseReading_wire (e : ErrorName) : (s.raiseReading e).wire = s.wire := rfl
@[simp] theorem State.raiseReading_drawn (e : ErrorName) : (s.raiseReading e).drawn = s.drawn := rfl

@[simp] theorem State.powerOn_cfg : s.powerOn.cfg = s.cfg := rfl
@[simp] theorem State.powerOn_handle : s.powerOn.handle = Handle.reset := rfl
@[simp] theorem State.powerOn_sfdp : s.powerOn.sfdp = Sfdp.reset := rfl
@[simp] theorem State.powerOn_port : s.powerOn.port = Port.reset := rfl
@[simp] theorem State.powerOn_work : s.powerOn.work = none := rfl
@[simp] theorem State.powerOn_pending : s.powerOn.pending = none := rfl
@[simp] theorem State.powerOn_hostIn : s.powerOn.hostIn = s.hostIn := rfl
@[simp] theorem State.powerOn_answers : s.powerOn.answers = s.answers := rfl
@[simp] theorem State.powerOn_wire : s.powerOn.wire = s.wire := rfl
@[simp] theorem State.powerOn_drawn : s.powerOn.drawn = s.drawn := rfl

@[simp] theorem State.record_cfg (r : Request) (a : Answer) : (s.record r a).cfg = s.cfg := rfl
@[simp] theorem State.record_handle (r : Request) (a : Answer) : (s.record r a).handle = s.handle := rfl
@[simp] theorem State.record_sfdp (r : Request) (a : Answer) : (s.record r a).sfdp = s.sfdp := rfl
@[simp] theorem State.record_port (r : Request) (a : Answer) : (s.record r a).port = s.port := rfl
@[simp] theorem State.record_work (r : Request) (a : Answer) : (s.record r a).work = s.work := rfl
@[simp] theorem State.record_pending (r : Request) (a : Answer) : (s.record r a).pending = s.pending := rfl
@[simp] theorem State.record_hostIn (r : Request) (a : Answer) : (s.record r a).hostIn = s.hostIn := rfl
@[simp] theorem State.record_answers (r : Request) (a : Answer) : (s.record r a).answers = s.answers := rfl
@[simp] theorem State.record_wire (r : Request) (a : Answer) : (s.record r a).wire = s.wire ++ [⟨r, a, s.port.busy, s.sfdp.state, s.work⟩] := rfl
@[simp] theorem State.record_drawn (r : Request) (a : Answer) : (s.record r a).drawn = s.drawn := rfl

@[simp] theorem State.discoveryFailed_cfg : s.discoveryFailed.cfg = s.cfg := rfl
@[simp] theorem State.discoveryFailed_handle : s.discoveryFailed.handle = { s.handle with hstate := .bound } := rfl
@[simp] theorem State.discoveryFailed_sfdp : s.discoveryFailed.sfdp = { s.sfdp with state := .failed } := rfl
@[simp] theorem State.discoveryFailed_port : s.discoveryFailed.port = s.port := rfl
@[simp] theorem State.discoveryFailed_work : s.discoveryFailed.work = s.work := rfl
@[simp] theorem State.discoveryFailed_pending : s.discoveryFailed.pending = s.pending := rfl
@[simp] theorem State.discoveryFailed_hostIn : s.discoveryFailed.hostIn = s.hostIn := rfl
@[simp] theorem State.discoveryFailed_answers : s.discoveryFailed.answers = s.answers := rfl
@[simp] theorem State.discoveryFailed_wire : s.discoveryFailed.wire = s.wire := rfl
@[simp] theorem State.discoveryFailed_drawn : s.discoveryFailed.drawn = s.drawn := rfl

@[simp] theorem State.takeEvent_cfg : s.takeEvent.cfg = s.cfg := rfl
@[simp] theorem State.takeEvent_handle : s.takeEvent.handle = s.handle := rfl
@[simp] theorem State.takeEvent_sfdp : s.takeEvent.sfdp = s.sfdp := rfl
@[simp] theorem State.takeEvent_port : s.takeEvent.port = s.port := rfl
@[simp] theorem State.takeEvent_work : s.takeEvent.work = s.work := rfl
@[simp] theorem State.takeEvent_pending : s.takeEvent.pending = s.pending := rfl
@[simp] theorem State.takeEvent_hostIn : s.takeEvent.hostIn = s.hostIn.drop 1 := rfl
@[simp] theorem State.takeEvent_answers : s.takeEvent.answers = s.answers := rfl
@[simp] theorem State.takeEvent_wire : s.takeEvent.wire = s.wire := rfl
@[simp] theorem State.takeEvent_drawn : s.takeEvent.drawn = s.drawn := rfl

/-- `finishCount` is a `finish` with some value; at most the counter of drawn values moves. -/
theorem State.finishCount_cases (n : Nat) :
    s.finishCount n = s.finish (BitVec.ofNat 32 n) ∨
      s.finishCount n = { s with drawn := s.drawn + 1 }.finish (Config.freeCountStatus s.drawn) := by
  unfold State.finishCount
  split <;> simp

/-- A count that fits STATUS is STATUS. -/
theorem State.finishCount_fits (n : Nat) (h : n < 2 ^ 31) : s.finishCount n = s.finish (BitVec.ofNat 32 n) := by
  simp only [State.finishCount, if_pos h]

@[simp] theorem State.finishCount_cfg (n : Nat) : (s.finishCount n).cfg = s.cfg := by
  rcases s.finishCount_cases n with h | h <;> simp [h]
@[simp] theorem State.finishCount_handle (n : Nat) : (s.finishCount n).handle = s.handle := by
  rcases s.finishCount_cases n with h | h <;> simp [h]
@[simp] theorem State.finishCount_sfdp (n : Nat) : (s.finishCount n).sfdp = s.sfdp := by
  rcases s.finishCount_cases n with h | h <;> simp [h]
@[simp] theorem State.finishCount_work (n : Nat) : (s.finishCount n).work = none := by
  rcases s.finishCount_cases n with h | h <;> simp [h]
@[simp] theorem State.finishCount_hostIn (n : Nat) : (s.finishCount n).hostIn = s.hostIn := by
  rcases s.finishCount_cases n with h | h <;> simp [h]
@[simp] theorem State.finishCount_answers (n : Nat) : (s.finishCount n).answers = s.answers := by
  rcases s.finishCount_cases n with h | h <;> simp [h]
@[simp] theorem State.finishCount_wire (n : Nat) : (s.finishCount n).wire = s.wire := by
  rcases s.finishCount_cases n with h | h <;> simp [h]
@[simp] theorem State.finishCount_busy (n : Nat) : (s.finishCount n).port.busy = false := by
  rcases s.finishCount_cases n with h | h <;> simp [h]
@[simp] theorem State.finishCount_cmdr (n : Nat) : (s.finishCount n).port.cmdr = s.port.cmdr := by
  rcases s.finishCount_cases n with h | h <;> simp [h]
@[simp] theorem State.finishCount_din (n : Nat) : (s.finishCount n).port.din = s.port.din := by
  rcases s.finishCount_cases n with h | h <;> simp [h]
@[simp] theorem State.finishCount_dout (n : Nat) : (s.finishCount n).port.dout = s.port.dout := by
  rcases s.finishCount_cases n with h | h <;> simp [h]

end Sys2Proof.Machine
end

