-- ==== Sys2Proof/Laws/Transport.lean ====
section
/-! SUPPORT. What the transport step can do. `Quiet s t` says it once: between `s` and `t` requests may have been recorded,
answers taken, free values drawn, and the working registers and what is due may have moved, and nothing else.
`transport_listed…` give the step on a listed answer. -/

namespace Sys2Proof.Machine

/-- From `s` to `t` no register of the handle, of SFDP or of the port changed, and the wire only grew. -/
structure Quiet (s t : State) : Prop where
  cfg : t.cfg = s.cfg
  handle : t.handle = s.handle
  sfdp : t.sfdp = s.sfdp
  port : t.port = s.port
  hostIn : t.hostIn = s.hostIn
  wire : s.wire <+: t.wire

theorem Quiet.refl (s : State) : Quiet s s := ⟨rfl, rfl, rfl, rfl, rfl, List.prefix_refl _⟩

theorem Quiet.trans {s t u : State} (h : Quiet s t) (k : Quiet t u) : Quiet s u :=
  ⟨k.cfg.trans h.cfg, k.handle.trans h.handle, k.sfdp.trans h.sfdp, k.port.trans h.port, k.hostIn.trans h.hostIn,
    h.wire.trans k.wire⟩

theorem Quiet.wireCtx {s t : State} (h : Quiet s t) : t.wireCtx = s.wireCtx := by
  simp [State.wireCtx, h.cfg, h.handle, h.sfdp]

theorem takeXfer_quiet (s : State) : Quiet s s.takeXfer.2 := by
  unfold State.takeXfer
  split <;> exact ⟨rfl, rfl, rfl, rfl, rfl, List.prefix_refl _⟩

theorem takeCount_quiet (s : State) : Quiet s s.takeCount.2 := by
  unfold State.takeCount
  split <;> exact ⟨rfl, rfl, rfl, rfl, rfl, List.prefix_refl _⟩

theorem takeRelease_quiet (s : State) : Quiet s s.takeRelease.2 := by
  unfold State.takeRelease
  split <;> exact ⟨rfl, rfl, rfl, rfl, rfl, List.prefix_refl _⟩

@[simp] theorem takeXfer_wire (s : State) : s.takeXfer.2.wire = s.wire := by
  unfold State.takeXfer; split <;> rfl

@[simp] theorem takeCount_wire (s : State) : s.takeCount.2.wire = s.wire := by
  unfold State.takeCount; split <;> rfl

@[simp] theorem takeRelease_wire (s : State) : s.takeRelease.2.wire = s.wire := by
  unfold State.takeRelease; split <;> rfl

@[simp] theorem takeXfer_work (s : State) : s.takeXfer.2.work = s.work := by
  unfold State.takeXfer; split <;> rfl

@[simp] theorem takeXfer_pending (s : State) : s.takeXfer.2.pending = s.pending := by
  unfold State.takeXfer; split <;> rfl

@[simp] theorem takeCount_work (s : State) : s.takeCount.2.work = s.work := by
  unfold State.takeCount; split <;> rfl

@[simp] theorem takeCount_pending (s : State) : s.takeCount.2.pending = s.pending := by
  unfold State.takeCount; split <;> rfl

@[simp] theorem takeRelease_work (s : State) : s.takeRelease.2.work = s.work := by
  unfold State.takeRelease; split <;> rfl

@[simp] theorem takeRelease_pending (s : State) : s.takeRelease.2.pending = s.pending := by
  unfold State.takeRelease; split <;> rfl

theorem record_quiet (r : Request) (a : Answer) (s : State) : Quiet s (s.record r a) :=
  ⟨rfl, rfl, rfl, rfl, rfl, List.prefix_append _ _⟩

theorem transport_quiet (r : Request) (s : State) : Quiet s (transport r s).2 := by
  cases r with
  | spiXfer d => exact (takeXfer_quiet s).trans (record_quiet _ _ _)
  | i2cWrite b w t => exact (takeCount_quiet s).trans (record_quiet _ _ _)
  | i2cWriteRead b w n t => exact (takeXfer_quiet s).trans (record_quiet _ _ _)
  | delay ms => exact record_quiet _ _ _
  | tdeinit => exact (takeRelease_quiet s).trans (record_quiet _ _ _)

@[simp] theorem transport_work (r : Request) (s : State) : (transport r s).2.work = s.work := by
  cases r <;> simp [transport]

@[simp] theorem transport_pending (r : Request) (s : State) : (transport r s).2.pending = s.pending := by
  cases r <;> simp [transport]

/-- One transport step records exactly one request, as issued in the state before it. -/
theorem transport_wire (r : Request) (s : State) :
    ∃ a, (transport r s).2.wire = s.wire ++ [⟨r, a, s.port.busy, s.sfdp.state, s.work⟩] := by
  cases r with
  | spiXfer d => exact ⟨_, by simp [transport, (takeXfer_quiet s).port, (takeXfer_quiet s).sfdp]; rfl⟩
  | i2cWrite b w t => exact ⟨_, by simp [transport, (takeCount_quiet s).port, (takeCount_quiet s).sfdp]; rfl⟩
  | i2cWriteRead b w n t => exact ⟨_, by simp [transport, (takeXfer_quiet s).port, (takeXfer_quiet s).sfdp]; rfl⟩
  | delay ms => exact ⟨_, rfl⟩
  | tdeinit => exact ⟨_, by simp [transport, (takeRelease_quiet s).port, (takeRelease_quiet s).sfdp]; rfl⟩

@[simp] theorem transport_requests (r : Request) (s : State) :
    (transport r s).2.requests = s.requests ++ [r] := by
  obtain ⟨a, h⟩ := transport_wire r s
  simp [State.requests, h]

/-- The state after a data-reading request answered by the first listed answer. -/
def State.afterXfer (s : State) (r : Request) (a : XferAnswer) (rest : List XferAnswer) : State :=
  { s with
    answers := { s.answers with xfer := rest }
    wire := s.wire ++ [⟨r, .xfer a, s.port.busy, s.sfdp.state, s.work⟩] }

/-- The state after an I2C write answered by the first listed answer. -/
def State.afterCount (s : State) (r : Request) (a : CountAnswer) (rest : List CountAnswer) : State :=
  { s with
    answers := { s.answers with count := rest }
    wire := s.wire ++ [⟨r, .count a, s.port.busy, s.sfdp.state, s.work⟩] }

theorem transport_spiXfer_listed (d : SpiXfer) (s : State) (a : XferAnswer) (rest : List XferAnswer)
    (h : s.answers.xfer = a :: rest) :
    transport (.spiXfer d) s = (a.result d.rlen, s.afterXfer (.spiXfer d) a rest) := by
  simp [transport, State.takeXfer, h, State.afterXfer, State.record]

theorem transport_i2cWriteRead_listed (b : Byte) (w : List Byte) (n t : Nat) (s : State) (a : XferAnswer)
    (rest : List XferAnswer) (h : s.answers.xfer = a :: rest) :
    transport (.i2cWriteRead b w n t) s = (a.result n, s.afterXfer (.i2cWriteRead b w n t) a rest) := by
  simp [transport, State.takeXfer, h, State.afterXfer, State.record]

theorem transport_i2cWrite_listed (b : Byte) (w : List Byte) (t : Nat) (s : State) (a : CountAnswer)
    (rest : List CountAnswer) (h : s.answers.count = a :: rest) :
    transport (.i2cWrite b w t) s = (a.result w.length, s.afterCount (.i2cWrite b w t) a rest) := by
  simp [transport, State.takeCount, h, State.afterCount, State.record]

theorem setWork_quiet (w : Option Work) (s : State) : Quiet s (s.setWork w) :=
  ⟨rfl, rfl, rfl, rfl, rfl, List.prefix_refl _⟩

theorem setPending_quiet (p : Pending) (s : State) : Quiet s (s.setPending p) :=
  ⟨rfl, rfl, rfl, rfl, rfl, List.prefix_refl _⟩

/-- What is due has no part in a transport step. -/
theorem transport_setPending (r : Request) (p : Pending) (s : State) :
    transport r (s.setPending p) = ((transport r s).1, (transport r s).2.setPending p) := by
  cases r with
  | spiXfer d => cases h : s.answers.xfer <;> simp [transport, State.takeXfer, h] <;> rfl
  | i2cWriteRead b w n t => cases h : s.answers.xfer <;> simp [transport, State.takeXfer, h] <;> rfl
  | i2cWrite b w t => cases h : s.answers.count <;> simp [transport, State.takeCount, h] <;> rfl
  | delay ms => rfl
  | tdeinit => cases h : s.answers.release <;> simp [transport, State.takeRelease, h] <;> rfl

end Sys2Proof.Machine
end

