-- ==== Sys2Proof/Laws/Success.lean ====
section
/-! SUPPORT. The transport step on a listed answer that succeeds or fails, in the terms of `Answers.success` and
`Answers.failure` (60_exceptions.md R306). -/

namespace Sys2Proof.Machine

theorem success_cons (r : Request) (rs : List Request) (a : Answers) :
    a.success (r :: rs) = (a.success [r]).bind (Answers.success rs) := by
  cases r <;> simp only [Answers.success] <;> (repeat' split) <;> simp_all

theorem success_append (l m : List Request) (a : Answers) :
    a.success (l ++ m) = (a.success l).bind (Answers.success m) := by
  induction l generalizing a with
  | nil => rfl
  | cons r rs ih =>
    rw [List.cons_append, success_cons, success_cons r rs]
    cases a.success [r] <;> simp [ih]

/-- A transport step whose listed answer succeeds. -/
theorem transport_success (r : Request) (s : State) (a : Answers) (h : s.answers.success [r] = some a) :
    (∃ d, (transport r s).1 = .okr d) ∧ (transport r s).2.answers = a := by
  cases r with
  | spiXfer d =>
    simp only [Answers.success] at h
    split at h
    · next data tl heq =>
      rw [transport_spiXfer_listed d s _ tl heq]
      split at h <;> simp_all [XferAnswer.result, State.afterXfer]
    · simp at h
  | i2cWriteRead b w n t =>
    simp only [Answers.success] at h
    split at h
    · next data tl heq =>
      rw [transport_i2cWriteRead_listed b w n t s _ tl heq]
      split at h <;> simp_all [XferAnswer.result, State.afterXfer]
    · simp at h
  | i2cWrite b w t =>
    simp only [Answers.success] at h
    split at h
    · next n tl heq =>
      rw [transport_i2cWrite_listed b w t s _ tl heq]
      split at h <;> simp_all [CountAnswer.result, State.afterCount]
    · simp at h
  | delay ms => simp_all [Answers.success, transport, State.record]
  | tdeinit =>
    simp only [Answers.success] at h
    split at h
    · next tl heq => simp_all [transport, State.takeRelease, State.record, ReleaseAnswer.result]
    · simp at h

/-- A transport step whose listed answer fails it. -/
theorem transport_failure (r : Request) (s : State) (e : Word32) (h : s.answers.failure r = some e) :
    (transport r s).1 = .bad e := by
  cases r with
  | spiXfer d =>
    simp only [Answers.failure] at h
    split at h
    · next data tl heq =>
      rw [transport_spiXfer_listed d s _ tl heq]
      split at h <;> simp_all [XferAnswer.result]
    · next e' tl heq =>
      rw [transport_spiXfer_listed d s _ tl heq]
      simp_all [XferAnswer.result]
    · simp at h
  | i2cWriteRead b w n t =>
    simp only [Answers.failure] at h
    split at h
    · next data tl heq =>
      rw [transport_i2cWriteRead_listed b w n t s _ tl heq]
      split at h <;> simp_all [XferAnswer.result]
    · next e' tl heq =>
      rw [transport_i2cWriteRead_listed b w n t s _ tl heq]
      simp_all [XferAnswer.result]
    · simp at h
  | i2cWrite b w t =>
    simp only [Answers.failure] at h
    split at h
    · next n tl heq =>
      rw [transport_i2cWrite_listed b w t s _ tl heq]
      split at h <;> simp_all [CountAnswer.result]
    · next e' tl heq =>
      rw [transport_i2cWrite_listed b w t s _ tl heq]
      simp_all [CountAnswer.result]
    · simp at h
  | delay ms => simp [Answers.failure] at h
  | tdeinit =>
    simp only [Answers.failure] at h
    split at h
    · next tl heq => simp_all [transport, State.takeRelease, ReleaseAnswer.result]
    · simp at h

end Sys2Proof.Machine
end

