-- ==== Sys2Proof/Laws/Jobs.lean ====
section
/-! SUPPORT. Commands with jobs, from one request to the next (00_scope.md R3, 40_codec.md R174): what one step can do,
what the steps do when the listed answers succeed or when one fails, and that the last request comes whatever the
answers. -/

namespace Sys2Proof.Machine

/-! ### Steps in a row -/

theorem carryOn_add (m n : Nat) (s : State) : carryOn (m + n) s = carryOn n (carryOn m s) := by
  induction m generalizing s with
  | zero => rw [Nat.zero_add]; rfl
  | succ m ih => rw [Nat.succ_add]; exact ih s.advance

/-- `t` is `s` or a later state of the command in progress. -/
def Leads (s t : State) : Prop := ∃ n, carryOn n s = t

theorem Leads.refl (s : State) : Leads s s := ⟨0, rfl⟩

theorem Leads.trans {s t u : State} (h : Leads s t) (k : Leads t u) : Leads s u := by
  obtain ⟨m, rfl⟩ := h
  obtain ⟨n, rfl⟩ := k
  exact ⟨m + n, carryOn_add m n s⟩

theorem Leads.step {s t : State} (h : Leads s.advance t) : Leads s t := by
  obtain ⟨n, rfl⟩ := h
  exact ⟨n + 1, rfl⟩

theorem advance_idle {s : State} (h : s.pending = none) : s.advance = s := by simp [State.advance, h]

theorem carryOn_idle {s : State} (h : s.pending = none) (n : Nat) : carryOn n s = s := by
  induction n with
  | zero => rfl
  | succ n ih => rw [carryOn, advance_idle h, ih]

/-- A finished command goes nowhere. -/
theorem Leads.idle {s t : State} (h : s.pending = none) (k : Leads s t) : t = s := by
  obtain ⟨n, rfl⟩ := k
  exact carryOn_idle h n

/-- What holds and is kept by every step holds from then on. -/
theorem Leads.keeps {P : State → Prop} (hstep : ∀ u, P u → P u.advance) {s t : State} (h : Leads s t) (hs : P s) :
    P t := by
  obtain ⟨n, rfl⟩ := h
  induction n generalizing s with
  | zero => exact hs
  | succ n ih => exact ih (hstep s hs)

/-- The first step of a run to a finish. -/
theorem Leads.advance {s t : State} (h : Leads s t) (ht : t.pending = none) : Leads s.advance t := by
  obtain ⟨n, rfl⟩ := h
  cases n with
  | zero => rw [carryOn] at ht ⊢; rw [advance_idle ht]; exact Leads.refl s
  | succ n => exact ⟨n, rfl⟩

/-- A command whose first step is the first step of a state that is due. -/
theorem completes_of_leads {i : Instr} {s u t : State} (h : exec i s = .next u.advance) (k : Leads u t)
    (ht : t.pending = none) : Completes i s t := by
  obtain ⟨n, hn⟩ := k.advance ht
  exact ⟨⟨_, n, h, hn⟩, ht⟩

/-- A command that finishes in its first step. -/
theorem completes_of_exec {i : Instr} {s t : State} (h : exec i s = .next t) (ht : t.pending = none) :
    Completes i s t := ⟨⟨t, 0, h, rfl⟩, ht⟩

theorem reaches_iff {i : Instr} {s t : State} : Reaches i s t ↔ ∃ u, exec i s = .next u ∧ Leads u t := by
  constructor
  · rintro ⟨u, n, h, hn⟩; exact ⟨u, h, n, hn⟩
  · rintro ⟨u, h, n, hn⟩; exact ⟨u, n, h, hn⟩

/-- A command leaves one state. -/
theorem Completes.unique {i : Instr} {s t u : State} (h : Completes i s t) (k : Completes i s u) : t = u := by
  obtain ⟨⟨v, m, hv, hm⟩, ht⟩ := h
  obtain ⟨⟨w, n, hw, hn⟩, hu⟩ := k
  rw [hv] at hw
  cases hw
  rcases Nat.le_total m n with hle | hle
  · obtain ⟨d, rfl⟩ := Nat.exists_eq_add_of_le hle
    rw [carryOn_add, hm, carryOn_idle ht] at hn
    exact hn
  · obtain ⟨d, rfl⟩ := Nat.exists_eq_add_of_le hle
    rw [carryOn_add, hn, carryOn_idle hu] at hm
    exact hm.symm

/-! ### What a run leaves unchanged -/

/-- From `s` to `t` no register but PROGRESS changed, and the wire only grew. -/
structure QuietErase (s t : State) : Prop where
  cfg : t.cfg = s.cfg
  handle : t.handle = { s.handle with progress := t.handle.progress }
  sfdp : t.sfdp = s.sfdp
  port : t.port = s.port
  hostIn : t.hostIn = s.hostIn
  wire : s.wire <+: t.wire

theorem Quiet.erase {s t : State} (h : Quiet s t) : QuietErase s t :=
  ⟨h.cfg, by rw [h.handle], h.sfdp, h.port, h.hostIn, h.wire⟩

theorem QuietErase.refl (s : State) : QuietErase s s := (Quiet.refl s).erase

theorem QuietErase.trans {s t u : State} (h : QuietErase s t) (k : QuietErase t u) : QuietErase s u :=
  ⟨k.cfg.trans h.cfg, by rw [k.handle, h.handle], k.sfdp.trans h.sfdp, k.port.trans h.port, k.hostIn.trans h.hostIn,
    h.wire.trans k.wire⟩

theorem QuietErase.wireCtx {s t : State} (h : QuietErase s t) : t.wireCtx = s.wireCtx := by
  have := h.handle
  simp only [State.wireCtx, h.cfg, h.sfdp]
  rw [this]

theorem setProgress_quietErase (n : Word32) (s : State) : QuietErase s (s.setProgress n) :=
  ⟨rfl, rfl, rfl, rfl, rfl, List.prefix_refl _⟩

theorem endJob_quietErase (j : Job) (s : State) : QuietErase s (s.endJob j) := by
  unfold State.endJob
  split
  · exact setProgress_quietErase _ s
  · exact QuietErase.refl s

@[simp] theorem endJob_requests (j : Job) (s : State) : (s.endJob j).requests = s.requests := by
  unfold State.endJob; split <;> rfl

@[simp] theorem endJob_answers (j : Job) (s : State) : (s.endJob j).answers = s.answers := by
  unfold State.endJob; split <;> rfl

@[simp] theorem endJob_wire (j : Job) (s : State) : (s.endJob j).wire = s.wire := by
  unfold State.endJob; split <;> rfl

/-- `finishCount` is `finish` of a state that differs in the counter of drawn values at most (R302, log 5). -/
theorem finishCount_ends (n : Nat) (s : State) :
    ∃ u v, s.finishCount n = u.finish v ∧ Quiet s u ∧ u.wire = s.wire ∧ u.answers = s.answers := by
  rcases s.finishCount_cases n with h | h
  · exact ⟨s, _, h, Quiet.refl s, rfl, rfl⟩
  · exact ⟨{ s with drawn := s.drawn + 1 }, _, h, ⟨rfl, rfl, rfl, rfl, rfl, List.prefix_refl _⟩, rfl, rfl⟩

/-- A failing job finishes its command and changes no other register. -/
theorem failJob_ends (g : Goal) (j : Job) (e : Word32) (s : State) :
    ∃ u v, s.failJob g j e = u.finish v ∧ Quiet s u ∧ u.wire = s.wire := by
  unfold State.failJob
  cases g with
  | write p n =>
    dsimp only
    split
    · obtain ⟨u, v, h, q, w, -⟩ := finishCount_ends j.done s
      exact ⟨u, v, h, q, w⟩
    · exact ⟨s, e, rfl, Quiet.refl s, rfl⟩
  | erasePage => exact ⟨s, e, rfl, Quiet.refl s, rfl⟩
  | erase => exact ⟨s, e, rfl, Quiet.refl s, rfl⟩

/-- After the last job the command finishes; only ERASE_PAGE then writes PROGRESS. -/
theorem endJobs_ends (g : Goal) (s : State) :
    ∃ u v, s.endJobs g = u.finish v ∧ QuietErase s u ∧ u.wire = s.wire ∧ ((∃ p n, g = .write p n) → Quiet s u) := by
  cases g with
  | write p n =>
    obtain ⟨u, v, h, q, w, -⟩ := finishCount_ends n s
    exact ⟨u, v, h, q.erase, w, fun _ => q⟩
  | erasePage => exact ⟨s.setProgress 1#32, _, rfl, setProgress_quietErase _ s, rfl, fun ⟨_, _, h⟩ => by cases h⟩
  | erase => exact ⟨s, _, rfl, QuietErase.refl s, rfl, fun _ => Quiet.refl s⟩

/-! ### One step -/

/-- Everything one step of a command with jobs can do: the request due fails, or the job goes on, or the next job falls
due (R174). -/
theorem stepJob_cases (j : Job) (rest : List Job) (g : Goal) (s : State) :
    (∃ e, stepJob j rest g s = (transport j.due s).2.failJob g j e) ∨
      (∃ r more, j.more = r :: more ∧
        stepJob j rest g s = (transport j.due s).2.setPending (.jobs { j with due := r, more := more } rest g)) ∨
      (j.more = [] ∧ stepJob j rest g s = ((transport j.due s).2.endJob j).nextJob rest g) := by
  unfold stepJob
  rcases transport j.due s with ⟨_ | e, s1⟩
  · cases h : j.more with
    | nil => exact .inr (.inr ⟨rfl, rfl⟩)
    | cons r more => exact .inr (.inl ⟨r, more, rfl, rfl⟩)
  · exact .inl ⟨e, rfl⟩

theorem advance_jobs {s : State} {j : Job} {rest : List Job} {g : Goal} (h : s.pending = some (.jobs j rest g)) :
    s.advance = stepJob j rest g s := by simp [State.advance, h]

/-- The step that accepts a command with jobs is the first step of the jobs. -/
theorem nextJob_issueJob (jobs : List Job) (g : Goal) (s : State) :
    (s.nextJob jobs g).issueJob = (s.nextJob jobs g).advance := by
  cases jobs with
  | nil =>
    obtain ⟨u, v, h, -⟩ := endJobs_ends g s
    simp [State.nextJob, h, State.issueJob, State.advance]
  | cons j rest => rfl

theorem raise_issueJob (e : ErrorName) (s : State) : (s.raise e).issueJob = (s.raise e).advance := rfl

theorem nextJob_cons_pending (j : Job) (rest : List Job) (g : Goal) (s : State) :
    (s.nextJob (j :: rest) g).pending = some (.jobs j rest g) := rfl

/-! ### Successful answers -/

/-- `Ran s t reqs rest`: from `s` to `t` exactly these requests were issued, no register but PROGRESS changed, and these
answers are left. -/
structure Ran (s t : State) (reqs : List Request) (rest : Answers) : Prop where
  quiet : QuietErase s t
  requests : t.requests = s.requests ++ reqs
  answers : t.answers = rest

theorem Ran.trans {s t u : State} {l m : List Request} {a b : Answers} (h : Ran s t l a) (k : Ran t u m b) :
    Ran s u (l ++ m) b :=
  ⟨h.quiet.trans k.quiet, by rw [k.requests, h.requests, List.append_assoc], k.answers⟩

/-- One job whose answers all succeed (R174). -/
theorem job_success {j : Job} {rest : List Job} {g : Goal} {s : State} {a : Answers}
    (hp : s.pending = some (.jobs j rest g)) (h : s.answers.success j.requests = some a) :
    ∃ t, Leads s ((t.endJob j).nextJob rest g) ∧ Quiet s t ∧ t.requests = s.requests ++ j.requests ∧ t.answers = a := by
  obtain ⟨due, more, w, done, counts⟩ := j
  induction more generalizing due s a with
  | nil =>
    obtain ⟨⟨d, hd⟩, ha⟩ := transport_success due s a h
    refine ⟨(transport due s).2, Leads.step ?_, transport_quiet _ _, by simp [Job.requests], ha⟩
    have : s.advance = ((transport due s).2.endJob ⟨due, [], w, done, counts⟩).nextJob rest g := by
      rw [advance_jobs hp, stepJob]
      rcases htr : transport due s with ⟨r, s1⟩
      rw [htr] at hd; dsimp only at hd; subst hd; rfl
    rw [this]; exact Leads.refl _
  | cons r more ih =>
    rw [Job.requests, success_cons] at h
    obtain ⟨a1, h1, h2⟩ := Option.bind_eq_some_iff.mp h
    obtain ⟨⟨d, hd⟩, ha⟩ := transport_success due s a1 h1
    have hadv : s.advance = (transport due s).2.setPending (.jobs ⟨r, more, w, done, counts⟩ rest g) := by
      rw [advance_jobs hp, stepJob]
      rcases htr : transport due s with ⟨r', s1⟩
      rw [htr] at hd; dsimp only at hd; subst hd; rfl
    have hq : Quiet s s.advance := by rw [hadv]; exact (transport_quiet due s).trans (setPending_quiet _ _)
    have hr : s.advance.requests = s.requests ++ [due] := by rw [hadv]; exact transport_requests due s
    obtain ⟨t, hl, q, hreq, hans⟩ :=
      ih (s := s.advance) (due := r) (a := a) (by rw [hadv]; rfl)
        (by rw [hadv, State.setPending_answers, ha]; exact h2)
    exact ⟨t, hl.step, hq.trans q, by rw [hreq, hr]; simp [Job.requests], hans⟩

/-- One job with a request that fails: no request after it (R174, R194). -/
theorem job_failure {j : Job} {rest : List Job} {g : Goal} {s : State} {a : Answers} {r : Request} {e : Word32}
    {before after : List Request} (hp : s.pending = some (.jobs j rest g)) (hj : j.requests = before ++ r :: after)
    (h : s.answers.success before = some a) (hf : a.failure r = some e) :
    ∃ t, Leads s (t.failJob g j e) ∧ Quiet s t ∧ t.requests = s.requests ++ (before ++ [r]) := by
  obtain ⟨due, more, w, done, counts⟩ := j
  induction before generalizing due more s with
  | nil =>
    cases h
    obtain ⟨rfl, rfl⟩ : due = r ∧ more = after := by simpa [Job.requests] using hj
    have hb := transport_failure due s e hf
    refine ⟨(transport due s).2, Leads.step ?_, transport_quiet _ _, by simp⟩
    have : s.advance = (transport due s).2.failJob g ⟨due, more, w, done, counts⟩ e := by
      rw [advance_jobs hp, stepJob]
      rcases htr : transport due s with ⟨r, s1⟩
      rw [htr] at hb; dsimp only at hb; subst hb; rfl
    rw [this]; exact Leads.refl _
  | cons b bs ih =>
    obtain ⟨rfl, rfl⟩ : due = b ∧ more = bs ++ r :: after := by simpa [Job.requests] using hj
    rw [success_cons] at h
    obtain ⟨a1, h1, h2⟩ := Option.bind_eq_some_iff.mp h
    obtain ⟨⟨d, hd⟩, ha⟩ := transport_success due s a1 h1
    obtain ⟨x, xs, hx⟩ : ∃ x xs, bs ++ r :: after = x :: xs := by
      cases bs with
      | nil => exact ⟨r, after, rfl⟩
      | cons x xs => exact ⟨x, xs ++ r :: after, rfl⟩
    have hadv : s.advance = (transport due s).2.setPending (.jobs ⟨x, xs, w, done, counts⟩ rest g) := by
      rw [advance_jobs hp, stepJob]
      rcases htr : transport due s with ⟨r', s1⟩
      rw [htr] at hd; dsimp only at hd; subst hd
      simp only [hx]
    have hq : Quiet s s.advance := by rw [hadv]; exact (transport_quiet due s).trans (setPending_quiet _ _)
    have hr : s.advance.requests = s.requests ++ [due] := by rw [hadv]; exact transport_requests due s
    obtain ⟨t, hl, q, hreq⟩ :=
      ih (s := s.advance) (due := x) (more := xs) (by rw [hadv, State.setPending_answers, ha]; exact h2)
        (by rw [hadv]; rfl) (by simp [Job.requests, hx])
    exact ⟨t, hl.step, hq.trans q, by rw [hreq, hr]; simp⟩

/-- PROGRESS counts the jobs that count (R231). -/
def countOf (jobs : List Job) : Nat := jobs.countP Job.counts

@[simp] theorem countOf_nil : countOf [] = 0 := rfl

@[simp] theorem countOf_append (l m : List Job) : countOf (l ++ m) = countOf l + countOf m := List.countP_append

theorem countOf_cons (j : Job) (l : List Job) : countOf (j :: l) = (if j.counts then 1 else 0) + countOf l := by
  rw [countOf, List.countP_cons, countOf]; omega

theorem endJob_progress (j : Job) (s : State) :
    (s.endJob j).handle.progress = s.handle.progress + BitVec.ofNat 32 (if j.counts then 1 else 0) := by
  unfold State.endJob; split <;> simp

/-- The jobs before a point all succeed: the command goes on from there. -/
theorem jobs_success (before after : List Job) (g : Goal) (s : State) (a : Answers)
    (h : s.answers.success (before.flatMap Job.requests) = some a) :
    ∃ t, Leads (s.nextJob (before ++ after) g) (t.nextJob after g) ∧ Ran s t (before.flatMap Job.requests) a ∧
      t.handle.progress = s.handle.progress + BitVec.ofNat 32 (countOf before) := by
  induction before generalizing s with
  | nil =>
    cases h
    exact ⟨s, Leads.refl _, ⟨QuietErase.refl s, by simp, rfl⟩, by simp⟩
  | cons j rest ih =>
    rw [List.flatMap_cons, success_append] at h
    obtain ⟨a1, h1, h2⟩ := Option.bind_eq_some_iff.mp h
    obtain ⟨t1, hl1, q1, hr1, ha1⟩ :=
      job_success (s := s.nextJob (j :: (rest ++ after)) g) (nextJob_cons_pending j (rest ++ after) g s) (a := a1) h1
    obtain ⟨t, hl, hran, hpro⟩ := ih (t1.endJob j) (by rw [endJob_answers, ha1]; exact h2)
    have q0 : QuietErase s t1 := ((setWork_quiet _ s).trans (setPending_quiet _ _)).erase.trans q1.erase
    refine ⟨t, hl1.trans hl, ⟨(q0.trans (endJob_quietErase j t1)).trans hran.quiet, ?_, hran.answers⟩, ?_⟩
    · rw [hran.requests, endJob_requests, hr1, List.flatMap_cons, List.append_assoc]; rfl
    · rw [hpro, endJob_progress, q1.handle, countOf_cons, BitVec.ofNat_add, ← BitVec.add_assoc]; rfl

/-- The jobs before a point all succeed, and the job at it fails. -/
theorem jobs_failure (before after : List Job) (j : Job) (g : Goal) (s : State) (a a1 : Answers) (r : Request)
    (e : Word32) (sent later : List Request) (h : s.answers.success (before.flatMap Job.requests) = some a)
    (hj : j.requests = sent ++ r :: later) (h1 : a.success sent = some a1) (hf : a1.failure r = some e) :
    ∃ t, Leads (s.nextJob (before ++ j :: after) g) (t.failJob g j e) ∧ QuietErase s t ∧
      t.requests = s.requests ++ before.flatMap Job.requests ++ (sent ++ [r]) ∧
      t.handle.progress = s.handle.progress + BitVec.ofNat 32 (countOf before) := by
  obtain ⟨u, hl, hran, hpro⟩ := jobs_success before (j :: after) g s a h
  obtain ⟨t, hl2, q, hr⟩ := job_failure (s := u.nextJob (j :: after) g) (nextJob_cons_pending j after g u) hj
    (by simpa [State.nextJob, hran.answers] using h1) hf
  have q0 : Quiet u t := ((setWork_quiet _ u).trans (setPending_quiet _ _)).trans q
  refine ⟨t, hl.trans hl2, hran.quiet.trans q0.erase, ?_, by rw [q0.handle]; exact hpro⟩
  rw [hr, ← hran.requests]; rfl

/-! ### Whatever the answers -/

/-- A command with jobs comes to its finish. -/
theorem jobs_complete (jobs : List Job) (g : Goal) (s : State) :
    ∃ t, Leads (s.nextJob jobs g) t ∧ t.pending = none := by
  induction jobs generalizing s with
  | nil =>
    obtain ⟨u, v, h, -⟩ := endJobs_ends g s
    exact ⟨_, Leads.refl _, by simp [State.nextJob, h]⟩
  | cons j rest ih =>
    have key : ∀ (more : List Request) (due : Request) (u : State),
        u.pending = some (.jobs { j with due := due, more := more } rest g) → ∃ t, Leads u t ∧ t.pending = none := by
      intro more
      induction more with
      | nil =>
        intro due u hu
        have hadv := advance_jobs hu
        rcases stepJob_cases { j with due := due, more := [] } rest g u with ⟨e, h⟩ | ⟨r, m, hm, -⟩ | ⟨-, h⟩
        · obtain ⟨w, v, hw, -⟩ := failJob_ends g { j with due := due, more := [] } e (transport due u).2
          exact ⟨u.advance, (Leads.refl _).step, by rw [hadv, h, hw]; rfl⟩
        · cases hm
        · obtain ⟨t, hl, ht⟩ := ih ((transport due u).2.endJob { j with due := due, more := [] })
          exact ⟨t, Leads.step (by rw [hadv, h]; exact hl), ht⟩
      | cons r more ihm =>
        intro due u hu
        have hadv := advance_jobs hu
        rcases stepJob_cases { j with due := due, more := r :: more } rest g u with ⟨e, h⟩ | ⟨r', m', hm, h⟩ | ⟨hm, -⟩
        · obtain ⟨w, v, hw, -⟩ := failJob_ends g { j with due := due, more := r :: more } e (transport due u).2
          exact ⟨u.advance, (Leads.refl _).step, by rw [hadv, h, hw]; rfl⟩
        · obtain ⟨rfl, rfl⟩ : r = r' ∧ more = m' := by simpa using hm
          obtain ⟨t, hl, ht⟩ := ihm r u.advance (by rw [hadv, h]; rfl)
          exact ⟨t, hl.step, ht⟩
        · cases hm
    exact key j.more j.due _ rfl

/-- Where a command with jobs can be, from `s` on: in progress, or finished. No register but PROGRESS differs; for WRITE
not that either. -/
def Underway (s u : State) : Prop :=
  (∃ j rest g, u.pending = some (.jobs j rest g) ∧ QuietErase s u) ∨ ∃ w v, u = w.finish v ∧ QuietErase s w

theorem nextJob_underway {s t : State} (jobs : List Job) (g : Goal) (q : QuietErase s t) :
    Underway s (t.nextJob jobs g) := by
  cases jobs with
  | nil =>
    obtain ⟨u, v, h, q', -⟩ := endJobs_ends g t
    exact .inr ⟨u, v, h, q.trans q'⟩
  | cons j rest => exact .inl ⟨j, rest, g, rfl, q.trans ((setWork_quiet _ t).trans (setPending_quiet _ _)).erase⟩

theorem advance_underway {s u : State} (h : Underway s u) : Underway s u.advance := by
  rcases h with ⟨j, rest, g, hp, q⟩ | ⟨w, v, rfl, q⟩
  · rw [advance_jobs hp]
    have q1 := q.trans (transport_quiet j.due u).erase
    rcases stepJob_cases j rest g u with ⟨e, h⟩ | ⟨r, m, -, h⟩ | ⟨-, h⟩
    · obtain ⟨w, v, hw, q2, -⟩ := failJob_ends g j e (transport j.due u).2
      exact .inr ⟨w, v, h.trans hw, q1.trans q2.erase⟩
    · rw [h]; exact .inl ⟨_, rest, g, rfl, q1.trans (setPending_quiet _ _).erase⟩
    · rw [h]; exact nextJob_underway rest g (q1.trans (endJob_quietErase j _))
  · exact .inr ⟨w, v, rfl, q⟩

/-- As `Underway`, for a WRITE: PROGRESS stays as well. -/
def UnderwayWrite (s u : State) : Prop :=
  (∃ j rest p n, u.pending = some (.jobs j rest (.write p n)) ∧ (∀ k ∈ j :: rest, k.counts = false) ∧ Quiet s u) ∨
    ∃ w v, u = w.finish v ∧ Quiet s w

theorem nextJob_underwayWrite {s t : State} (jobs : List Job) (p : Bool) (n : Nat)
    (hj : ∀ k ∈ jobs, k.counts = false) (q : Quiet s t) : UnderwayWrite s (t.nextJob jobs (.write p n)) := by
  cases jobs with
  | nil =>
    obtain ⟨u, v, h, -, -, q'⟩ := endJobs_ends (.write p n) t
    exact .inr ⟨u, v, h, q.trans (q' ⟨p, n, rfl⟩)⟩
  | cons j rest => exact .inl ⟨j, rest, p, n, rfl, hj, q.trans ((setWork_quiet _ t).trans (setPending_quiet _ _))⟩

theorem advance_underwayWrite {s u : State} (h : UnderwayWrite s u) : UnderwayWrite s u.advance := by
  rcases h with ⟨j, rest, p, n, hp, hj, q⟩ | ⟨w, v, rfl, q⟩
  · rw [advance_jobs hp]
    have q1 := q.trans (transport_quiet j.due u)
    rcases stepJob_cases j rest (.write p n) u with ⟨e, h⟩ | ⟨r, m, -, h⟩ | ⟨-, h⟩
    · obtain ⟨w, v, hw, q2, -⟩ := failJob_ends (.write p n) j e (transport j.due u).2
      exact .inr ⟨w, v, h.trans hw, q1.trans q2⟩
    · rw [h]
      refine .inl ⟨_, rest, p, n, rfl, ?_, q1.trans (setPending_quiet _ _)⟩
      intro k hk
      rcases List.mem_cons.mp hk with rfl | hk
      · exact hj j (List.mem_cons_self ..)
      · exact hj k (List.mem_cons_of_mem _ hk)
    · have he : (transport j.due u).2.endJob j = (transport j.due u).2 := by
        simp [State.endJob, hj j (List.mem_cons_self ..)]
      rw [h, he]
      exact nextJob_underwayWrite rest p n (fun k hk => hj k (List.mem_cons_of_mem _ hk)) q1
  · exact .inr ⟨w, v, rfl, q⟩

end Sys2Proof.Machine
end

