-- ==== Sys2Proof/Laws/Discovery.lean ====
section
/-! SUPPORT. SFDP discovery: what an answer and a parse can give, and everything the two steps of DISCOVERY can do
(43_sfdp.md R241 to R263), said once for the three commands it runs in. -/

namespace Sys2Proof.Machine

/-! ### Answers (R306) -/

theorem negCode_neg (e : NegCode) : e.code.toInt < 0 := by
  rw [BitVec.toInt_neg_iff, NegCode.code, BitVec.toNat_append]
  simp only [BitVec.toNat_ofNat, Nat.shiftLeft_eq]
  have := Nat.left_le_or (n := 1 % 2 ^ 1 * 2 ^ 31) (m := e.low.toNat)
  omega

theorem fail_neg : ErrorName.fail.code.toInt < 0 := by decide

theorem xferResult_bad {n : Nat} {a : XferAnswer} {c : Word32} (h : a.result n = .bad c) : c.toInt < 0 := by
  cases a with
  | ok d =>
    simp only [XferAnswer.result] at h
    split at h
    · cases h
    · cases h; exact fail_neg
  | err e => cases h; exact negCode_neg e

theorem xferResult_okr {n : Nat} {a : XferAnswer} {d : List Byte} (h : a.result n = .okr d) : d.length = n := by
  cases a with
  | ok d' =>
    simp only [XferAnswer.result] at h
    split at h
    · next hl => cases h; exact hl
    · cases h
  | err e => cases h

theorem countResult_bad {n : Nat} {a : CountAnswer} {c : Word32} (h : a.result n = .bad c) : c.toInt < 0 := by
  cases a with
  | ok d =>
    simp only [CountAnswer.result] at h
    split at h
    · cases h
    · cases h; exact fail_neg
  | err e => cases h; exact negCode_neg e

/-- Whatever fails a transport step, its code is negative. -/
theorem transport_bad_neg {r : Request} {s : State} {c : Word32} (h : (transport r s).1 = .bad c) : c.toInt < 0 := by
  cases r with
  | spiXfer d => exact xferResult_bad h
  | i2cWriteRead b w n t => exact xferResult_bad h
  | i2cWrite b w t => exact countResult_bad h
  | delay ms => cases h
  | tdeinit =>
    simp only [transport] at h
    cases hr : s.takeRelease.1 <;> simp only [hr, ReleaseAnswer.result] at h <;> cases h
    exact fail_neg

/-- An SPI exchange that succeeds delivers the bytes asked for. -/
theorem transport_spi_length {d : SpiXfer} {s : State} {data : List Byte}
    (h : (transport (.spiXfer d) s).1 = .okr data) : data.length = d.rlen := xferResult_okr h

/-! ### The parsers -/

theorem parseHeader_error_neg {h : List Byte} {e : ErrorName} (he : parseHeader h = .error e) : e.code.toInt < 0 := by
  unfold parseHeader at he
  repeat' split at he
  all_goals cases he
  all_goals decide

theorem parseTable_error {p : Params} {t : List Byte} {e : ErrorName} (he : parseTable p t = .error e) :
    e = .sfdpInvalidHeader := by
  unfold parseTable at he
  repeat' split at he
  all_goals cases he
  all_goals rfl

/-- A table that is accepted gives 3 or 4 address bytes and a page of 1 or 64 bytes (R255, R256). -/
theorem parseTable_ok {p : Params} {t : List Byte} {tb : Table} (h : parseTable p t = .ok tb) :
    (tb.ab = 3#8 ∨ tb.ab = 4#8) ∧ (tb.gran = 1#8 ∨ tb.gran = 64#8) := by
  unfold parseTable at h
  split at h
  · cases h
  split at h
  · cases h
  split at h
  · cases h
  split at h
  · cases h
  next ab hab =>
  split at h
  · cases h
  cases h
  refine ⟨?_, ?_⟩
  · unfold addrBytesOf at hab
    split at hab <;> (try split at hab) <;> simp_all
  · dsimp only
    split <;> simp

/-- An accepted header asks for a table of 8 to 1020 bytes, a multiple of 4 (R246, R247). -/
theorem parseHeader_ok_size {h : List Byte} {hd : Header} (he : parseHeader h = .ok hd) :
    8 ≤ hd.ps.toNat ∧ hd.ps.toNat ≤ 1020 ∧ hd.ps.toNat % 4 = 0 := by
  unfold parseHeader at he
  split at he
  · cases he
  split at he
  · cases he
  split at he
  · cases he
  cases he
  have := (byteAt h 11).isLt
  simp only [BitVec.toNat_ofNat]
  omega

/-! ### DISCOVERY -/

/-- From `s` to `t` the parameters, the port, the working registers and the host's events are the same, and the wire
grew by these requests. -/
structure Reads (s t : State) (reqs : List Request) : Prop where
  cfg : t.cfg = s.cfg
  port : t.port = s.port
  work : t.work = s.work
  hostIn : t.hostIn = s.hostIn
  wire : s.wire <+: t.wire
  requests : t.requests = s.requests ++ reqs

theorem Reads.trans {s t u : State} {l m : List Request} (h : Reads s t l) (k : Reads t u m) : Reads s u (l ++ m) :=
  ⟨k.cfg.trans h.cfg, k.port.trans h.port, k.work.trans h.work, k.hostIn.trans h.hostIn, h.wire.trans k.wire,
    by rw [k.requests, h.requests, List.append_assoc]⟩

theorem transport_reads (r : Request) (s : State) : Reads s (transport r s).2 [r] :=
  have q := transport_quiet r s
  ⟨q.cfg, q.port, transport_work r s, q.hostIn, q.wire, transport_requests r s⟩

/-- A step that only writes the handle or the SFDP registers. -/
theorem reads_nil {s t : State} (h1 : t.cfg = s.cfg) (h2 : t.port = s.port) (h3 : t.work = s.work)
    (h4 : t.hostIn = s.hostIn) (h5 : t.wire = s.wire) : Reads s t [] :=
  ⟨h1, h2, h3, h4, by rw [h5], by simp [State.requests, h5]⟩

/-- How a discovery that fails leaves the registers (R263). -/
structure DiscoveryFailed (s t : State) : Prop where
  handle : t.handle = { s.handle with hstate := .bound }
  sfdp : t.sfdp = { s.sfdp with state := .failed, hdrBuf := t.sfdp.hdrBuf, ptBuf := t.sfdp.ptBuf }
  hdrLength : s.sfdp.hdrBuf.length = 15 → t.sfdp.hdrBuf.length = 15
  ptLength : s.sfdp.ptBuf.length = 8 → t.sfdp.ptBuf.length = 8

/-- How a discovery that succeeds leaves the registers (R261, R262). -/
structure DiscoveryParsed (s t : State) (h tab : List Byte) (hd : Header) (tb : Table) : Prop where
  header : parseHeader h = .ok hd
  table : parseTable s.cfg tab = .ok tb
  hdrLength : h.length = 15
  ptLength : tab.length = 8
  handle : t.handle =
    { s.handle with
      hstate := .ready, size := tb.bytes, addrLen := 8#8 * tb.ab, pageSize := tb.gran.setWidth 32
      writeDelayMs := s.cfg.norPageDelayMs }
  sfdp : t.sfdp =
    { state := .parsed, hdrVer := hd.hv, hdrCount := hd.hc, ptVer := hd.pv, ptSize := hd.ps, ptPtr := hd.pp
      writeGran := tb.gran, erase4kOp := tb.e4k, addrBytes := tb.ab, dtr := tb.dtr, arraySize := tb.bytes
      hdrBuf := h, ptBuf := tab }

theorem discoveryFailed_reads (s : State) : Reads s s.discoveryFailed [] := reads_nil rfl rfl rfl rfl rfl

/-- Everything the first step of a discovery can do; the command it runs in has no part in it (R241 to R248). -/
theorem readHeader_cases (s : State) :
    (∃ c u, c.toInt < 0 ∧ Reads s u [s.wireCtx.fRdsfdp 0 15] ∧ DiscoveryFailed s u ∧
      ∀ who, readHeader who s = u.endDiscovery who (some c)) ∨
    (∃ h hd u, parseHeader h = .ok hd ∧ h.length = 15 ∧ Reads s u [s.wireCtx.fRdsfdp 0 15] ∧ u.handle = s.handle ∧
      u.sfdp = { s.sfdp with state := .headerRead, hdrBuf := h } ∧ ∀ who, readHeader who s = u.setPending (.table who hd)) := by
  have hreads : Reads s (transport (s.wireCtx.fRdsfdp 0 15) (s.setSfdpState .headerRead)).2
      [s.wireCtx.fRdsfdp 0 15] :=
    (reads_nil (s := s) (t := s.setSfdpState .headerRead) rfl rfl rfl rfl rfl).trans (transport_reads _ _)
  have hq := transport_quiet (s.wireCtx.fRdsfdp 0 15) (s.setSfdpState .headerRead)
  have hlen : ∀ data, (transport (s.wireCtx.fRdsfdp 0 15) (s.setSfdpState .headerRead)).1 = .okr data →
      data.length = 15 := fun data h => transport_spi_length h
  have hbad : ∀ c, (transport (s.wireCtx.fRdsfdp 0 15) (s.setSfdpState .headerRead)).1 = .bad c → c.toInt < 0 :=
    fun c h => transport_bad_neg h
  have hctx : (s.setSfdpState .headerRead).wireCtx = s.wireCtx := rfl
  unfold readHeader
  simp only [hctx]
  rcases htr : transport (s.wireCtx.fRdsfdp 0 15) (s.setSfdpState .headerRead) with ⟨r, s1⟩
  rw [htr] at hreads hq hlen hbad
  have hh1 : s1.handle = s.handle := hq.handle
  have hs1 : s1.sfdp = { s.sfdp with state := .headerRead } := hq.sfdp
  cases r with
  | bad c =>
    refine .inl ⟨c, s1.discoveryFailed, hbad c rfl, hreads.trans (discoveryFailed_reads s1), ?_, fun who => rfl⟩
    exact ⟨by simp [State.discoveryFailed, hh1], by simp [State.discoveryFailed, hs1],
      by simp [State.discoveryFailed, hs1], by simp [State.discoveryFailed, hs1]⟩
  | okr h =>
    have hl := hlen h rfl
    have hr2 := hreads.trans (reads_nil (t := s1.setHdrBuf h) rfl rfl rfl rfl rfl)
    dsimp only
    cases hph : parseHeader h with
    | error e =>
      refine .inl ⟨e.code, (s1.setHdrBuf h).discoveryFailed, parseHeader_error_neg hph,
        hr2.trans (discoveryFailed_reads _), ?_, fun who => rfl⟩
      exact ⟨by simp [State.discoveryFailed, hh1], by simp [State.discoveryFailed, hs1],
        fun _ => by simpa [State.discoveryFailed] using hl, by simp [State.discoveryFailed, hs1]⟩
    | ok hd =>
      exact .inr ⟨h, hd, s1.setHdrBuf h, hph, hl, hr2, hh1, by simp [hs1], fun who => rfl⟩

/-- What is due has no part in the end of a discovery. -/
theorem endDiscovery_setPending (who : Discoverer) (o : Option Word32) (p : Pending) (s : State) :
    (s.setPending p).endDiscovery who o = s.endDiscovery who o := by
  cases who with
  | discover => cases o <;> rfl
  | init => cases o <;> rfl
  | erase value =>
    cases o with
    | some c => rfl
    | none =>
      simp only [State.endDiscovery, State.startErase]
      have h1 : (s.setPending p).sizeOk = s.sizeOk := rfl
      have h2 : (s.setPending p).eraseJobs .spiNorSfdp value = s.eraseJobs .spiNorSfdp value := rfl
      rw [h1, h2]
      split
      · rfl
      · cases s.eraseJobs .spiNorSfdp value <;> rfl

/-- Everything the second step of a discovery can do; the command it runs in has no part in it (R249 to R263). -/
theorem readTable_cases (hd : Header) (s : State) (hsize : 8 ≤ hd.ps.toNat) :
    (∃ c u, c.toInt < 0 ∧ Reads s u [s.wireCtx.fRdsfdp hd.pp.toNat hd.ps.toNat] ∧
      u.handle = { s.handle with hstate := .bound } ∧
      u.sfdp = { s.sfdp with state := .failed, ptBuf := u.sfdp.ptBuf } ∧
      (s.sfdp.ptBuf.length = 8 → u.sfdp.ptBuf.length = 8) ∧
      ∀ who p, readTable who hd (s.setPending p) = u.endDiscovery who (some c)) ∨
    (∃ tab tb u, parseTable s.cfg tab = .ok tb ∧ tab.length = 8 ∧
      Reads s u [s.wireCtx.fRdsfdp hd.pp.toNat hd.ps.toNat] ∧
      u.handle =
        { s.handle with
          hstate := .ready, size := tb.bytes, addrLen := 8#8 * tb.ab, pageSize := tb.gran.setWidth 32
          writeDelayMs := s.cfg.norPageDelayMs } ∧
      u.sfdp =
        { state := .parsed, hdrVer := hd.hv, hdrCount := hd.hc, ptVer := hd.pv, ptSize := hd.ps, ptPtr := hd.pp
          writeGran := tb.gran, erase4kOp := tb.e4k, addrBytes := tb.ab, dtr := tb.dtr, arraySize := tb.bytes
          hdrBuf := s.sfdp.hdrBuf, ptBuf := tab } ∧
      ∀ who p, readTable who hd (s.setPending p) = u.endDiscovery who none) := by
  have hreads : Reads s (transport (s.wireCtx.fRdsfdp hd.pp.toNat hd.ps.toNat) (s.setSfdpState .tableRead)).2
      [s.wireCtx.fRdsfdp hd.pp.toNat hd.ps.toNat] :=
    (reads_nil (s := s) (t := s.setSfdpState .tableRead) rfl rfl rfl rfl rfl).trans (transport_reads _ _)
  have hq := transport_quiet (s.wireCtx.fRdsfdp hd.pp.toNat hd.ps.toNat) (s.setSfdpState .tableRead)
  have hlen : ∀ data, (transport (s.wireCtx.fRdsfdp hd.pp.toNat hd.ps.toNat) (s.setSfdpState .tableRead)).1 =
      .okr data → data.length = hd.ps.toNat := fun data h => transport_spi_length h
  have hbad : ∀ c, (transport (s.wireCtx.fRdsfdp hd.pp.toNat hd.ps.toNat) (s.setSfdpState .tableRead)).1 =
      .bad c → c.toInt < 0 := fun c h => transport_bad_neg h
  have hstep : ∀ p, transport (s.wireCtx.fRdsfdp hd.pp.toNat hd.ps.toNat) ((s.setPending p).setSfdpState .tableRead) =
      ((transport (s.wireCtx.fRdsfdp hd.pp.toNat hd.ps.toNat) (s.setSfdpState .tableRead)).1,
        (transport (s.wireCtx.fRdsfdp hd.pp.toNat hd.ps.toNat) (s.setSfdpState .tableRead)).2.setPending p) :=
    fun p => transport_setPending _ p (s.setSfdpState .tableRead)
  have hctx : ∀ p, ((s.setPending p).setSfdpState .tableRead).wireCtx = s.wireCtx := fun _ => rfl
  unfold readTable
  simp only [hctx, hstep]
  rcases htr : transport (s.wireCtx.fRdsfdp hd.pp.toNat hd.ps.toNat) (s.setSfdpState .tableRead) with ⟨r, s1⟩
  rw [htr] at hreads hq hlen hbad
  have hh1 : s1.handle = s.handle := hq.handle
  have hs1 : s1.sfdp = { s.sfdp with state := .tableRead } := hq.sfdp
  have hc1 : s1.cfg = s.cfg := hq.cfg
  cases r with
  | bad c =>
    refine .inl ⟨c, s1.discoveryFailed, hbad c rfl, hreads.trans (discoveryFailed_reads s1),
      by simp [State.discoveryFailed, hh1], by simp [State.discoveryFailed, hs1],
      by simp [State.discoveryFailed, hs1], fun who p => endDiscovery_setPending who _ p s1.discoveryFailed⟩
  | okr data =>
    have hl8 : (data.take 8).length = 8 := by
      rw [List.length_take, hlen data rfl]; omega
    have hr2 := hreads.trans (reads_nil (t := s1.setPtBuf (data.take 8)) rfl rfl rfl rfl rfl)
    dsimp only
    simp only [State.setPtBuf_cfg, State.setPending_cfg]
    cases hpt : parseTable s1.cfg (data.take 8) with
    | error e =>
      refine .inl ⟨e.code, (s1.setPtBuf (data.take 8)).discoveryFailed, ?_, hr2.trans (discoveryFailed_reads _),
        by simp [State.discoveryFailed, hh1], by simp [State.discoveryFailed, hs1],
        fun _ => by simpa [State.discoveryFailed] using hl8,
        fun who p => endDiscovery_setPending who _ p (s1.setPtBuf (data.take 8)).discoveryFailed⟩
      rw [parseTable_error hpt]; decide
    | ok tb =>
      refine .inr ⟨data.take 8, tb, (s1.setPtBuf (data.take 8)).discoveryCommit hd tb, by rw [← hc1]; exact hpt, hl8,
        hr2.trans (reads_nil rfl rfl rfl rfl rfl), by simp [State.discoveryCommit, hh1, hc1],
        by simp [State.discoveryCommit, hs1],
        fun who p => endDiscovery_setPending who _ p ((s1.setPtBuf (data.take 8)).discoveryCommit hd tb)⟩

/-- Between the two requests of a discovery that began in `s`. -/
structure Between (s : State) (who : Discoverer) (t : State) : Prop where
  cfg : t.cfg = s.cfg
  handle : t.handle = s.handle
  sfdp : t.sfdp = { s.sfdp with state := .headerRead, hdrBuf := t.sfdp.hdrBuf }
  hdrLength : t.sfdp.hdrBuf.length = 15
  port : t.port = s.port
  work : t.work = s.work
  hostIn : t.hostIn = s.hostIn
  wire : s.wire <+: t.wire
  pending : ∃ hd, t.pending = some (.table who hd)

/-- How DISCOVERY ends, Ok or with a negative code, and in which state, whatever command it runs in (R241 to R264). -/
structure DiscoveryEnds (s v : State) (o : Option Word32) (rest : List Request) : Prop where
  reads : Reads s v (s.wireCtx.fRdsfdp 0 15 :: rest)
  atMostOne : rest.length ≤ 1
  result :
    (∃ c, o = some c ∧ c.toInt < 0 ∧ DiscoveryFailed s v) ∨
      (o = none ∧ ∃ h tab hd tb, DiscoveryParsed s v h tab hd tb ∧ rest = [s.wireCtx.fRdsfdp hd.pp.toNat hd.ps.toNat])
  /-- from its first step the command comes to its end of discovery -/
  leads : ∀ who, Leads (readHeader who s) (v.endDiscovery who o)
  /-- and passes through nothing but the state between its two requests -/
  passes : ∀ who t, Leads (readHeader who s) t → Leads (v.endDiscovery who o) t ∨ Between s who t

theorem Leads.cases {s t : State} (h : Leads s t) : t = s ∨ Leads s.advance t := by
  obtain ⟨n, rfl⟩ := h
  cases n with
  | zero => exact .inl rfl
  | succ n => exact .inr ⟨n, rfl⟩

/-- Everything DISCOVERY can do (R241). -/
theorem discovery_ends (s : State) : ∃ o v rest, DiscoveryEnds s v o rest := by
  rcases readHeader_cases s with ⟨c, u, hneg, hr, hf, heq⟩ | ⟨h, hd, u, hph, hl, hr, hh, hs, heq⟩
  · refine ⟨some c, u, [], hr, by simp, .inl ⟨c, rfl, hneg, hf⟩, fun who => ?_, fun who t ht => .inl ?_⟩
    · rw [heq]; exact Leads.refl _
    · rw [← heq]; exact ht
  · have hctx : u.wireCtx = s.wireCtx := by simp [State.wireCtx, hr.cfg, hh, hs]
    have hadv : ∀ who, (u.setPending (.table who hd)).advance = readTable who hd (u.setPending (.table who hd)) :=
      fun who => rfl
    have hb : ∀ who, Between s who (u.setPending (.table who hd)) := fun who =>
      ⟨hr.cfg, hh, by simp [hs], by simpa [hs] using hl, hr.port, hr.work, hr.hostIn, hr.wire, hd, rfl⟩
    rcases readTable_cases hd u (parseHeader_ok_size hph).1 with ⟨c, v, hneg, hr2, hh2, hs2, hp2, heq2⟩ | ⟨tab, tb, v, hpt, hl2, hr2, hh2, hs2, heq2⟩
    · rw [hctx] at hr2
      refine ⟨some c, v, [s.wireCtx.fRdsfdp hd.pp.toNat hd.ps.toNat], hr.trans hr2, by simp,
        .inl ⟨c, rfl, hneg, ?_⟩, fun who => ?_, fun who t ht => ?_⟩
      · exact ⟨by rw [hh2, hh], by rw [hs2, hs], fun _ => by rw [hs2, hs]; exact hl,
          fun h8 => hp2 (by simpa [hs] using h8)⟩
      · rw [heq, ← heq2 who (.table who hd), ← hadv]; exact (Leads.refl _).step
      · rw [heq] at ht
        rcases ht.cases with rfl | ht
        · exact .inr (hb who)
        · rw [hadv, heq2] at ht; exact .inl ht
    · rw [hctx] at hr2
      refine ⟨none, v, [s.wireCtx.fRdsfdp hd.pp.toNat hd.ps.toNat], hr.trans hr2, by simp,
        .inr ⟨rfl, h, tab, hd, tb, ?_, rfl⟩, fun who => ?_, fun who t ht => ?_⟩
      · exact ⟨hph, by rw [← hr.cfg]; exact hpt, hl, hl2, by rw [hh2, hh, hr.cfg], by rw [hs2, hs]⟩
      · rw [heq, ← heq2 who (.table who hd), ← hadv]; exact (Leads.refl _).step
      · rw [heq] at ht
        rcases ht.cases with rfl | ht
        · exact .inr (hb who)
        · rw [hadv, heq2] at ht; exact .inl ht

end Sys2Proof.Machine
end

