-- ==== Sys2Proof/Laws/Write.lean ====
section
/-! SUPPORT. The paged write engine: the chunk plan and the calls of PW, both without fuel (41_read_write.md R186 to R190),
and the jobs they give. -/

namespace Sys2Proof.Machine

theorem chunkLength_pos {p cur rem : Nat} (hp : 0 < p) (hr : 0 < rem) : 0 < chunkLength p cur rem := by
  have := Nat.mod_lt cur hp
  simp only [chunkLength]
  omega

theorem chunkLength_le_rem (p cur rem : Nat) : chunkLength p cur rem ≤ rem := Nat.min_le_right _ _

/-- With P ≥ 1, fuel beyond the data length does not matter. -/
theorem chunkPlan_fuel {p : Nat} (hp : 0 < p) (f g cur : Nat) (d : List Byte) (hf : d.length ≤ f)
    (hg : d.length ≤ g) : chunkPlan p f cur d = chunkPlan p g cur d := by
  induction f generalizing g cur d with
  | zero =>
    have : d = [] := by simpa using hf
    cases g <;> simp [chunkPlan, this]
  | succ f ih =>
    cases g with
    | zero =>
      have : d = [] := by simpa using hg
      simp [chunkPlan, this]
    | succ g =>
      by_cases hd : d = []
      · simp [chunkPlan, hd]
      · have hl : 0 < d.length := List.length_pos_iff.mpr hd
        have hk := chunkLength_pos (cur := cur) hp hl
        simp only [chunkPlan, List.isEmpty_iff, hd, if_false]
        rw [ih g]
        · simp only [List.length_drop]; omega
        · simp only [List.length_drop]; omega

@[simp] theorem chunksOf_nil (p x : Nat) : chunksOf p x [] = [] := rfl

/-- The first chunk and the rest (R190). -/
theorem chunksOf_cons {p : Nat} (hp : 0 < p) (x : Nat) (d : List Byte) (hd : d ≠ []) :
    chunksOf p x d =
      (x, d.take (chunkLength p x d.length)) ::
        chunksOf p (x + chunkLength p x d.length) (d.drop (chunkLength p x d.length)) := by
  have hl : 0 < d.length := List.length_pos_iff.mpr hd
  have hk := chunkLength_pos (cur := x) hp hl
  obtain ⟨n, hn⟩ : ∃ n, d.length = n + 1 := ⟨d.length - 1, by omega⟩
  unfold chunksOf
  rw [hn]
  simp only [chunkPlan, List.isEmpty_iff, hd, if_false, hn]
  rw [hn] at hk
  congr 1
  apply chunkPlan_fuel hp
  · simp only [List.length_drop]; omega
  · simp

/-- The chunks carry the data, all of it and in order. -/
theorem chunksOf_data {p : Nat} (hp : 0 < p) (x : Nat) (d : List Byte) :
    (chunksOf p x d).flatMap Prod.snd = d := by
  induction hn : d.length using Nat.strong_induction_on generalizing x d with
  | _ n ih =>
    by_cases hd : d = []
    · simp [hd]
    · have hl : 0 < d.length := List.length_pos_iff.mpr hd
      have hk := chunkLength_pos (cur := x) hp hl
      rw [chunksOf_cons hp x d hd, List.flatMap_cons, ih _ _ _ _ rfl, List.take_append_drop]
      simp only [List.length_drop]; omega

theorem chunkBytes_eq (plan : List (Nat × List Byte)) : chunkBytes plan = (plan.flatMap Prod.snd).length := by
  simp [chunkBytes, List.length_flatMap]

theorem chunkBytes_chunksOf {p : Nat} (hp : 0 < p) (x : Nat) (d : List Byte) :
    chunkBytes (chunksOf p x d) = d.length := by
  rw [chunkBytes_eq, chunksOf_data hp]

/-! ### The calls of PW -/

theorem writeOverflow_pos_iff {x n size : Nat} : 0 < writeOverflow x n size ↔ size < x + n := by
  simp only [writeOverflow]; omega

/-- Fuel beyond the data length does not matter to PW (R186: "PW ends on every input"). -/
theorem splitWrite_fuel (wrap : Bool) {size : Nat} (f g x : Nat) (d : List Byte) (hx : x < size) (hf : d.length < f)
    (hg : d.length < g) : splitWrite wrap size f x d = splitWrite wrap size g x d := by
  induction f generalizing g x d with
  | zero => omega
  | succ f ih =>
    cases g with
    | zero => omega
    | succ g =>
      simp only [splitWrite, writeOverflow_pos_iff]
      split
      · split
        · have h1 : (d.take (size - x)).length < d.length := by simp only [List.length_take]; omega
          have h2 : (d.drop (size - x)).length < d.length := by simp only [List.length_drop]; omega
          rw [ih g x _ hx (by omega) (by omega), ih g 0 _ (by omega) (by omega) (by omega)]
        · rfl
      · rfl

/-- No overflow: a plain write (R186, R187). -/
theorem pwCalls_plain (wrap : Bool) {size x : Nat} {d : List Byte} (h : x + d.length ≤ size) :
    pwCalls wrap size x d = [(x, d)] := by
  simp only [pwCalls, splitWrite, writeOverflow_pos_iff]
  rw [if_neg (by omega)]

/-- Without wrap the tail past SIZE is dropped (R189). -/
theorem pwCalls_noWrap (size x : Nat) (d : List Byte) :
    pwCalls false size x d = [(x, d.take (size - x))] ∨ d.take (size - x) = d ∧ pwCalls false size x d = [(x, d)] := by
  rcases Nat.lt_or_ge size (x + d.length) with h | h
  · left; simp [pwCalls, splitWrite, writeOverflow_pos_iff, h]
  · right; exact ⟨List.take_of_length_le (by omega), pwCalls_plain false h⟩

/-- Overflow with wrap: up to SIZE, then the rest from 0 (R188). -/
theorem pwCalls_wrap {size x : Nat} {d : List Byte} (hx : x < size) (h : size < x + d.length) :
    pwCalls true size x d = (x, d.take (size - x)) :: pwCalls true size 0 (d.drop (size - x)) := by
  have h1 : splitWrite true size d.length x (d.take (size - x)) = [(x, d.take (size - x))] := by
    rw [splitWrite_fuel true _ ((d.take (size - x)).length + 1) x _ hx (by simp only [List.length_take]; omega) (by omega)]
    exact pwCalls_plain true (by simp only [List.length_take]; omega)
  have h2 : splitWrite true size d.length 0 (d.drop (size - x)) = pwCalls true size 0 (d.drop (size - x)) :=
    splitWrite_fuel true _ _ 0 _ (by omega) (by simp only [List.length_drop]; omega) (by omega)
  rw [pwCalls, splitWrite, if_pos (writeOverflow_pos_iff.mpr h)]
  simp only [if_true]
  rw [h1, h2]
  rfl

/-! ### The jobs of a write -/

section
variable (c : WireCtx) (hw : HwFamily) (f : Request) (ms : Word32) (w : Option Work) (done : Nat) (b : Bool)

@[simp] theorem modifyJob_requests : (modifyJob c hw f ms w done b).requests = modifyRequests c hw f ms := by
  unfold modifyJob modifyRequests
  cases c.writeEnable hw <;> rfl

@[simp] theorem modifyJob_counts : (modifyJob c hw f ms w done b).counts = b := by
  unfold modifyJob; cases c.writeEnable hw <;> rfl

@[simp] theorem modifyJob_done : (modifyJob c hw f ms w done b).done = done := by
  unfold modifyJob; cases c.writeEnable hw <;> rfl

end

/-- The jobs of CHUNKS issue the requests of the chunks, and do not count in PROGRESS (R186, R192). -/
theorem chunkJobs_requests (c : WireCtx) (hw : HwFamily) (ms : Word32) (done : Nat) (plan : List (Nat × List Byte)) :
    (chunkJobs c hw ms done plan).flatMap Job.requests = chunkRequests c hw ms plan := by
  induction plan generalizing done with
  | nil => rfl
  | cons k rest ih =>
    obtain ⟨cur, d⟩ := k
    rw [chunkJobs, List.flatMap_cons, modifyJob_requests, ih]
    rfl

theorem chunkJobs_counts {c : WireCtx} {hw : HwFamily} {ms : Word32} {done : Nat} {plan : List (Nat × List Byte)}
    {j : Job} (h : j ∈ chunkJobs c hw ms done plan) : j.counts = false := by
  induction plan generalizing done with
  | nil => cases h
  | cons k rest ih =>
    obtain ⟨cur, d⟩ := k
    rw [chunkJobs] at h
    rcases List.mem_cons.mp h with rfl | h
    · simp
    · exact ih h

theorem countOf_eq_zero {l : List Job} (h : ∀ j ∈ l, j.counts = false) : countOf l = 0 := by
  rw [countOf, List.countP_eq_zero]
  intro j hj
  simp [h j hj]

/-- The job of a chunk in the middle carries the bytes before it (R186, R194). -/
theorem chunkJobs_split (c : WireCtx) (hw : HwFamily) (ms : Word32) (done : Nat) (before after : List (Nat × List Byte))
    (cur : Nat) (d : List Byte) :
    ∃ l w m, chunkJobs c hw ms done (before ++ (cur, d) :: after) =
        l ++ modifyJob c hw (c.chunkFrame hw cur d) ms w (done + chunkBytes before) false :: m ∧
      l.flatMap Job.requests = chunkRequests c hw ms before := by
  induction before generalizing done with
  | nil => exact ⟨[], _, _, by rw [List.nil_append, chunkJobs]; rfl, rfl⟩
  | cons k rest ih =>
    obtain ⟨x, e⟩ := k
    obtain ⟨l, w, m, h, hr⟩ := ih (done + e.length)
    refine ⟨modifyJob c hw (c.chunkFrame hw x e) ms
      (some (workOf x (e.length + chunkBytes (rest ++ (cur, d) :: after)) done e)) done false :: l, w, m, ?_, ?_⟩
    · rw [List.cons_append, chunkJobs, h]; simp [chunkBytes, Nat.add_assoc]
    · rw [List.flatMap_cons, modifyJob_requests, hr]; rfl

theorem chunks_requests (hw : HwFamily) (x : Nat) (d : List Byte) (s : State) :
    (s.chunks hw x d).flatMap Job.requests =
      chunkRequests s.wireCtx hw s.handle.writeDelayMs (chunksOf (s.eps hw) x d) := chunkJobs_requests _ _ _ _ _

theorem chunks_counts {hw : HwFamily} {x : Nat} {d : List Byte} {s : State} {j : Job} (h : j ∈ s.chunks hw x d) :
    j.counts = false := chunkJobs_counts h

/-- PW issues the requests of its calls in order (R186). -/
theorem pw_requests (hw : HwFamily) (wrap : Bool) (x : Nat) (d : List Byte) (s : State) :
    (s.pw hw wrap x d).flatMap Job.requests =
      (pwCalls wrap s.handle.size.toNat x d).flatMap fun k =>
        chunkRequests s.wireCtx hw s.handle.writeDelayMs (chunksOf (s.eps hw) k.1 k.2) := by
  simp only [State.pw, List.flatMap_assoc, chunks_requests]

theorem pw_counts {hw : HwFamily} {wrap : Bool} {x : Nat} {d : List Byte} {s : State} {j : Job}
    (h : j ∈ s.pw hw wrap x d) : j.counts = false := by
  rw [State.pw, List.mem_flatMap] at h
  obtain ⟨k, -, hk⟩ := h
  exact chunks_counts hk

end Sys2Proof.Machine
end

