-- ==== Sys2Proof/Laws/Erase.lean ====
section
/-! SUPPORT. The jobs of ERASE_PAGE and ERASE: which modifying frames they send, each with its delay (42_erase.md R220 to
R229), as one relation `JobsOf` between jobs and units. -/

namespace Sys2Proof.Machine

/-- The jobs are one MODIFY for each unit, a frame with its delay, in order; each counts in PROGRESS or none does. -/
def JobsOf (c : WireCtx) (hw : HwFamily) (b : Bool) : List Job → List (Request × Word32) → Prop :=
  List.Forall₂ fun j u => ∃ w, j = modifyJob c hw u.1 u.2 w 0 b

variable {c : WireCtx} {hw : HwFamily} {b : Bool}

theorem JobsOf.requests {jobs : List Job} {units : List (Request × Word32)} (h : JobsOf c hw b jobs units) :
    jobs.flatMap Job.requests = units.flatMap fun u => modifyRequests c hw u.1 u.2 := by
  induction h with
  | nil => rfl
  | cons hj _ ih =>
    obtain ⟨w, rfl⟩ := hj
    rw [List.flatMap_cons, List.flatMap_cons, modifyJob_requests, ih]

theorem JobsOf.count {jobs : List Job} {units : List (Request × Word32)} (h : JobsOf c hw b jobs units) :
    countOf jobs = if b then units.length else 0 := by
  induction h with
  | nil => simp
  | cons hj _ ih =>
    obtain ⟨w, rfl⟩ := hj
    rw [countOf_cons, modifyJob_counts, ih]
    cases b <;> simp [Nat.add_comm]

/-- The job of a unit in the middle. -/
theorem JobsOf.split {jobs : List Job} {before after : List (Request × Word32)} {u : Request × Word32}
    (h : JobsOf c hw b jobs (before ++ u :: after)) :
    ∃ l w m, jobs = l ++ modifyJob c hw u.1 u.2 w 0 b :: m ∧ JobsOf c hw b l before := by
  induction before generalizing jobs with
  | nil =>
    cases h with
    | cons hj h =>
      obtain ⟨w, rfl⟩ := hj
      exact ⟨[], w, _, rfl, List.Forall₂.nil⟩
  | cons v vs ih =>
    cases h with
    | cons hj h =>
      obtain ⟨l, w, m, rfl, hl⟩ := ih h
      exact ⟨_ :: l, w, m, rfl, List.Forall₂.cons hj hl⟩

theorem JobsOf.append {l m : List Job} {u v : List (Request × Word32)} (h : JobsOf c hw b l u) (k : JobsOf c hw b m v) :
    JobsOf c hw b (l ++ m) (u ++ v) := by
  induction h with
  | nil => exact k
  | cons hj _ ih => exact List.Forall₂.cons hj ih

theorem JobsOf.of_map {α : Type} (l : List α) {j : α → Job} {u : α → Request × Word32}
    (h : ∀ a, ∃ w, j a = modifyJob c hw (u a).1 (u a).2 w 0 b) : JobsOf c hw b (l.map j) (l.map u) := by
  induction l with
  | nil => exact List.Forall₂.nil
  | cons a l ih => exact List.Forall₂.cons (h a) ih

/-- A whole page is one chunk (R223). -/
theorem chunksOf_page {p : Nat} (hp : 0 < p) (page : Nat) (value : Byte) :
    chunksOf p (page * p) (List.replicate p value) = [(page * p, List.replicate p value)] := by
  have hne : List.replicate p value ≠ [] := by simp; omega
  rw [chunksOf_cons hp _ _ hne]
  simp [chunkLength, Nat.mul_mod_left]

/-- One page is one chunk frame with its delay (R223). -/
theorem fillPage_jobs (hw : HwFamily) (page : Nat) (value : Byte) (s : State) (hp : 0 < s.handle.pageSize.toNat)
    (he : s.eps hw = s.handle.pageSize.toNat) :
    ∃ w, s.fillPage hw page value =
      [modifyJob s.wireCtx hw
        (s.wireCtx.chunkFrame hw (page * s.handle.pageSize.toNat) (List.replicate s.handle.pageSize.toNat value))
        s.handle.writeDelayMs w 0 false] := by
  simp only [State.fillPage, State.chunks, he, chunksOf_page hp, chunkJobs]
  exact ⟨_, rfl⟩

/-- The units of a fill (R227): one for each page. -/
theorem fill_jobsOf (hw : HwFamily) (value : Byte) (s : State) (hp : 0 < s.handle.pageSize.toNat)
    (he : s.eps hw = s.handle.pageSize.toNat) :
    JobsOf s.wireCtx hw true (s.fill hw value)
      ((List.range s.pageCount).map fun page =>
        (s.wireCtx.chunkFrame hw (page * s.handle.pageSize.toNat) (List.replicate s.handle.pageSize.toNat value),
          s.handle.writeDelayMs)) := by
  rw [State.fill]
  induction List.range s.pageCount with
  | nil => exact List.Forall₂.nil
  | cons page rest ih =>
    obtain ⟨w, hw'⟩ := fillPage_jobs hw page value s hp he
    rw [List.flatMap_cons, List.map_cons, hw']
    refine JobsOf.append (l := countLast _) (u := [_]) (List.Forall₂.cons ⟨w, ?_⟩ List.Forall₂.nil) ih
    unfold modifyJob
    cases s.wireCtx.writeEnable hw <;> rfl

/-- ERASE_PAGE on SPI_NARROW: one unit for each byte (R220, R222). -/
theorem narrowPage_jobsOf (x : Nat) (value : Byte) (s : State) :
    JobsOf s.wireCtx .spiNarrow false (s.narrowPage x value)
      ((List.range s.handle.pageSize.toNat).map fun i =>
        (narrowEraseFrame s.wireCtx (x + i) value, s.handle.writeDelayMs)) :=
  JobsOf.of_map _ fun _ => ⟨_, rfl⟩

/-- ERASE_NARROW of a value (R226): one unit for each byte. -/
theorem narrowFill_jobsOf (value : Byte) (s : State) :
    JobsOf s.wireCtx .spiNarrow true (s.narrowFill value)
      ((List.range s.handle.size.toNat).map fun x => (s.wireCtx.nWrite x value, s.handle.writeDelayMs)) :=
  JobsOf.of_map _ fun _ => ⟨_, rfl⟩

/-- SECTORS (R229): one unit for each sector. -/
theorem sectors_jobsOf (s : State) :
    JobsOf s.wireCtx .spiNorSfdp true s.sectors
      ((List.range s.sectorCount).map fun i => (s.wireCtx.fSe4k (4096 * i), s.cfg.norSectorDelayMs)) :=
  JobsOf.of_map _ fun _ => ⟨_, rfl⟩

/-- The erase-all (R226): one unit. -/
theorem eraseAll_jobsOf (s : State) :
    JobsOf s.wireCtx .spiNarrow true (s.eraseNarrow 0xFF#8) [(s.wireCtx.nEral, s.eralDelay)] :=
  List.Forall₂.cons ⟨none, rfl⟩ List.Forall₂.nil

end Sys2Proof.Machine
end

