-- ==== Sys2Proof/Laws/Commands.lean ====
section
/-! SUPPORT. What each host command can do in the step that accepts it, said once per command: it finishes, or its first
request is answered and the command goes on. The entry checks have their lemmas first. -/

namespace Sys2Proof.Machine

/-! ### Entry checks (R305) -/

theorem readyFamily_some {n : Nat} {s : State} {hw : HwFamily} (h : s.readyFamily n = some hw) :
    s.port.din.length = n ∧ s.handle.hstate = .ready ∧ hardwareFamily s.handle.family = some hw := by
  unfold State.readyFamily State.dinIs at h
  split at h
  · cases h
  · next h1 =>
    split at h
    · cases h
    · next h2 => exact ⟨by simpa using h1, by simpa using h2, h⟩

theorem readyFamily_of {n : Nat} {s : State} (h1 : s.port.din.length = n) (h2 : s.handle.hstate = .ready) :
    s.readyFamily n = hardwareFamily s.handle.family := by
  simp [State.readyFamily, State.dinIs, h1, h2]

theorem addressedFamily_some {n : Nat} {addr : Word32} {s : State} {hw : HwFamily}
    (h : s.addressedFamily n addr = some hw) :
    s.readyFamily n = some hw ∧ (∃ k, s.handle.size.toNat = 2 ^ k) ∧ addr.toNat < s.handle.size.toNat := by
  unfold State.addressedFamily at h
  split at h
  · cases h
  · next hw' hr =>
    split at h
    · next hc =>
      cases h
      rw [Bool.and_eq_true, State.sizeOk, pow2_iff, State.addrOk, decide_eq_true_eq] at hc
      exact ⟨hr, hc⟩
    · cases h

theorem addressedFamily_of {n : Nat} {addr : Word32} {s : State} {hw : HwFamily} (h : s.readyFamily n = some hw)
    (hs : ∃ k, s.handle.size.toNat = 2 ^ k) (ha : addr.toNat < s.handle.size.toNat) :
    s.addressedFamily n addr = some hw := by
  have h1 : s.sizeOk = true := (pow2_iff _).mpr hs
  simp [State.addressedFamily, h, h1, State.addrOk, ha]

theorem eraseFamily_some {s : State} {hw : HwFamily} (h : s.eraseFamily = some hw) :
    s.port.din = [] ∧ s.handle.hstate ≠ .uninit ∧ hardwareFamily s.handle.family = some hw ∧
      (s.handle.hstate = .bound → hw = .spiNorSfdp) := by
  unfold State.eraseFamily State.dinIs at h
  split at h
  · cases h
  · next h1 =>
    have hd : s.port.din = [] := by simpa using h1
    split at h
    · cases h
    · next hb =>
      split at h
      · next hf => cases h; exact ⟨hd, by simp [hb], by simp [hf, hardwareFamily], fun _ => rfl⟩
      · cases h
    · next hr => exact ⟨hd, by simp [hr], h, fun hb => by simp [hr] at hb⟩

theorem hardwareFamily_some {f : Family} {hw : HwFamily} (h : hardwareFamily f = some hw) :
    f = (match hw with | .i2cEe => .i2cEe | .spiNarrow => .spiNarrow | .spiNorSfdp => .spiNorSfdp) := by
  cases f <;> cases h <;> rfl

/-! ### The step that accepts a command -/

/-- READ and READ_BYTE: at most one request, DOUT and STATUS (R180). -/
theorem readOp_ends (addr len : Word32) (s : State) :
    ∃ u d v, readOp addr len s = (u.setDout d).finish v ∧ Quiet s u ∧
      (u.wire = s.wire ∨ ∃ hw, s.addressedFamily 0 addr = some hw ∧
        u.wire = (transport (s.wireCtx.readFrame hw addr.toNat len.toNat) s).2.wire) := by
  unfold readOp
  split
  · exact ⟨s, _, _, rfl, Quiet.refl s, .inl rfl⟩
  · next hw hf =>
    split
    · exact ⟨s, _, _, rfl, Quiet.refl s, .inl rfl⟩
    · split
      · exact ⟨s, _, _, rfl, Quiet.refl s, .inl rfl⟩
      · have hq := transport_quiet (s.wireCtx.readFrame hw addr.toNat len.toNat) s
        rcases htr : transport (s.wireCtx.readFrame hw addr.toNat len.toNat) s with ⟨r, s1⟩
        rw [htr] at hq
        cases r with
        | bad e => exact ⟨s1, [], e, rfl, hq, .inr ⟨hw, hf, by rw [htr]⟩⟩
        | okr bytes =>
          rcases (s1.setDout bytes).finishCount_cases len.toNat with h | h
          · exact ⟨s1, bytes, _, h, hq, .inr ⟨hw, hf, by rw [htr]⟩⟩
          · exact ⟨{ s1 with drawn := s1.drawn + 1 }, bytes, _, h,
              hq.trans ⟨rfl, rfl, rfl, rfl, rfl, List.prefix_refl _⟩, .inr ⟨hw, hf, by rw [htr]⟩⟩

/-- WRITE and WRITE_BYTE refuse, or send their first request (R185). -/
theorem writeOp_cases {din : Nat} {addr : Word32} {d : List Byte} {wrap partialAcc : Bool} {s t : State}
    (h : writeOp din addr d wrap partialAcc s = .next t) :
    (s.addressedFamily din addr = none ∧ t = s.raise .invalidArgument) ∨
      ∃ hw, s.addressedFamily din addr = some hw ∧
        t = (s.nextJob (s.pw hw wrap addr.toNat d)
          (.write partialAcc (pwTotal wrap s.handle.size.toNat addr.toNat d))).advance := by
  unfold writeOp at h
  split at h
  · next hf => cases h; exact .inl ⟨hf, rfl⟩
  · next hw hf =>
    split at h
    · cases h
    · cases h; exact .inr ⟨hw, hf, nextJob_issueJob _ _ _⟩

/-- A WRITE past its entry checks. -/
theorem writeOp_eq {din : Nat} {addr : Word32} {d : List Byte} {wrap partialAcc : Bool} {s : State} {hw : HwFamily}
    (hf : s.addressedFamily din addr = some hw) (hp : s.eps hw ≠ 0 ∨ d = []) :
    writeOp din addr d wrap partialAcc s =
      .next (s.nextJob (s.pw hw wrap addr.toNat d)
        (.write partialAcc (pwTotal wrap s.handle.size.toNat addr.toNat d))).advance := by
  unfold writeOp
  rw [hf]
  dsimp only
  rw [if_neg (by rintro ⟨h1, h2⟩; exact hp.elim (· h1) h2), nextJob_issueJob]

/-- WRITE and WRITE_BYTE stop only on an effective page size of 0. -/
theorem writeOp_answers {din : Nat} {addr : Word32} {d : List Byte} {wrap partialAcc : Bool} {s : State}
    (h : ∀ hw, s.addressedFamily din addr = some hw → s.eps hw ≠ 0) :
    ∃ t, writeOp din addr d wrap partialAcc s = .next t := by
  unfold writeOp
  split
  · exact ⟨_, rfl⟩
  · next hw hf =>
    rw [if_neg (fun hc => h hw hf hc.1)]
    exact ⟨_, rfl⟩

/-- From its first step on, WRITE changes STATUS only (R185). -/
theorem writeOp_underway {din : Nat} {addr : Word32} {d : List Byte} {wrap partialAcc : Bool} {s t : State}
    (h : writeOp din addr d wrap partialAcc s = .next t) : UnderwayWrite s t := by
  rcases writeOp_cases h with ⟨-, rfl⟩ | ⟨hw, -, rfl⟩
  · exact .inr ⟨s, _, rfl, Quiet.refl s⟩
  · exact advance_underwayWrite (nextJob_underwayWrite _ _ _ (fun _ hk => pw_counts hk) (Quiet.refl s))

/-- ERASE_PAGE refuses, or sends its first request (R220). -/
theorem execErasePage_cases (page : Word32) (value : Byte) (s : State) :
    execErasePage page value s = .next (s.raise .invalidArgument) ∨
      ∃ hw, s.readyFamily 0 = some hw ∧ s.sizeOk = true ∧ page.toNat < s.pageCount ∧
        execErasePage page value s =
          .next ((s.setProgress 0#32).nextJob (s.erasePageJobs hw page.toNat value) .erasePage).advance := by
  unfold execErasePage
  split
  · exact .inl rfl
  · next hw hf =>
    split
    · exact .inl rfl
    · next hs =>
      split
      · exact .inl rfl
      · next hp => exact .inr ⟨hw, hf, by simpa using hs, by omega, by rw [nextJob_issueJob]⟩

/-- From its first step on, ERASE_PAGE changes PROGRESS and STATUS only (R88). -/
theorem execErasePage_underway {page : Word32} {value : Byte} {s t : State} (h : execErasePage page value s = .next t) :
    Underway s t := by
  rcases execErasePage_cases page value s with h' | ⟨hw, -, -, -, h'⟩
  · rw [h'] at h; cases h; exact .inr ⟨s, _, rfl, QuietErase.refl s⟩
  · rw [h'] at h; cases h
    exact advance_underway (nextJob_underway _ _ (setProgress_quietErase _ s))

/-- ERASE from check 6 on refuses, or its first frame falls due (R224). -/
theorem startErase_cases (hw : HwFamily) (value : Byte) (s : State) :
    (s.sizeOk = false ∧ s.startErase hw value = s.raise .invalidArgument) ∨
      (s.sizeOk = true ∧ s.startErase hw value = (s.setProgress 0#32).nextJob (s.eraseJobs hw value) .erase) := by
  unfold State.startErase
  cases s.sizeOk
  · exact .inl ⟨rfl, rfl⟩
  · exact .inr ⟨rfl, rfl⟩

theorem startErase_issueJob (hw : HwFamily) (value : Byte) (s : State) :
    (s.startErase hw value).issueJob = (s.startErase hw value).advance := by
  rcases startErase_cases hw value s with ⟨-, h⟩ | ⟨-, h⟩
  · rw [h]; rfl
  · rw [h, nextJob_issueJob]

theorem startErase_underway {s t : State} (hw : HwFamily) (value : Byte) (q : QuietErase s t) :
    Underway s (t.startErase hw value) := by
  rcases startErase_cases hw value t with ⟨-, h⟩ | ⟨-, h⟩
  · rw [h]; exact .inr ⟨t, _, rfl, q⟩
  · rw [h]; exact nextJob_underway _ _ (q.trans (setProgress_quietErase _ t))

/-- Everything the first step of ERASE can do (R224, R228): refuse, read the SFDP header, or start to erase. -/
theorem execErase_cases (value : Byte) (s : State) :
    (s.eraseFamily = none ∧ execErase value s = .next (s.raise .invalidArgument)) ∨
      (s.eraseFamily = some .spiNorSfdp ∧ s.sfdp.state ≠ .parsed ∧
        execErase value s = .next (readHeader (.erase value) s)) ∨
      ∃ hw, s.eraseFamily = some hw ∧ (hw = .spiNorSfdp → s.sfdp.state = .parsed) ∧
        execErase value s = .next (s.startErase hw value).advance := by
  unfold execErase
  split
  · next hf => exact .inl ⟨hf, rfl⟩
  · next hw hf =>
    split
    · next hd => obtain ⟨rfl, hp⟩ := hd; exact .inr (.inl ⟨hf, hp, rfl⟩)
    · next hd => exact .inr (.inr ⟨hw, hf, fun h1 => by_contra fun h2 => hd ⟨h1, h2⟩, by rw [startErase_issueJob]⟩)

/-- DISCOVER: refuse, or read the header (R240). -/
theorem execDiscover_cases (s : State) :
    execDiscover s = .next (s.raise .invalidArgument) ∨
      (s.handle.hstate ≠ .uninit ∧ s.handle.family = .spiNorSfdp ∧ execDiscover s = .next (readHeader .discover s)) := by
  unfold execDiscover
  split
  · exact .inl rfl
  · split
    · exact .inl rfl
    · next h =>
      rw [not_or, not_not] at h
      exact .inr ⟨h.1, h.2, rfl⟩

/-- INIT: refuse; bind an entry that needs no discovery; or bind the SFDP entry and read the header (R280). -/
theorem execInit_cases (variant : Word32) (sel : Byte) (s : State) :
    (∃ c, execInit variant sel s = .next (s.raise c)) ∨
      (s.handle.hstate = .uninit ∧ ∃ e, s.cfg.registry[variant.toNat]? = some e ∧ e ≠ .sentinel ∧
        ((e ≠ .sfdp ∧
            execInit variant sel s = .next (((s.bind variant sel e).setHstate .ready).finish ErrorName.ok.code)) ∨
          (e = .sfdp ∧ execInit variant sel s = .next (readHeader .init (s.bind variant sel .sfdp))))) := by
  unfold execInit
  split
  · exact .inl ⟨_, rfl⟩
  · split
    · exact .inl ⟨_, rfl⟩
    · next hu =>
      have hu : s.handle.hstate = .uninit := by simpa using hu
      cases hr : s.cfg.resolve variant with
      | error c => exact .inl ⟨c, rfl⟩
      | ok e =>
        have he : s.cfg.registry[variant.toNat]? = some e ∧ e ≠ .sentinel := by
          unfold Params.resolve at hr
          split at hr
          · cases hr
          · cases hr
          · next e' hne hreg => cases hr; exact ⟨hreg, fun h => hne h⟩
        by_cases hs : e = .sfdp
        · subst hs
          exact .inr ⟨hu, _, he.1, he.2, .inr ⟨rfl, rfl⟩⟩
        · have hf : (s.bind variant sel e).handle.family ≠ .spiNorSfdp := by
            cases e with
            | sfdp => exact absurd rfl hs
            | sentinel => exact absurd rfl he.2
            | hwI2cEe g => simp [State.bind, mapEntry]
            | hwSpiNarrow g => simp [State.bind, mapEntry]
            | stub0 => simp [State.bind, mapEntry]
            | stub1 => simp [State.bind, mapEntry]
          refine .inr ⟨hu, e, he.1, he.2, .inl ⟨hs, ?_⟩⟩
          simp only [hf, if_false]

/-- DEINIT: refuse, or reset the handle, after the release if it was asked for (R284). -/
theorem execDeinit_ends (tdeinit : Bool) (s : State) :
    ∃ u v, execDeinit tdeinit s = .next (u.finish v) ∧
      (u = s ∨ u = s.resetHandle ∨ u = (transport .tdeinit s).2.resetHandle) := by
  unfold execDeinit
  split
  · exact ⟨s, _, rfl, .inl rfl⟩
  · split
    · exact ⟨s, _, rfl, .inl rfl⟩
    · split
      · rcases transport .tdeinit s with ⟨_ | c, u⟩
        · exact ⟨_, _, rfl, .inr (.inr rfl)⟩
        · exact ⟨_, _, rfl, .inr (.inr rfl)⟩
      · exact ⟨_, _, rfl, .inr (.inl rfl)⟩

/-- GET_INFO: DOUT and STATUS (R286). -/
theorem execGetInfo_ends (s : State) : ∃ d v, execGetInfo s = .next ((s.setDout d).finish v) := by
  unfold execGetInfo
  split
  · exact ⟨s.port.dout, _, rfl⟩
  · split
    · exact ⟨s.port.dout, _, rfl⟩
    · exact ⟨_, _, rfl⟩

/-- GET_SFDP: DOUT and STATUS (R288). -/
theorem execGetSfdp_ends (s : State) : ∃ d v, execGetSfdp s = .next ((s.setDout d).finish v) := by
  unfold execGetSfdp
  repeat' split
  all_goals first | exact ⟨s.port.dout, _, rfl⟩ | exact ⟨_, _, rfl⟩

/-- RAW_XFER: at most its own request, DOUT and STATUS (R290). -/
theorem execRawXfer_ends (addr len rlen : Word32) (opc : BitVec 16) (opw adw dmw : Byte) (s : State) :
    ∃ u d v, execRawXfer addr len rlen opc opw adw dmw s = .next ((u.setDout d).finish v) ∧
      (u = s ∨ ∃ req, rawRequest addr rlen opc opw adw dmw s = some req ∧ u = (transport req s).2) := by
  unfold execRawXfer
  split
  · exact ⟨s, _, _, rfl, .inl rfl⟩
  · split
    · exact ⟨s, _, _, rfl, .inl rfl⟩
    · cases hr : rawRequest addr rlen opc opw adw dmw s with
      | none => exact ⟨s, _, _, rfl, .inl rfl⟩
      | some req =>
        dsimp only
        rcases h : transport req s with ⟨_ | c, u⟩
        · exact ⟨u, _, _, rfl, .inr ⟨req, rfl, by rw [h]⟩⟩
        · exact ⟨u, _, _, rfl, .inr ⟨req, rfl, by rw [h]⟩⟩

end Sys2Proof.Machine
end

