-- ==== Sys2Proof/Laws/Contract.lean ====
section
/-! SUPPORT. The requests that can reach the wire: every frame builder keeps the field ranges of R110 and R111, and
the jobs of every command issue only its frames, the write-enable and the delay. -/

namespace Sys2Proof.Machine

/-! ### Frames within the contract -/

/-- What the codec needs of the handle and the parameters: opcode widths of R11 and R12, an address width of 32 or
less. -/
structure CodecOk (c : WireCtx) : Prop where
  narrow : c.cfg.narrow.admitted = true
  nor : c.cfg.nor.admitted = true
  addrLen : c.addrLen.toNat ≤ 32

/-- The SPI template with legal widths (R110, R155). -/
theorem spi_inContract {c : WireCtx} {opc : BitVec 16} {opw adr adw dmw : Nat} {d : List Byte} {n : Nat}
    (h1 : opw ≤ 16) (h2 : adw ≤ 32) (h3 : dmw ≤ 255) (h4 : n < 2 ^ 32) :
    requestInContract c.cfg (c.spi opc opw adr adw dmw d n) := ⟨h1, h2, h3, addressField_lt h2, h4, rfl⟩

theorem byte_le (b : Byte) : b.toNat ≤ 255 := Nat.le_of_lt_succ b.isLt

variable {c : WireCtx}

theorem narrow_widths (h : CodecOk c) :
    c.cfg.narrow.read.opw ≤ 16 ∧ c.cfg.narrow.write.opw ≤ 16 ∧ c.cfg.narrow.erase.opw ≤ 16 ∧
      c.cfg.narrow.ewen.opw ≤ 16 ∧ c.cfg.narrow.ewds.opw ≤ 16 ∧ c.cfg.narrow.eral.opw ≤ 16 := by
  have := h.narrow
  simp only [NarrowOpcodes.admitted, opwAdmitted, Bool.and_eq_true, decide_eq_true_eq] at this
  omega

theorem nor_widths (h : CodecOk c) :
    c.cfg.nor.wren.opw ≤ 16 ∧ c.cfg.nor.wrdi.opw ≤ 16 ∧ c.cfg.nor.rdsr.opw ≤ 16 ∧ c.cfg.nor.wrsr.opw ≤ 16 ∧
      c.cfg.nor.read.opw ≤ 16 ∧ c.cfg.nor.pp.opw ≤ 16 ∧ c.cfg.nor.rdid.opw ≤ 16 := by
  have := h.nor
  simp only [NorOpcodes.admitted, opwAdmitted, Bool.and_eq_true, decide_eq_true_eq] at this
  omega

theorem nWrite_inContract (h : CodecOk c) (x : Nat) (v : Byte) : requestInContract c.cfg (c.nWrite x v) :=
  spi_inContract (narrow_widths h).2.1 h.addrLen (by omega) (by omega)

theorem nErase_inContract (h : CodecOk c) (x : Nat) : requestInContract c.cfg (c.nErase x) :=
  spi_inContract (narrow_widths h).2.2.1 h.addrLen (by omega) (by omega)

theorem nEwen_inContract (h : CodecOk c) : requestInContract c.cfg c.nEwen :=
  spi_inContract (narrow_widths h).2.2.2.1 h.addrLen (by omega) (by omega)

theorem nEral_inContract (h : CodecOk c) : requestInContract c.cfg c.nEral :=
  spi_inContract (narrow_widths h).2.2.2.2.2 h.addrLen (by omega) (by omega)

theorem fWren_inContract (h : CodecOk c) : requestInContract c.cfg c.fWren :=
  spi_inContract (nor_widths h).1 (by omega) (by omega) (by omega)

theorem fPp_inContract (h : CodecOk c) (x : Nat) (d : List Byte) : requestInContract c.cfg (c.fPp x d) :=
  spi_inContract (nor_widths h).2.2.2.2.2.1 h.addrLen (by omega) (by omega)

theorem fSe4k_inContract (h : CodecOk c) (x : Nat) : requestInContract c.cfg (c.fSe4k x) :=
  spi_inContract (by omega) h.addrLen (by omega) (by omega)

/-- F_RDSFDP needs nothing of the handle: its widths are fixed (R171). -/
theorem fRdsfdp_inContract (c : WireCtx) (y : Nat) {n : Nat} (hn : n < 2 ^ 32) :
    requestInContract c.cfg (c.fRdsfdp y n) := spi_inContract (by omega) (by omega) (by omega) hn

theorem readFrame_inContract (h : CodecOk c) (hw : HwFamily) (x : Nat) {n : Nat} (hn : n < 2 ^ 32) :
    requestInContract c.cfg (c.readFrame hw x n) := by
  cases hw with
  | i2cEe => exact ⟨hn, rfl⟩
  | spiNarrow => exact spi_inContract (narrow_widths h).1 h.addrLen (byte_le _) hn
  | spiNorSfdp => exact spi_inContract (nor_widths h).2.2.2.2.1 h.addrLen (byte_le _) hn

theorem chunkFrame_inContract (h : CodecOk c) (hw : HwFamily) (x : Nat) (d : List Byte) :
    requestInContract c.cfg (c.chunkFrame hw x d) := by
  cases hw with
  | i2cEe => exact rfl
  | spiNarrow => exact nWrite_inContract h _ _
  | spiNorSfdp => exact fPp_inContract h _ _

theorem writeEnable_inContract (h : CodecOk c) {hw : HwFamily} {w : Request} (hwe : c.writeEnable hw = some w) :
    requestInContract c.cfg w := by
  unfold WireCtx.writeEnable at hwe
  split at hwe <;> cases hwe
  · exact nEwen_inContract h
  · exact fWren_inContract h

theorem narrowEraseFrame_inContract (h : CodecOk c) (x : Nat) (value : Byte) :
    requestInContract c.cfg (narrowEraseFrame c x value) := by
  unfold narrowEraseFrame
  split
  · exact nErase_inContract h x
  · exact nWrite_inContract h x value

/-! ### What a command in progress will send -/

/-- All requests of these jobs are within the contract. -/
def JobsInContract (p : Params) (jobs : List Job) : Prop := ∀ j ∈ jobs, ∀ r ∈ j.requests, requestInContract p r

theorem JobsInContract.flatMap {α : Type} {p : Params} {l : List α} {f : α → List Job}
    (h : ∀ a ∈ l, JobsInContract p (f a)) : JobsInContract p (l.flatMap f) := by
  intro j hj
  obtain ⟨a, ha, hja⟩ := List.mem_flatMap.mp hj
  exact h a ha j hja

theorem modifyRequests_inContract (h : CodecOk c) {hw : HwFamily} {f : Request} {ms : Word32}
    (hf : requestInContract c.cfg f) : ∀ r ∈ modifyRequests c hw f ms, requestInContract c.cfg r := by
  intro r hr
  rcases List.mem_append.mp hr with hr | hr
  · exact writeEnable_inContract h (Option.mem_toList.mp hr)
  · rcases List.mem_cons.mp hr with rfl | hr
    · exact hf
    · rw [List.mem_singleton.mp hr]; trivial

theorem chunkJobs_inContract (h : CodecOk c) (hw : HwFamily) (ms : Word32) (done : Nat) (plan : List (Nat × List Byte)) :
    JobsInContract c.cfg (chunkJobs c hw ms done plan) := by
  induction plan generalizing done with
  | nil => intro j hj; cases hj
  | cons k rest ih =>
    obtain ⟨cur, d⟩ := k
    rw [chunkJobs]
    intro j hj
    rcases List.mem_cons.mp hj with rfl | hj
    · rw [modifyJob_requests]; exact modifyRequests_inContract h (chunkFrame_inContract h _ _ _)
    · exact ih _ j hj

theorem pw_inContract (hw : HwFamily) (wrap : Bool) (x : Nat) (d : List Byte) (s : State) (h : CodecOk s.wireCtx) :
    JobsInContract s.cfg (s.pw hw wrap x d) :=
  JobsInContract.flatMap fun _ _ => chunkJobs_inContract h _ _ _ _

theorem fillPage_inContract (hw : HwFamily) (page : Nat) (value : Byte) (s : State) (h : CodecOk s.wireCtx) :
    JobsInContract s.cfg (s.fillPage hw page value) := chunkJobs_inContract h _ _ _ _

theorem JobsOf.inContract {hw : HwFamily} {b : Bool} {jobs : List Job} {units : List (Request × Word32)}
    (k : JobsOf c hw b jobs units) (h : CodecOk c) (hu : ∀ u ∈ units, requestInContract c.cfg u.1) :
    JobsInContract c.cfg jobs := by
  induction k with
  | nil => intro j hj; cases hj
  | cons hj _ ih =>
    obtain ⟨w, rfl⟩ := hj
    intro j hj
    rcases List.mem_cons.mp hj with rfl | hj
    · rw [modifyJob_requests]; exact modifyRequests_inContract h (hu _ (List.mem_cons_self ..))
    · exact ih (fun u hu' => hu u (List.mem_cons_of_mem _ hu')) j hj

theorem countLast_inContract {p : Params} {jobs : List Job} (h : JobsInContract p jobs) :
    JobsInContract p (countLast jobs) := by
  induction jobs with
  | nil => exact h
  | cons j rest ih =>
    cases rest with
    | nil =>
      intro k hk
      rw [countLast, List.mem_singleton] at hk
      subst hk
      exact h j (List.mem_cons_self ..)
    | cons l rest =>
      intro k hk
      rcases List.mem_cons.mp hk with rfl | hk
      · exact h k (List.mem_cons_self ..)
      · exact ih (fun m hm => h m (List.mem_cons_of_mem _ hm)) k hk

theorem fill_inContract (hw : HwFamily) (value : Byte) (s : State) (h : CodecOk s.wireCtx) :
    JobsInContract s.cfg (s.fill hw value) :=
  JobsInContract.flatMap fun _ _ => countLast_inContract (fillPage_inContract _ _ _ _ h)

theorem erasePageJobs_inContract (hw : HwFamily) (page : Nat) (value : Byte) (s : State) (h : CodecOk s.wireCtx) :
    JobsInContract s.cfg (s.erasePageJobs hw page value) := by
  cases hw with
  | i2cEe => exact fillPage_inContract _ _ _ _ h
  | spiNorSfdp => exact fillPage_inContract _ _ _ _ h
  | spiNarrow =>
    refine (narrowPage_jobsOf _ value s).inContract h fun u hu => ?_
    obtain ⟨i, -, rfl⟩ := List.mem_map.mp hu
    exact narrowEraseFrame_inContract h _ _

theorem eraseJobs_inContract (hw : HwFamily) (value : Byte) (s : State) (h : CodecOk s.wireCtx) :
    JobsInContract s.cfg (s.eraseJobs hw value) := by
  cases hw with
  | i2cEe => exact fill_inContract _ _ _ h
  | spiNorSfdp =>
    rw [State.eraseJobs]
    split
    · refine (sectors_jobsOf s).inContract h fun u hu => ?_
      obtain ⟨i, -, rfl⟩ := List.mem_map.mp hu
      exact fSe4k_inContract h _
    · exact fill_inContract _ _ _ h
  | spiNarrow =>
    rw [State.eraseJobs]
    by_cases hv : value = 0xFF#8
    · subst hv
      exact (eraseAll_jobsOf s).inContract h fun u hu => by
        rw [List.mem_singleton.mp hu]; exact nEral_inContract h
    · rw [State.eraseNarrow, if_neg hv]
      refine (narrowFill_jobsOf value s).inContract h fun u hu => ?_
      obtain ⟨i, -, rfl⟩ := List.mem_map.mp hu
      exact nWrite_inContract h _ _

end Sys2Proof.Machine
end

