-- ==== Sys2Proof/Laws/FirstStep.lean ====
section
/-! SUPPORT. Everything `exec` can do in the step that accepts a command, and in a frame, in one relation `FirstStep`; and
what every step puts on the wire. -/

namespace Sys2Proof.Machine

/-! ### One request a step -/

theorem endJobs_wire (g : Goal) (s : State) : (s.endJobs g).wire = s.wire := by
  obtain ⟨u, v, h, -, hw, -⟩ := endJobs_ends g s
  rw [h]; exact hw

theorem nextJob_wire (jobs : List Job) (g : Goal) (s : State) : (s.nextJob jobs g).wire = s.wire := by
  cases jobs with
  | nil => exact endJobs_wire g s
  | cons j rest => rfl

theorem stepJob_wire (j : Job) (rest : List Job) (g : Goal) (s : State) :
    (stepJob j rest g s).wire = (transport j.due s).2.wire := by
  rcases stepJob_cases j rest g s with ⟨e, h⟩ | ⟨r, m, -, h⟩ | ⟨-, h⟩
  · obtain ⟨u, v, hu, -, hw⟩ := failJob_ends g j e (transport j.due s).2
    rw [h, hu]; exact hw
  · rw [h]; rfl
  · rw [h, nextJob_wire, endJob_wire]

theorem startErase_wire (hw : HwFamily) (value : Byte) (s : State) : (s.startErase hw value).wire = s.wire := by
  rcases startErase_cases hw value s with ⟨-, h⟩ | ⟨-, h⟩
  · rw [h]; rfl
  · rw [h, nextJob_wire]; rfl

theorem endDiscovery_wire (who : Discoverer) (o : Option Word32) (s : State) : (s.endDiscovery who o).wire = s.wire := by
  cases who with
  | init => cases o <;> rfl
  | discover => cases o <;> rfl
  | erase value =>
    cases o with
    | some c => rfl
    | none => exact startErase_wire .spiNorSfdp value s

theorem readHeader_wire (who : Discoverer) (s : State) :
    (readHeader who s).wire = (transport (s.wireCtx.fRdsfdp 0 15) (s.setSfdpState .headerRead)).2.wire := by
  unfold readHeader
  have hctx : (s.setSfdpState .headerRead).wireCtx = s.wireCtx := rfl
  simp only [hctx]
  rcases transport (s.wireCtx.fRdsfdp 0 15) (s.setSfdpState .headerRead) with ⟨h | e, s1⟩
  · dsimp only
    split <;> simp [endDiscovery_wire]
  · simp [endDiscovery_wire]

theorem readTable_wire (who : Discoverer) (hd : Header) (s : State) :
    (readTable who hd s).wire =
      (transport (s.wireCtx.fRdsfdp hd.pp.toNat hd.ps.toNat) (s.setSfdpState .tableRead)).2.wire := by
  unfold readTable
  have hctx : (s.setSfdpState .tableRead).wireCtx = s.wireCtx := rfl
  simp only [hctx]
  rcases transport (s.wireCtx.fRdsfdp hd.pp.toNat hd.ps.toNat) (s.setSfdpState .tableRead) with ⟨h | e, s1⟩
  · dsimp only
    cases parseTable (s1.setPtBuf (h.take 8)).cfg (h.take 8) <;> simp [endDiscovery_wire, State.discoveryCommit]
  · simp [endDiscovery_wire]

/-- The next step of a command in progress issues the request due, and no other (R3). -/
theorem advance_requests (s : State) : s.advance.requests = s.requests ++ s.stillDue.head?.toList := by
  unfold State.advance State.stillDue
  rcases s.pending with _ | (⟨who, h⟩ | ⟨j, rest, g⟩)
  · simp
  · have := transport_requests (s.wireCtx.fRdsfdp h.pp.toNat h.ps.toNat) (s.setSfdpState .tableRead)
    rw [State.requests] at this
    dsimp only
    rw [State.requests, readTable_wire, this]; rfl
  · have := transport_requests j.due s
    rw [State.requests] at this
    dsimp only
    rw [State.requests, stepJob_wire, this]; rfl

/-! ### The step that accepts a command -/

/-- The request is within the contract wherever the handle's address width is. -/
def Allowed (s : State) (r : Request) : Prop :=
  ((∃ n hw, s.readyFamily n = some hw) → CodecOk s.wireCtx) → requestInContract s.cfg r

/-- Everything `exec i` can do to `s` when it answers a next state. -/
inductive FirstStep (i : Instr) (s : State) : State → Prop where
  /-- refuse; report; or issue one request and report -/
  | report (u : State) (d : List Byte) (v : Word32) : Quiet s u →
      (u.wire = s.wire ∨ ∃ r, Allowed s r ∧ u.wire = (transport r s).2.wire) → FirstStep i s ((u.setDout d).finish v)
  /-- INIT of an entry that needs no discovery (R280) -/
  | bind (v : Word32) (sel : Byte) (e : Entry) : i = .init v sel → s.handle.hstate = .uninit →
      s.cfg.registry[v.toNat]? = some e → e ≠ .sentinel → e ≠ .sfdp →
      FirstStep i s (((s.bind v sel e).setHstate .ready).finish ErrorName.ok.code)
  /-- INIT of an SFDP entry (R280) -/
  | bindSfdp (v : Word32) (sel : Byte) : i = .init v sel → s.handle.hstate = .uninit →
      s.cfg.registry[v.toNat]? = some .sfdp → FirstStep i s (readHeader .init (s.bind v sel .sfdp))
  /-- DEINIT (R284) -/
  | release (b : Bool) (u : State) (v : Word32) : i = .deinit b → (u = s ∨ u = (transport .tdeinit s).2) →
      FirstStep i s (u.resetHandle.finish v)
  /-- DISCOVER (R240), or an ERASE that discovers first (R228) -/
  | discover (who : Discoverer) :
      (i = .discover ∧ who = .discover ∨ ∃ value, i = .erase value ∧ who = .erase value ∧ s.sfdp.state ≠ .parsed) →
      s.handle.hstate ≠ .uninit → s.handle.family = .spiNorSfdp → FirstStep i s (readHeader who s)
  /-- WRITE and WRITE_BYTE (R185) -/
  | write (jobs : List Job) (p : Bool) (n : Nat) :
      s.handle.hstate = .ready → (∃ hw, hardwareFamily s.handle.family = some hw) → (∀ k ∈ jobs, k.counts = false) →
      (CodecOk s.wireCtx → JobsInContract s.cfg jobs) → FirstStep i s (s.nextJob jobs (.write p n)).advance
  /-- ERASE_PAGE (R220) and ERASE (R224) -/
  | erase (jobs : List Job) (g : Goal) :
      ((∃ page value, i = .erasePage page value) ∨ ∃ value, i = .erase value) →
      (s.handle.hstate = .ready ∨ s.handle.hstate = .bound ∧ s.sfdp.state = .parsed) →
      (∃ hw, hardwareFamily s.handle.family = some hw) →
      (CodecOk s.wireCtx → JobsInContract s.cfg jobs) → FirstStep i s ((s.setProgress 0#32).nextJob jobs g).advance
  /-- a frame by itself -/
  | frame (r : Request) : i.isCommand = false → FirstStep i s (transport r s).2

/-- The finish of a command that issued no request and leaves DOUT. -/
theorem FirstStep.refuse {i : Instr} {s : State} (v : Word32) : FirstStep i s (s.finish v) :=
  .report s s.port.dout v (Quiet.refl s) (.inl rfl)

theorem rawRequest_allowed {addr rlen : Word32} {opc : BitVec 16} {opw adw dmw : Byte} {s : State} {r : Request}
    (h : rawRequest addr rlen opc opw adw dmw s = some r) : requestInContract s.cfg r := by
  unfold rawRequest at h
  split at h
  · split at h
    · cases h
    · next hw =>
      cases h
      exact spi_inContract (c := s.wireCtx) (by omega) (by omega) (byte_le _) rlen.isLt
  · split at h
    · cases h; exact rfl
    · cases h; exact ⟨rlen.isLt, rfl⟩

theorem readOp_firstStep (i : Instr) (addr len : Word32) (s : State) : FirstStep i s (readOp addr len s) := by
  obtain ⟨u, d, v, h, q, hw⟩ := readOp_ends addr len s
  rw [h]
  refine .report u d v q (hw.imp id ?_)
  rintro ⟨hw, hf, h⟩
  exact ⟨_, fun hc => readFrame_inContract (c := s.wireCtx) (hc ⟨0, hw, (addressedFamily_some hf).1⟩) hw _ len.isLt, h⟩

theorem writeOp_firstStep {i : Instr} {din : Nat} {addr : Word32} {d : List Byte} {wrap p : Bool} {s t : State}
    (h : writeOp din addr d wrap p s = .next t) : FirstStep i s t := by
  rcases writeOp_cases h with ⟨-, rfl⟩ | ⟨hw, hf, rfl⟩
  · exact .refuse _
  · obtain ⟨-, hr, hfam⟩ := readyFamily_some (addressedFamily_some hf).1
    exact .write _ p _ hr ⟨hw, hfam⟩ (fun _ hk => pw_counts hk) (pw_inContract hw wrap _ d s)

/-- Everything the first step of an instruction can do. -/
theorem exec_cases {i : Instr} {s t : State} (h : exec i s = .next t) : FirstStep i s t := by
  cases i with
  | init v sel =>
    have h : execInit v sel s = .next t := h
    rcases execInit_cases v sel s with ⟨c, h'⟩ | ⟨hu, e, hreg, hsen, ⟨hne, h'⟩ | ⟨rfl, h'⟩⟩
    · rw [h'] at h; cases h; exact .refuse _
    · rw [h'] at h; cases h; exact .bind v sel e rfl hu hreg hsen hne
    · rw [h'] at h; cases h; exact .bindSfdp v sel rfl hu hreg
  | deinit b =>
    have h : execDeinit b s = .next t := h
    obtain ⟨u, v, h', hu⟩ := execDeinit_ends b s
    rw [h'] at h; cases h
    rcases hu with rfl | rfl | rfl
    · exact .refuse _
    · exact .release b s v rfl (.inl rfl)
    · exact .release b _ v rfl (.inr rfl)
  | discover =>
    have h : execDiscover s = .next t := h
    rcases execDiscover_cases s with h' | ⟨h1, h2, h'⟩
    · rw [h'] at h; cases h; exact .refuse _
    · rw [h'] at h; cases h; exact .discover .discover (.inl ⟨rfl, rfl⟩) h1 h2
  | getInfo =>
    have h : execGetInfo s = .next t := h
    obtain ⟨d, v, h'⟩ := execGetInfo_ends s
    rw [h'] at h; cases h; exact .report s d v (Quiet.refl s) (.inl rfl)
  | getSfdp =>
    have h : execGetSfdp s = .next t := h
    obtain ⟨d, v, h'⟩ := execGetSfdp_ends s
    rw [h'] at h; cases h; exact .report s d v (Quiet.refl s) (.inl rfl)
  | read addr len =>
    have h : Host.Outcome.next (readOp addr len s) = .next t := h
    cases h; exact readOp_firstStep _ _ _ _
  | readByte addr =>
    have h : Host.Outcome.next (readOp addr 1#32 s) = .next t := h
    cases h; exact readOp_firstStep _ _ _ _
  | write addr len wrap p => exact writeOp_firstStep h
  | writeByte addr value => exact writeOp_firstStep h
  | erasePage page value =>
    have h : execErasePage page value s = .next t := h
    rcases execErasePage_cases page value s with h' | ⟨hw, hf, -, -, h'⟩
    · rw [h'] at h; cases h; exact .refuse _
    · rw [h'] at h; cases h
      obtain ⟨-, hr, hfam⟩ := readyFamily_some hf
      exact .erase _ _ (.inl ⟨page, value, rfl⟩) (.inl hr) ⟨hw, hfam⟩
        (erasePageJobs_inContract hw _ value (s.setProgress 0#32))
  | erase value =>
    have h : execErase value s = .next t := h
    rcases execErase_cases value s with ⟨-, h'⟩ | ⟨hf, hp, h'⟩ | ⟨hw, hf, hp, h'⟩
    · rw [h'] at h; cases h; exact .refuse _
    · rw [h'] at h; cases h
      obtain ⟨-, hu, hfam, -⟩ := eraseFamily_some hf
      exact .discover (.erase value) (.inr ⟨value, rfl, rfl, hp⟩) hu (hardwareFamily_some hfam)
    · rw [h'] at h; cases h
      obtain ⟨-, hu, hfam, hb⟩ := eraseFamily_some hf
      rcases startErase_cases hw value s with ⟨-, h1⟩ | ⟨-, h1⟩
      · rw [h1]; exact .refuse _
      · rw [h1]
        refine .erase _ _ (.inr ⟨value, rfl⟩) ?_ ⟨hw, hfam⟩ (eraseJobs_inContract hw value (s.setProgress 0#32))
        cases hs : s.handle.hstate with
        | uninit => exact absurd hs hu
        | ready => exact .inl rfl
        | bound => exact .inr ⟨rfl, hp (hb hs)⟩
  | rawXfer addr len rlen opc opw adw dmw =>
    have h : execRawXfer addr len rlen opc opw adw dmw s = .next t := h
    obtain ⟨u, d, v, h', hu⟩ := execRawXfer_ends addr len rlen opc opw adw dmw s
    rw [h'] at h; cases h
    rcases hu with rfl | ⟨r, hr, rfl⟩
    · exact .report u d v (Quiet.refl u) (.inl rfl)
    · exact .report _ d v (transport_quiet r s) (.inr ⟨r, fun _ => rawRequest_allowed hr, rfl⟩)
  | _ =>
    have h : Host.Outcome.next (transport _ s).2 = .next t := h
    cases h; exact .frame _ rfl

end Sys2Proof.Machine
end

