-- ==== Sys2Proof/Laws/Invariant.lean ====
section
/-! SUPPORT. Small lemmas of the invariants (10_state.md R39): what they depend on, and the parameters and the requests due
through a step. -/

namespace Sys2Proof.Machine

/-- The settled invariants read the parameters, the SFDP registers and the handle but PROGRESS; an UNINIT handle's
PROGRESS as well. -/
theorem State.Settled.of_same {s t : State} (h : s.Settled) (hc : t.cfg = s.cfg) (hs : t.sfdp = s.sfdp)
    (hh : t.handle = s.handle ∨
      s.handle.hstate ≠ .uninit ∧ t.handle = { s.handle with progress := t.handle.progress }) : t.Settled := by
  have hp : t.handle = { s.handle with progress := t.handle.progress } := by
    rcases hh with hh | hh
    · rw [hh]
    · exact hh.2
  constructor
  · rcases hh with hh | ⟨hu, hh⟩
    · rw [hh, hs]; exact h.uninitReset
    · intro k; rw [hh] at k; exact absurd k hu
  · rw [hp, hc]; exact h.i2cGeometry
  · rw [hp, hc]; exact h.narrowGeometry
  · rw [hp, hs]; exact h.norParsed
  · rw [hp, hs]; exact h.boundFailed
  · rw [hp]; exact h.stubNoGeometry
  · have : t.NorGeometry ↔ s.NorGeometry := by unfold State.NorGeometry; rw [hp, hs, hc]
    rw [this, hp]; exact h.norGeometry
  · rw [hp, hs]; exact h.sfdpOnlyOnNor
  · rw [hp, hc]; exact h.ifaceFollows

theorem State.Settled.quiet {s t : State} (h : s.Settled) (q : Quiet s t) : t.Settled :=
  h.of_same q.cfg q.sfdp (.inl q.handle)

theorem State.Settled.quietErase {s t : State} (h : s.Settled) (hu : s.handle.hstate ≠ .uninit) (q : QuietErase s t) :
    t.Settled := h.of_same q.cfg q.sfdp (.inr ⟨hu, q.handle⟩)

/-- The legal values of the handle do not depend on PROGRESS. -/
theorem Handle.Legal.of_progress {p : Params} {g h : Handle} (l : g.Legal p)
    (e : h = { g with progress := h.progress }) : h.Legal p := by rw [e]; exact ⟨l.variant, l.addrLen, l.pageSize⟩

/-- Nor, of a bound handle, on HSTATE. -/
theorem Handle.Legal.of_hstate {p : Params} {g h : Handle} (l : g.Legal p) (hu : g.hstate ≠ .uninit)
    (e : h = { g with hstate := h.hstate }) : h.Legal p := by
  rw [e]; exact ⟨fun _ => l.variant hu, l.addrLen, l.pageSize⟩

/-- The reset handle and the reset SFDP registers have legal values, with any registry (R32, R34). -/
theorem Handle.reset_legal (p : Params) : Handle.reset.Legal p := ⟨fun h => absurd rfl h, by decide, .inl rfl⟩

theorem Sfdp.reset_legal : Sfdp.reset.Legal := .inl ⟨by decide, rfl⟩

/-- A discovery that has not succeeded keeps the legal values: it writes SFDP_STATE and the buffers only (R35). -/
theorem Sfdp.Legal.of_buffers {f g : Sfdp} (l : f.Legal) (hp : g.state ≠ .parsed)
    (e : g = { f with state := g.state, hdrBuf := g.hdrBuf, ptBuf := g.ptBuf }) : g.Legal := by
  rcases l with ⟨-, l⟩ | l
  · left; refine ⟨hp, e.trans ?_⟩; rw [l]
  · right; rw [e]; exact l

/-- A power of two in 32 bits is a legal value of PAGE_SIZE: from 2^32 on it is 0. -/
theorem legalPageSize_two_pow (k : Nat) : LegalPageSize (BitVec.ofNat 32 (2 ^ k)) := by
  by_cases hk : k < 32
  · exact .inr ⟨k, by rw [BitVec.toNat_ofNat, Nat.mod_eq_of_lt (Nat.pow_lt_pow_right (by decide) hk)]⟩
  · obtain ⟨j, rfl⟩ := Nat.exists_eq_add_of_le (Nat.le_of_not_lt hk)
    exact .inl (BitVec.eq_of_toNat_eq (by simp [Nat.pow_add]))

/-- PAGE_SIZE is 0 or a power of two after INIT of an admitted entry, one of 2^32 bytes included (R32). -/
theorem Geometry.pageSizeRegister_legal {g : Geometry} (h : pow2 g.pageSize = true) :
    LegalPageSize g.pageSizeRegister := by
  unfold Geometry.pageSizeRegister
  split
  · obtain ⟨k, hk⟩ := (pow2_iff _).mp h; rw [hk]; exact legalPageSize_two_pow k
  · exact legalPageSize_two_pow _

/-- INIT writes legal values (R32, R142). -/
theorem bind_legal {s : State} {v : Word32} {sel : Byte} {e : Entry} (ha : s.cfg.admitted = true)
    (he : s.cfg.registry[v.toNat]? = some e) (hs : e ≠ .sentinel) : (s.bind v sel e).handle.Legal s.cfg := by
  have hreg : s.cfg.registry.all Entry.admitted = true := by
    simp only [Params.admitted, registryAdmitted, Bool.and_eq_true] at ha; exact ha.1.1.1.1.1
  have hadm := List.all_eq_true.mp hreg _ (List.mem_of_getElem? he)
  have hv := (List.getElem?_eq_some_iff.mp he).1
  cases e with
  | hwI2cEe g =>
    simp only [Entry.admitted, Geometry.admittedI2c, Geometry.admitted, Bool.and_eq_true, Bool.or_eq_true,
      beq_iff_eq] at hadm
    exact ⟨fun _ => hv, by simp [State.bind, mapEntry, Geometry.addrLenRegister]; omega,
      Geometry.pageSizeRegister_legal (by simp [hadm])⟩
  | hwSpiNarrow g =>
    simp only [Entry.admitted, Geometry.admittedNarrow, Geometry.admitted, Bool.and_eq_true,
      decide_eq_true_eq] at hadm
    exact ⟨fun _ => hv, by simp [State.bind, mapEntry, Geometry.addrLenRegister]; omega,
      Geometry.pageSizeRegister_legal (by simp [hadm])⟩
  | sfdp => exact ⟨fun _ => hv, Nat.zero_le _, .inl rfl⟩
  | sentinel => exact absurd rfl hs
  | stub0 => exact ⟨fun _ => hv, Nat.zero_le _, .inl rfl⟩
  | stub1 => exact ⟨fun _ => hv, Nat.zero_le _, .inl rfl⟩

theorem setPending_self {s : State} {p : Pending} (h : s.pending = some p) : s.setPending p = s := by
  cases s; simp_all [State.setPending]

theorem nextJob_cfg (jobs : List Job) (g : Goal) (s : State) : (s.nextJob jobs g).cfg = s.cfg := by
  cases jobs with
  | nil => obtain ⟨u, v, e, q, -⟩ := endJobs_ends g s; simp [State.nextJob, e, q.cfg]
  | cons j rest => rfl

theorem endDiscovery_cfg (who : Discoverer) (o : Option Word32) (s : State) : (s.endDiscovery who o).cfg = s.cfg := by
  cases who with
  | init => cases o <;> rfl
  | discover => cases o <;> rfl
  | erase value =>
    cases o with
    | some c => rfl
    | none =>
      change (s.startErase .spiNorSfdp value).cfg = s.cfg
      rcases startErase_cases .spiNorSfdp value s with ⟨-, h⟩ | ⟨-, h⟩
      · rw [h]; rfl
      · rw [h, nextJob_cfg]; rfl

/-- A command that falls due with these jobs will send nothing outside the contract if they do not. -/
theorem nextJob_stillDue {jobs : List Job} {g : Goal} {s : State} {p : Params} (h : JobsInContract p jobs) :
    ∀ r ∈ (s.nextJob jobs g).stillDue, requestInContract p r := by
  intro r hr
  cases jobs with
  | nil =>
    obtain ⟨u, v, e, -⟩ := endJobs_ends g s
    simp [State.nextJob, e, State.stillDue] at hr
  | cons j rest =>
    obtain ⟨k, hk, hr⟩ := List.mem_flatMap.mp (show r ∈ (j :: rest).flatMap Job.requests from hr)
    exact h k hk r hr

end Sys2Proof.Machine
end

