-- ==== Sys2Proof/Laws/PerInstr.lean ====
section
/-! SUPPORT. One family of statements made per instruction: each row of the opcode table has exactly one of the two
encodings of 30_encoding.md. A host command has a CMDW and no wire frame; a frame has a wire request, whatever the handle,
and no CMDW (R100, R117). -/

/-- A host command has a CMDW and no frame, a wire frame has a request and no CMDW. -/
def Sys2Proof.Laws.CommandOrFrame.Statement (i : Sys2Proof.Instr) : Prop :=
  (Sys2Proof.encode i).isSome = i.isCommand ∧ ∀ c, (Sys2Proof.encodeFrame c i).isSome = !i.isCommand

namespace Sys2Proof.Laws.CommandOrFrame

theorem init : ∀ a b, Statement (.init a b) :=
  fun _ _ => ⟨rfl, fun _ => rfl⟩

theorem deinit : ∀ a, Statement (.deinit a) :=
  fun _ => ⟨rfl, fun _ => rfl⟩

theorem discover : Statement .discover :=
  ⟨rfl, fun _ => rfl⟩

theorem getInfo : Statement .getInfo :=
  ⟨rfl, fun _ => rfl⟩

theorem getSfdp : Statement .getSfdp :=
  ⟨rfl, fun _ => rfl⟩

theorem read : ∀ a b, Statement (.read a b) :=
  fun _ _ => ⟨rfl, fun _ => rfl⟩

theorem readByte : ∀ a, Statement (.readByte a) :=
  fun _ => ⟨rfl, fun _ => rfl⟩

theorem write : ∀ a b c d, Statement (.write a b c d) :=
  fun _ _ _ _ => ⟨rfl, fun _ => rfl⟩

theorem writeByte : ∀ a b, Statement (.writeByte a b) :=
  fun _ _ => ⟨rfl, fun _ => rfl⟩

theorem erasePage : ∀ a b, Statement (.erasePage a b) :=
  fun _ _ => ⟨rfl, fun _ => rfl⟩

theorem erase : ∀ a, Statement (.erase a) :=
  fun _ => ⟨rfl, fun _ => rfl⟩

theorem rawXfer : ∀ a b c d e f g, Statement (.rawXfer a b c d e f g) :=
  fun _ _ _ _ _ _ _ => ⟨rfl, fun _ => rfl⟩

theorem nRead : ∀ a b, Statement (.nRead a b) :=
  fun _ _ => ⟨rfl, fun _ => rfl⟩

theorem nWrite : ∀ a b, Statement (.nWrite a b) :=
  fun _ _ => ⟨rfl, fun _ => rfl⟩

theorem nErase : ∀ a, Statement (.nErase a) :=
  fun _ => ⟨rfl, fun _ => rfl⟩

theorem nEwen : Statement .nEwen :=
  ⟨rfl, fun _ => rfl⟩

theorem nEwds : Statement .nEwds :=
  ⟨rfl, fun _ => rfl⟩

theorem nEral : Statement .nEral :=
  ⟨rfl, fun _ => rfl⟩

theorem fWren : Statement .fWren :=
  ⟨rfl, fun _ => rfl⟩

theorem fWrdi : Statement .fWrdi :=
  ⟨rfl, fun _ => rfl⟩

theorem fRdsr : Statement .fRdsr :=
  ⟨rfl, fun _ => rfl⟩

theorem fWrsr : ∀ a, Statement (.fWrsr a) :=
  fun _ => ⟨rfl, fun _ => rfl⟩

theorem fRead : ∀ a b, Statement (.fRead a b) :=
  fun _ _ => ⟨rfl, fun _ => rfl⟩

theorem fPp : ∀ a b, Statement (.fPp a b) :=
  fun _ _ => ⟨rfl, fun _ => rfl⟩

theorem fRdid : Statement .fRdid :=
  ⟨rfl, fun _ => rfl⟩

theorem fRdsfdp : ∀ a b, Statement (.fRdsfdp a b) :=
  fun _ _ => ⟨rfl, fun _ => rfl⟩

theorem fSe4k : ∀ a, Statement (.fSe4k a) :=
  fun _ => ⟨rfl, fun _ => rfl⟩

theorem iWrite : ∀ a b, Statement (.iWrite a b) :=
  fun _ _ => ⟨rfl, fun _ => rfl⟩

theorem iRead : ∀ a b, Statement (.iRead a b) :=
  fun _ _ => ⟨rfl, fun _ => rfl⟩

end Sys2Proof.Laws.CommandOrFrame
end

