-- ==== Sys2Proof/Machine/Text.lean ====
section
/-! DEFINITION. The textual syntax of host commands (30_encoding.md R120, with the forms of R102): reading a program
of text lines into the commands the host hands over, and writing a command out. The machine itself never reads text. -/

namespace Sys2Proof.Machine

/-! ### Reading -/

/-- A line cut at every `sep`. -/
def cutAt (sep : Char) (cs : List Char) : List (List Char) :=
  cs.foldr (fun c acc =>
    match acc with
    | [] => if c = sep then [[], []] else [[c]]
    | w :: ws => if c = sep then [] :: w :: ws else (c :: w) :: ws) [[]]

/-- Blanks at both ends dropped. -/
def trimBlanks (cs : List Char) : List Char :=
  ((cs.dropWhile (· = ' ')).reverse.dropWhile (· = ' ')).reverse

/-- The value of a digit, capitals and small letters alike. -/
def digitValue (c : Char) : Option Nat :=
  if '0' ≤ c ∧ c ≤ '9' then some (c.toNat - '0'.toNat)
  else if 'a' ≤ c ∧ c ≤ 'f' then some (c.toNat - 'a'.toNat + 10)
  else if 'A' ≤ c ∧ c ≤ 'F' then some (c.toNat - 'A'.toNat + 10)
  else none

/-- A nonempty string of digits in the given base. -/
def readDigits (base : Nat) (cs : List Char) : Option Nat :=
  if cs = [] then none
  else
    cs.foldl (fun acc c => do
      let n ← acc
      let d ← digitValue c
      if d < base then some (n * base + d) else none) (some 0)

/-- "Numbers are written in decimal or with a `0x` or `0b` prefix." -/
def readNumber (cs : List Char) : Option Nat :=
  match trimBlanks cs with
  | '0' :: 'x' :: ds => readDigits 16 ds
  | '0' :: 'b' :: ds => readDigits 2 ds
  | ds => readDigits 10 ds

/-- A number that fits its field. -/
def readField (w : Nat) (cs : List Char) : Option (BitVec w) := do
  let n ← readNumber cs
  if n < 2 ^ w then some (BitVec.ofNat w n) else none

/-- The pair form `value/width` of RAW_XFER. -/
def readPair (w : Nat) (cs : List Char) : Option (BitVec w × Byte) :=
  match cutAt '/' cs with
  | [v, k] => do return (← readField w v, ← readField 8 k)
  | _ => none

/-- A mnemonic with its operands (R102). -/
def readForm (mnemonic : String) (ops : List (List Char)) : Option Instr :=
  match mnemonic, ops with
  | "INIT", [v, s] => do return .init (← readField 32 v) (← readField 8 s)
  | "DEINIT", [] => some (.deinit false)
  | "DEINIT", [f] => if String.ofList f = "tdeinit" then some (.deinit true) else none
  | "DISCOVER", [] => some .discover
  | "GET_INFO", [] => some .getInfo
  | "GET_SFDP", [] => some .getSfdp
  | "READ", [a, l] => do return .read (← readField 32 a) (← readField 32 l)
  | "READ_BYTE", [a] => do return .readByte (← readField 32 a)
  | "WRITE", a :: l :: flags => do
      let (wrap, partialAcc) ←
        match flags.map String.ofList with
        | [] => some (false, false)
        | ["wrap"] => some (true, false)
        | ["partial"] => some (false, true)
        | ["wrap", "partial"] => some (true, true)
        | _ => none
      return .write (← readField 32 a) (← readField 32 l) wrap partialAcc
  | "WRITE_BYTE", [a, v] => do return .writeByte (← readField 32 a) (← readField 8 v)
  | "ERASE_PAGE", [p, v] => do return .erasePage (← readField 32 p) (← readField 8 v)
  | "ERASE", [v] => do return .erase (← readField 8 v)
  | "RAW_XFER", [o, a, d, l, r] => do
      let (opc, opw) ← readPair 16 o
      let (addr, adw) ← readPair 32 a
      return .rawXfer addr (← readField 32 l) (← readField 32 r) opc opw adw (← readField 8 d)
  | _, _ => none

/-- The operands after the mnemonic: none, or a list with commas. -/
def readOperands (cs : List Char) : List (List Char) :=
  if trimBlanks cs = [] then [] else (cutAt ',' cs).map trimBlanks

/-- A command line `MNEMONIC op1, op2, …`. -/
def readCommand (line : String) : Option Instr :=
  let (m, ops) := (trimBlanks line.toList).span (· ≠ ' ')
  readForm (String.ofList m) (readOperands ops)

/-- A data line `DIN [b0, b1, …]`; `none` for a line of another kind. -/
def readDin (line : String) : Option (List Byte) :=
  match trimBlanks line.toList with
  | 'D' :: 'I' :: 'N' :: rest =>
      match trimBlanks rest with
      | '[' :: body =>
          match body.reverse with
          | ']' :: bytes => (readOperands bytes.reverse).mapM (readField 8)
          | _ => none
      | _ => none
  | _ => none

/-- One line, from the last to the first: the commands after it, and the data line that waits for its command. -/
def readLine (line : String) (acc : Option (List Offer × Option (List Byte))) :
    Option (List Offer × Option (List Byte)) := do
  let (offers, waiting) ← acc
  match readDin line, waiting with
  | some d, none => some (offers, some d)
  | some _, some _ => none
  | none, _ => do
      let i ← readCommand line
      let w ← encode i
      return (⟨w, waiting.getD []⟩ :: offers, none)

/-- "A program is a list of such lines run in order, one command at a time"; "A command with no DIN line has empty DIN".
The answer is what the host hands over, in order; `none` where a line has no form of R102. -/
def readProgram (lines : List String) : Option (List Offer) := do
  let (offers, waiting) ← lines.foldr readLine (some ([], none))
  if waiting = none then some offers else none

/-! ### Writing -/

/-- Numbers in decimal. -/
def numberText {w : Nat} (b : BitVec w) : String := Nat.repr b.toNat

/-- The text of a host command; `none` for a wire frame, which has no textual form. -/
def commandText : Instr → Option String
  | .init v s => some ("INIT " ++ numberText v ++ ", " ++ numberText s)
  | .deinit t => some (if t then "DEINIT tdeinit" else "DEINIT")
  | .discover => some "DISCOVER"
  | .getInfo => some "GET_INFO"
  | .getSfdp => some "GET_SFDP"
  | .read a l => some ("READ " ++ numberText a ++ ", " ++ numberText l)
  | .readByte a => some ("READ_BYTE " ++ numberText a)
  | .write a l w p =>
      some ("WRITE " ++ numberText a ++ ", " ++ numberText l ++ (if w then ", wrap" else "") ++ if p then ", partial" else "")
  | .writeByte a v => some ("WRITE_BYTE " ++ numberText a ++ ", " ++ numberText v)
  | .erasePage p v => some ("ERASE_PAGE " ++ numberText p ++ ", " ++ numberText v)
  | .erase v => some ("ERASE " ++ numberText v)
  | .rawXfer a l r opc opw adw dmw =>
      some
        ("RAW_XFER " ++ numberText opc ++ "/" ++ numberText opw ++ ", " ++ numberText a ++ "/" ++ numberText adw ++
          ", " ++ numberText dmw ++ ", " ++ numberText l ++ ", " ++ numberText r)
  | .nRead _ _ => none
  | .nWrite _ _ => none
  | .nErase _ => none
  | .nEwen => none
  | .nEwds => none
  | .nEral => none
  | .fWren => none
  | .fWrdi => none
  | .fRdsr => none
  | .fWrsr _ => none
  | .fRead _ _ => none
  | .fPp _ _ => none
  | .fRdid => none
  | .fRdsfdp _ _ => none
  | .fSe4k _ => none
  | .iWrite _ _ => none
  | .iRead _ _ => none

/-- The data line of a command. -/
def dinText (d : List Byte) : String := "DIN [" ++ ", ".intercalate (d.map numberText) ++ "]"

end Sys2Proof.Machine
end

