-- ==== Sys2Proof/Tests/Slice0.lean ====
section
/-! SUPPORT. The model's own tests: the WellFormed smoke, words and frames written out from the spec's encodings, single
steps with the results that 95_test_vectors.md gives, and a witness for the hypotheses of each obligation. -/

namespace Sys2Proof.Tests

open Sys2Proof.Machine Sys2Proof.Claims

/-! ### Small states -/

/-- The next state, if there is one. -/
def nextOf : Result → Option State
  | .next s => some s
  | .fault _ => none
  | .refused _ => none

/-- The state after the first step and at most seven more: no command of these tests needs more requests. -/
def endOf (r : Result) : Option State := (nextOf r).map (carryOn 7)

/-- What most tests look at: STATUS, DOUT and the requests issued. -/
def report (r : Result) : Option (Int × List Byte × List Request) :=
  (endOf r).map fun t => (t.port.status.toInt, t.port.dout, t.requests)

/-- STATUS, PROGRESS and the requests issued. -/
def progressReport (r : Result) : Option (Int × Nat × List Request) :=
  (endOf r).map fun t => (t.port.status.toInt, t.handle.progress.toNat, t.requests)

/-- The reset state with this handle, write data and transport answers. -/
def stateWith (h : Handle) (din : List Byte) (x : List XferAnswer) (c : List CountAnswer) : State :=
  { State.reset with handle := h, port := { Port.reset with din := din }, answers := ⟨x, c, []⟩ }

/-- CFG-I2C of 95_test_vectors.md section 0. -/
def i2cHandle : Handle :=
  { Handle.reset with
    hstate := .ready, family := .i2cEe, iface := .i2c, size := 2048, addrLen := 8, pageSize := 16
    writeDelayMs := 5, select := 0xA0 }

/-- CFG-I2C16. -/
def i2c16Handle : Handle := { i2cHandle with variant := 1, size := 32768, addrLen := 16, pageSize := 64 }

/-- CFG-NAR. -/
def narrowHandle : Handle :=
  { Handle.reset with
    hstate := .ready, family := .spiNarrow, iface := .spi, variant := 3, size := 128, addrLen := 7, pageSize := 1
    writeDelayMs := 5 }

/-- CFG-NOR. -/
def norHandle : Handle :=
  { Handle.reset with
    hstate := .ready, family := .spiNorSfdp, iface := .spi, variant := 5, size := 131072, addrLen := 24
    pageSize := 64, writeDelayMs := 3 }

/-- CFG-STUB0. -/
def stub0Handle : Handle :=
  { Handle.reset with hstate := .ready, family := .stub0, iface := .spi, variant := 6 }

/-- Vector S1's header. -/
def s1Header : List Byte := [0x53, 0x46, 0x44, 0x50, 0x06, 0x01, 0x00, 0xFF, 0x00, 0x06, 0x01, 0x02, 0x80, 0x00, 0x00]

/-- Vector S1's table. -/
def s1Table : List Byte := [0xE5, 0x20, 0xF1, 0xFF, 0x00, 0x00, 0x10, 0x00]

/-- The SFDP registers after vector S1. -/
def s1Sfdp : Sfdp where
  state := .parsed
  hdrVer := 0x0106
  hdrCount := 0
  ptVer := 0x0106
  ptSize := 8
  ptPtr := 0x80
  writeGran := 64
  erase4kOp := 0x20
  addrBytes := 3
  dtr := false
  arraySize := 131072
  hdrBuf := s1Header
  ptBuf := s1Table

def i2c (din : List Byte) (x : List XferAnswer) (c : List CountAnswer) : State := stateWith i2cHandle din x c

def narrow (din : List Byte) (x : List XferAnswer) : State := stateWith narrowHandle din x []

def nor (din : List Byte) (x : List XferAnswer) : State := { stateWith norHandle din x [] with sfdp := s1Sfdp }

/-- A NOR part of two sectors, as S22's size with W2 doubled. -/
def smallNor (x : List XferAnswer) : State :=
  { nor [] x with
    handle := { norHandle with size := 8192 }, sfdp := { s1Sfdp with arraySize := 8192 } }

/-- The handle of vector S27: BOUND after a failed re-run. -/
def boundNor (x : List XferAnswer) : State :=
  { nor [] x with handle := { norHandle with hstate := .bound }, sfdp := { s1Sfdp with state := .failed } }

/-- A state with one command at the host port. -/
def offered (s : State) (w : CmdW) (din : List Byte) : State := { s with hostIn := [.command ⟨w, din⟩] }

/-- The SPI request with the timeout of the suggested parameters. -/
def spiReq (opc : BitVec 16) (opw : Nat) (adr : Word32) (adw dmw : Nat) (d : List Byte) (n : Nat) : Request :=
  .spiXfer { opc := opc, opw := opw, adr := adr, adw := adw, dmw := dmw, wdata := d, rlen := n, tmo := 1000 }

/-! ### WellFormed -/

theorem test_wf_nRead : Instr.wellFormed (.nRead 5 0) = false := by decide
theorem test_wf_fRead : Instr.wellFormed (.fRead 5 0) = false := by decide
theorem test_wf_fPp : Instr.wellFormed (.fPp 5 []) = false := by decide
theorem test_wf_fRdsfdp : Instr.wellFormed (.fRdsfdp 5 0) = false := by decide
theorem test_wf_fSe4k : Instr.wellFormed (.fSe4k 4095) = false := by decide
theorem test_wf_iWrite : Instr.wellFormed (.iWrite 5 []) = false := by decide
theorem test_wf_iRead : Instr.wellFormed (.iRead 5 0) = false := by decide
theorem test_wf_good :
    ([.nRead 5 1, .fRead 5 1, .fPp 5 [0], .fRdsfdp 5 1, .fSe4k 4096, .iWrite 5 [0], .iRead 5 1] : List Instr).all
      Instr.wellFormed = true := by decide

/-! ### Host commands: the words of 95_test_vectors.md section 3, byte 0 first -/

/-- The 24 bytes that begin with these, zeros after. -/
def padded (bs : List Byte) : List Byte := bs ++ List.replicate (24 - bs.length) 0

theorem test_decode_EN1_init : decodeBytes (padded [0x01, 0, 0, 0xA0]) = .ok (.init 0 0xA0) := by decide
theorem test_decode_EN2_init : decodeBytes (padded [0x01, 0, 0, 0, 0x05]) = .ok (.init 5 0) := by decide
theorem test_decode_EN3_deinit : decodeBytes (padded [0x02, 0x04]) = .ok (.deinit true) := by decide
theorem test_decode_EN4_discover : decodeBytes (padded [0x03]) = .ok .discover := by decide
theorem test_decode_EN5_getInfo : decodeBytes (padded [0x04]) = .ok .getInfo := by decide
theorem test_decode_EN6_getSfdp : decodeBytes (padded [0x05]) = .ok .getSfdp := by decide
theorem test_decode_EN7_read :
    decodeBytes (padded [0x10, 0, 0, 0, 0xFE, 0x01, 0, 0, 0x02]) = .ok (.read 0x1FE 2) := by decide
theorem test_decode_EN8_readByte : decodeBytes (padded [0x11, 0, 0, 0, 0x06]) = .ok (.readByte 6) := by decide
theorem test_decode_EN9_write :
    decodeBytes (padded [0x12, 0x01, 0, 0, 0xF8, 0x07, 0, 0, 0x10]) = .ok (.write 0x7F8 16 true false) := by decide
theorem test_decode_EN10_write :
    decodeBytes (padded [0x12, 0x02, 0, 0, 0x08, 0, 0, 0, 0x28]) = .ok (.write 8 40 false true) := by decide
theorem test_decode_EN11_writeByte :
    decodeBytes (padded [0x13, 0, 0x5A, 0, 0x04]) = .ok (.writeByte 4 0x5A) := by decide
theorem test_decode_EN12_erasePage :
    decodeBytes (padded [0x20, 0, 0xFF, 0, 0x06]) = .ok (.erasePage 6 0xFF) := by decide
theorem test_decode_EN13_erase : decodeBytes (padded [0x21, 0, 0xFF]) = .ok (.erase 0xFF) := by decide
theorem test_decode_EN14_rawXfer :
    decodeBytes (padded [0x30, 0, 0, 0, 0, 0, 0, 0, 0, 0, 0, 0, 0x03, 0, 0, 0, 0x9F, 0, 0x08]) =
      .ok (.rawXfer 0 0 3 0x9F 8 0 0) := by decide
theorem test_decode_EN16_rawXfer :
    decodeBytes
        (padded [0x30, 0, 0, 0, 0x56, 0x34, 0x12, 0, 0x02, 0, 0, 0, 0, 0, 0, 0, 0xFF, 0x01, 0x08, 0x10, 0x04]) =
      .ok (.rawXfer 0x123456 2 0 0x1FF 8 16 4) := by decide
theorem test_decode_X2_illegal : decodeBytes (padded [0x06]) = .error (.illegalCommand 0x06) := by decide
theorem test_decode_X4_flags : decodeBytes (padded [0x10, 0x08]) = .error .reservedBits := by decide
theorem test_decode_X5_rsvd :
    decodeBytes (padded [0x10, 0, 0, 0, 0, 0, 0, 0, 1, 0, 0, 0, 0, 0, 0, 0, 0, 0, 0, 0, 0, 0x01]) =
      .error .reservedBits := by decide
theorem test_decode_X8_lowest_check_first : decodeBytes (padded [0x00, 0x08]) = .error (.illegalCommand 0x00) := by
  decide
theorem test_decode_X13_flags_ignored :
    decodeBytes (padded [0x10, 0x07, 0, 0, 0, 0, 0, 0, 1]) = .ok (.read 0 1) := by decide
theorem test_decode_short : decodeBytes [0x03] = .error (.badLength 1) := by decide
theorem test_encode_EN16 :
    (encode (.rawXfer 0x123456 2 0 0x1FF 8 16 4)).map cmdBytes =
      some (padded [0x30, 0, 0, 0, 0x56, 0x34, 0x12, 0, 0x02, 0, 0, 0, 0, 0, 0, 0, 0xFF, 0x01, 0x08, 0x10, 0x04]) := by
  decide
theorem test_table_word : decodeTableWord 8 0x21 = some (.erase 0) := by decide
theorem test_fetch_word :
    (nextOf (step (State.reset.withFetchWord 8 0x01))).map (fun t => (t.handle.hstate, t.handle.size)) =
      some (.ready, 2048) := by decide

/-! ### Wire frames: the requests of 95_test_vectors.md section 4 -/

def i2cCtx : WireCtx := (i2c [] [] []).wireCtx
def narrowCtx : WireCtx := (narrow [] []).wireCtx
def norCtx : WireCtx := (nor [] []).wireCtx

theorem test_frame_F14_iWrite :
    decodeFrame i2cCtx (.i2cWrite 0xAE [0xF8, 0x01, 0x02] 1000) = some (.iWrite 0x7F8 [1, 2]) := by decide
theorem test_frame_F15_iRead :
    decodeFrame i2cCtx (.i2cWriteRead 0xA2 [0x00] 4 1000) = some (.iRead 0x100 4) := by decide
theorem test_frame_F16_nRead : decodeFrame narrowCtx (spiReq 0b110 3 5 7 1 [] 2) = some (.nRead 5 2) := by decide
theorem test_frame_F17_nWrite :
    decodeFrame narrowCtx (spiReq 0b101 3 4 7 0 [0x5A] 0) = some (.nWrite 4 0x5A) := by decide
theorem test_frame_F18_nErase : decodeFrame narrowCtx (spiReq 0b111 3 3 7 0 [] 0) = some (.nErase 3) := by decide
theorem test_frame_F19_nEwen : decodeFrame narrowCtx (spiReq 0b100 3 0x60 7 0 [] 0) = some .nEwen := by decide
theorem test_frame_F20_nEwds : decodeFrame narrowCtx (spiReq 0b100 3 0x00 7 0 [] 0) = some .nEwds := by decide
theorem test_frame_F21_nEral : decodeFrame narrowCtx (spiReq 0b100 3 0x40 7 0 [] 0) = some .nEral := by decide
theorem test_frame_F22_fWren : decodeFrame norCtx (spiReq 0x06 8 0 0 0 [] 0) = some .fWren := by decide
theorem test_frame_F23_fWrdi : decodeFrame norCtx (spiReq 0x04 8 0 0 0 [] 0) = some .fWrdi := by decide
theorem test_frame_F24_fRdsr : decodeFrame norCtx (spiReq 0x05 8 0 0 0 [] 1) = some .fRdsr := by decide
theorem test_frame_F25_fWrsr : decodeFrame norCtx (spiReq 0x01 8 0 0 0 [0x00] 0) = some (.fWrsr 0) := by decide
theorem test_frame_F26_fRead :
    decodeFrame norCtx (spiReq 0x03 8 0x1000 24 0 [] 16) = some (.fRead 0x1000 16) := by decide
theorem test_frame_F27_fPp :
    decodeFrame norCtx (spiReq 0x02 8 0x40 24 0 [0xAA] 0) = some (.fPp 0x40 [0xAA]) := by decide
theorem test_frame_F28_fRdid : decodeFrame norCtx (spiReq 0x9F 8 0 0 0 [] 3) = some .fRdid := by decide
theorem test_frame_F29_fRdsfdp :
    decodeFrame norCtx (spiReq 0x5A 8 0 24 8 [] 15) = some (.fRdsfdp 0 15) := by decide
theorem test_frame_F30_fSe4k :
    decodeFrame norCtx (spiReq 0x20 8 0x1000 24 0 [] 0) = some (.fSe4k 0x1000) := by decide
theorem test_frame_F31_field : addressField 0x1234567 24 = 0x234567 := by decide
theorem test_frame_unknown : decodeFrame norCtx (spiReq 0x77 8 0 0 0 [] 0) = none := by decide

theorem test_fold_F1_to_F4 :
    [0x000, 0x1FF, 0x5A3, 0x7FF].map i2cCtx.sel = [0xA0, 0xA2, 0xAA, 0xAE] := by decide
theorem test_fold_F5_F6 :
    [0x100, 0x300].map ({ i2cCtx with select := 0xA4 } : WireCtx).sel = [0xA6, 0xA6] := by decide
theorem test_fold_F7 :
    ((stateWith i2c16Handle [] [] []).wireCtx.sel 0x1234, (stateWith i2c16Handle [] [] []).wireCtx.abytes 0x1234) =
      (0xA0, [0x12, 0x34]) := by decide
theorem test_resolve_F8_to_F13 :
    [0#32, 2, 4, 8, 0xFFFFFFFF, 6].map (fun v => (Config.suggested.resolve v).toOption) =
      [some (.hwI2cEe ⟨2048, 8, 16, 5⟩), none, none, none, none, some .stub0] := by decide

/-! ### One step per command, from 95_test_vectors.md sections 5 to 10 -/

theorem test_read_RD1 :
    report (exec (.read 0x1FE 2) (i2c [] [.ok [0x11, 0x22]] [])) =
      some (2, [0x11, 0x22], [.i2cWriteRead 0xA2 [0xFE] 2 1000]) := by decide
theorem test_read_RD7_short_answer :
    report (exec (.read 0x1FE 2) (i2c [] [.ok [0x11]] [])) = some (-1, [], [.i2cWriteRead 0xA2 [0xFE] 2 1000]) := by
  decide
theorem test_readByte_RD10 :
    report (exec (.readByte 5) (narrow [] [.ok [0x33]])) = some (1, [0x33], [spiReq 0b110 3 5 7 1 [] 1]) := by decide
theorem test_readByte_RD12 :
    report (exec (.readByte 0) (stateWith stub0Handle [] [] [])) = some (-3, [], []) := by decide
theorem test_write_W4_wrap :
    report (exec (.write 0x7FE 4 true false) (i2c [1, 2, 3, 4] [] [.ok 3, .ok 3])) =
      some (4, [], [.i2cWrite 0xAE [0xFE, 1, 2] 1000, .delay 5, .i2cWrite 0xA0 [0x00, 3, 4] 1000, .delay 5]) := by
  decide
theorem test_write_W11_partial :
    report (exec (.write 14 4 false true) (i2c [1, 2, 3, 4] [] [.ok 3, .err ⟨BitVec.ofInt 31 (-4)⟩])) =
      some (2, [],
        [.i2cWrite 0xA0 [14, 1, 2] 1000, .delay 5, .i2cWrite 0xA0 [16, 3, 4] 1000]) := by decide
theorem test_writeByte_W19 :
    report (exec (.writeByte 4 0x5A) (narrow [] [.ok [], .ok []])) =
      some (1, [], [spiReq 0b100 3 0x60 7 0 [] 0, spiReq 0b101 3 4 7 0 [0x5A] 0, .delay 5]) := by decide
theorem test_writeByte_X11 : report (exec (.writeByte 0x800 1) (i2c [] [] [])) = some (-3, [], []) := by decide
theorem test_erasePage_ER1 :
    progressReport (exec (.erasePage 2 0) (i2c [] [] [.ok 17])) =
      some (0, 1, [.i2cWrite 0xA0 (0x20 :: List.replicate 16 0) 1000, .delay 5]) := by decide
theorem test_erasePage_ER7 :
    progressReport (exec (.erasePage 6 0xFF) (narrow [] [.ok [], .ok []])) =
      some (0, 1, [spiReq 0b100 3 0x60 7 0 [] 0, spiReq 0b111 3 6 7 0 [] 0, .delay 5]) := by decide
theorem test_erase_ER5 :
    progressReport (exec (.erase 0xFF) (narrow [] [.ok [], .ok []])) =
      some (0, 1, [spiReq 0b100 3 0x60 7 0 [] 0, spiReq 0b100 3 0x40 7 0 [] 0, .delay 5]) := by decide
theorem test_erase_ER9_sectors :
    progressReport (exec (.erase 0xFF) (smallNor [.ok [], .ok [], .ok [], .ok []])) =
      some (0, 2,
        [spiReq 0x06 8 0 0 0 [] 0, spiReq 0x20 8 0 24 0 [] 0, .delay 50, spiReq 0x06 8 0 0 0 [] 0,
          spiReq 0x20 8 0x1000 24 0 [] 0, .delay 50]) := by decide
theorem test_init_H1 :
    (nextOf (exec (.init 0 0xA0) State.reset)).map (fun t => (t.port.status, t.handle)) = some (0, i2cHandle) := by
  decide
theorem test_init_S1 :
    (endOf (exec (.init 5 0) { State.reset with answers := ⟨[.ok s1Header, .ok s1Table], [], []⟩ })).map
        (fun t => (t.port.status, t.handle, t.sfdp)) =
      some (0, norHandle, s1Sfdp) := by decide
theorem test_discover_S27 :
    (nextOf (exec .discover (nor [] [.ok (s1Header.set 7 0xFE)]))).map
        (fun t => (t.port.status.toInt, t.handle, t.sfdp.state)) =
      some (-6, { norHandle with hstate := .bound }, .failed) := by decide
theorem test_discover_S14_jedec :
    (endOf (exec .discover
        { nor [] [.ok s1Header, .ok [0xE5, 0x20, 0xF1, 0xFF, 0xFF, 0xFF, 0x0F, 0x00]] with
          cfg := { Config.suggested with densityRule := .jedec } })).map (fun t => t.handle.size) =
      some 131072 := by decide
theorem test_deinit_H9 :
    (nextOf (exec (.deinit true) { i2c [] [] [] with answers := ⟨[], [], [.fail]⟩ })).map
        (fun t => (t.port.status.toInt, t.handle, t.requests)) = some (-1, .reset, [.tdeinit]) := by decide
theorem test_deinit_H7 : report (exec (.deinit false) State.reset) = some (-3, [], []) := by decide
theorem test_getInfo_H3 :
    report (exec .getInfo (i2c [] [] [])) =
      some (0,
        [0, 0, 2, 0, 0, 0, 0, 0, 0, 8, 0, 0, 0x10, 0, 0, 0, 8, 0xA0, 0, 0, 5, 0, 0, 0, 0x80, 0, 0, 0, 0, 0, 0, 0],
        []) := by decide
theorem test_getInfo_H20 :
    (report (exec .getInfo (boundNor []))).map (fun r => r.2.1) =
      some
        [2, 1, 1, 4, 5, 0, 0, 0, 0, 0, 2, 0, 0x40, 0, 0, 0, 0x18, 0, 0, 0, 3, 0, 0, 0, 0, 8, 0, 0, 0, 0, 0, 0] := by
  decide
theorem test_getSfdp_H4 :
    report (exec .getSfdp (nor [] [])) =
      some (0, [6, 1, 0, 0x20, 6, 1, 3, 0, 8, 0, 0, 0, 0x80, 0, 0, 0, 0, 0, 2, 0, 0x40, 0, 0, 0], []) := by decide
theorem test_getSfdp_H11 : report (exec .getSfdp (i2c [] [] [])) = some (-3, [], []) := by decide
theorem test_rawXfer_H15 :
    report (exec (.rawXfer 0x123456 2 0 0x1FF 8 16 4) (stateWith stub0Handle [1, 2] [.ok []] [])) =
      some (0, [], [spiReq 0xFF 8 0x3456 16 4 [1, 2] 0]) := by decide
theorem test_rawXfer_H17 :
    report (exec (.rawXfer 0 1 2 0 0 0 0) (i2c [0x00] [.ok [7, 8]] [])) =
      some (0, [7, 8], [.i2cWriteRead 0xA0 [0x00] 2 1000]) := by decide
theorem test_frame_step_fRdsr :
    report (exec .fRdsr (nor [] [.ok [0x02]])) = some (0, [], [spiReq 0x05 8 0 0 0 [] 1]) := by decide
theorem test_frame_step_nEwds :
    report (exec .nEwds (narrow [] [.ok []])) = some (0, [], [spiReq 0b100 3 0 7 0 [] 0]) := by decide
theorem test_step_X2 :
    report (step (offered (i2c [] [] []) 0x06 [])) = some (-3, [], []) := by decide
theorem test_step_power_cycle :
    (nextOf (step { nor [] [] with hostIn := [.powerOn] })).map (fun t => (t.handle, t.sfdp, t.port)) =
      some (.reset, .reset, .reset) := by decide

/-! ### Between two requests (00_scope.md R3) -/

/-- Vector W4 after its first request: BUSY is 1, the wait is due, and CUR, REM, DONE and the chunk are as R37 has them. -/
theorem test_write_W4_first_step :
    (nextOf (exec (.write 0x7FE 4 true false) ((i2c [] [] [.ok 3, .ok 3]).accept ⟨0, [1, 2, 3, 4]⟩))).map
        (fun t => (t.port.busy, t.requests, dueRequest t, t.work)) =
      some (true, [.i2cWrite 0xAE [0xFE, 1, 2] 1000], some (.delay 5), some (workOf 0x7FE 2 0 [1, 2])) := by decide

/-- Vector S1 between its two reads. -/
theorem test_discover_S1_first_step :
    (nextOf (exec .discover (boundNor [.ok s1Header, .ok s1Table]))).map (fun t => (t.sfdp.state, t.sfdp.hdrBuf, dueRequest t)) =
      some (.headerRead, s1Header, some (spiReq 0x5A 8 0x80 24 8 [] 8)) := by decide

/-- The next request of a command in progress, the host doing nothing. -/
theorem test_step_next_request :
    ((nextOf (exec (.erasePage 2 0) (i2c [] [] [.ok 17]))).bind fun t => nextOf (step t)).map
        (fun t => (t.port.busy, t.pending, t.handle.progress, t.requests.getLast?)) =
      some (false, none, 1, some (.delay 5)) := by decide

/-- A power cycle in the middle of a command. -/
theorem test_step_power_cycle_in_progress :
    ((nextOf (exec (.erasePage 2 0) { i2c [] [] [.ok 17] with hostIn := [.powerOn] })).bind fun t => nextOf (step t)).map
        (fun t => (t.handle, t.port, t.work, t.pending)) = some (.reset, .reset, none, none) := by decide

/-- A program hands over its second command once the first has finished. -/
theorem test_program_events :
    programEvents [⟨0x04#192, []⟩, ⟨0x03#192, []⟩] =
      [.command ⟨0x04#192, []⟩, .await, .command ⟨0x03#192, []⟩, .await] ∧
      (nextOf (step { State.reset with hostIn := [.await] })).map State.hostIn = some [] := by decide

/-! ### Text: lines of the programs of 95_test_vectors.md section 11 -/

/-- Lines of P1, with two data bytes, and of P2. -/
theorem test_text_P1 :
    (readProgram ["INIT 0, 0xA0", "WRITE 0x7F8, 16, wrap", "DIN [0x10, 17]", "ERASE_PAGE 0, 0xFF", "DEINIT tdeinit"]).map
        (fun os => os.map fun o => (cmdBytes o.cmdw, o.din)) =
      some
        [(padded [0x01, 0, 0, 0xA0], []), (padded [0x12, 1, 0, 0, 0xF8, 7, 0, 0, 0x10], [0x10, 0x11]),
          (padded [0x20, 0, 0xFF], []), (padded [0x02, 0x04], [])] := by decide
/-- Line 8 of P3. -/
theorem test_text_P3_rawXfer :
    (readProgram ["RAW_XFER 0b100/3, 0/7, 0, 0, 0"]).map (fun os => os.map fun o => cmdBytes o.cmdw) =
      some [padded [0x30, 0, 0, 0, 0, 0, 0, 0, 0, 0, 0, 0, 0, 0, 0, 0, 4, 0, 3, 7]] := by decide
theorem test_text_refused :
    readProgram ["DIN [1]"] = none ∧ readProgram ["READ 1"] = none ∧ readProgram ["ERASE 256"] = none := by decide
theorem test_text_both_ways :
    commandText (.write 2040 16 true true) = some "WRITE 2040, 16, wrap, partial" ∧
      readCommand "WRITE 2040, 16, wrap, partial" = some (.write 2040 16 true true) := by decide

/-! ### Witnesses: states and operands that meet the hypotheses of the obligations -/

theorem ready_i2c (din : List Byte) (x : List XferAnswer) (c : List CountAnswer) : ReadyOn (i2c din x c) .i2cEe :=
  ⟨rfl, rfl, 11, rfl⟩

theorem ready_narrow (din : List Byte) (x : List XferAnswer) : ReadyOn (narrow din x) .spiNarrow := ⟨rfl, rfl, 7, rfl⟩

theorem ready_nor (din : List Byte) (x : List XferAnswer) : ReadyOn (nor din x) .spiNorSfdp := ⟨rfl, rfl, 17, rfl⟩

/-- A narrow part of 4 bytes in pages of 2, so that whole-chip and page loops are short. -/
def tinyNarrow (din : List Byte) (x : List XferAnswer) : State :=
  stateWith { narrowHandle with size := 4, addrLen := 2, pageSize := 2 } din x []

theorem ready_tinyNarrow (din : List Byte) (x : List XferAnswer) : ReadyOn (tinyNarrow din x) .spiNarrow :=
  ⟨rfl, rfl, 2, rfl⟩

/-- An I2C part of 32 bytes in pages of 16. -/
def tinyI2c (din : List Byte) (c : List CountAnswer) : State := stateWith { i2cHandle with size := 32 } din [] c

theorem ready_tinyI2c (din : List Byte) (c : List CountAnswer) : ReadyOn (tinyI2c din c) .i2cEe := ⟨rfl, rfl, 5, rfl⟩

theorem ready_smallNor (x : List XferAnswer) : ReadyOn (smallNor x) .spiNorSfdp := ⟨rfl, rfl, 13, rfl⟩

/-- A NOR part of two pages without a sector erase (vector S18). -/
def pageNor (x : List XferAnswer) : State :=
  { nor [] x with
    handle := { norHandle with size := 128 }, sfdp := { s1Sfdp with arraySize := 128, erase4kOp := 0 } }

theorem ready_pageNor (x : List XferAnswer) : ReadyOn (pageNor x) .spiNorSfdp := ⟨rfl, rfl, 7, rfl⟩

/-- A failing answer with the code −4. -/
def err4 : XferAnswer := .err ⟨BitVec.ofInt 31 (-4)⟩

theorem witness_suggested_admitted : Config.suggested.admitted = true := by decide

/-- The state with the wait of an ERASE_PAGE on SPI_NARROW still due (vector ER7). -/
def narrowInProgress : State :=
  { narrow [] [] with
    port := { Port.reset with busy := true, cmdr := 0x0000000600FF0020#192 }
    work := some (workOf 6 1 0 [])
    pending := some (.jobs ⟨.delay 5, [], some (workOf 6 1 0 []), 0, false⟩ [] .erasePage) }

/-- Between commands, and in the middle of one. -/
theorem witness_PowerOnResetsEveryRegister :
    let s := { nor [] [] with hostIn := [.powerOn] }
    let t := { narrowInProgress with hostIn := [.powerOn] }
    s.cfg.admitted = true ∧ s.hostIn = [.powerOn] ∧ t.cfg.admitted = true ∧ t.hostIn = [.powerOn] ∧ t.port.busy = true := by
  decide

theorem witness_AdmissionConditions :
    ({ State.reset with cfg := { Config.suggested with registry := [.sentinel, .stub0, .stub1] } } : State).cfg.admitted =
      false := by decide

theorem witness_StepRunsDecodedCommand :
    let s := offered (i2c [] [] []) 0x04#192 []
    s.cfg.admitted = true ∧ s.hostIn = [.command ⟨0x04#192, []⟩] ∧ s.port.busy = false ∧
      decode 0x04#192 = .ok .getInfo := by decide

/-- A command offered while one is in progress; nothing from the host, a pass and a wait, with and without a command in
progress; and a step with one request. -/
theorem witness_BusyOfferHasNoStep :
    let s := offered narrowInProgress 0x04#192 []
    let events (s : State) (l : List HostEvent) : State := { s with hostIn := l }
    s.cfg.admitted = true ∧ s.hostIn = [.command ⟨0x04#192, []⟩] ∧ s.port.busy = true ∧
      (events narrowInProgress []).pending ≠ none ∧ (events narrowInProgress [.pass]).pending ≠ none ∧
      (events narrowInProgress [.await]).pending ≠ none ∧ (events (narrow [] []) []).pending = none ∧
      (events (narrow [] []) [.pass]).pending = none ∧ (events (narrow [] []) [.await]).pending = none ∧
      (nextOf (step narrowInProgress)).isSome = true := by decide

/-- The codes beside the map, and the lowest and highest bit of each reserved field. -/
theorem witness_IllegalWordsFinishInvalidArgument :
    let s := offered State.reset 0 []
    s.cfg.admitted = true ∧ s.port.busy = false ∧
      (∀ c ∈ [0x00#192, 0x06, 0x0F, 0x14, 0x22, 0x2F, 0x31, 0xFF],
        c.toNat % 256 ∉ [0x01, 0x02, 0x03, 0x04, 0x05, 0x10, 0x11, 0x12, 0x13, 0x20, 0x21, 0x30]) ∧
      (∀ c ∈ [0x0810#192, 0x8010], c.toNat / 2 ^ 11 % 2 ^ 5 ≠ 0) ∧
      (0x1000000000000000000000000000000000000000010#192).toNat / 2 ^ 168 ≠ 0 ∧
      (0x800000000000000000000000000000000000000000000010#192).toNat / 2 ^ 168 ≠ 0 := by
  refine ⟨by decide, by decide, ?_, ?_, ?_, ?_⟩ <;> simp

/-- One command of each code, operands at the ends of their ranges. -/
theorem witness_DecodeOfEncodeIsTheCommand :
    ([.init 0xFFFFFFFF 0xFF, .deinit true, .discover, .getInfo, .getSfdp, .read 0xFFFFFFFF 0xFFFFFFFF,
        .readByte 0xFFFFFFFF, .write 0xFFFFFFFF 0xFFFFFFFF true true, .writeByte 0xFFFFFFFF 0xFF,
        .erasePage 0xFFFFFFFF 0xFF, .erase 0xFF,
        .rawXfer 0xFFFFFFFF 0xFFFFFFFF 0xFFFFFFFF 0xFFFF 0xFF 0xFF 0xFF] : List Instr).all
      (fun i => i.isCommand && i.wellFormed) = true := by decide

/-- For each command code, two records that agree in its fields and differ in some other. -/
def unusedPairs : List (CmdFields × CmdFields) :=
  let all : CmdFields :=
    { wrap := true, partialAcc := true, tdeinit := true, value := 0xFF, sel := 0xFF, addr := 1, len := 2, rlen := 3
      opc := 4, opw := 5, adw := 6, dmw := 7 }
  [({ all with cmd := 0x01 }, { cmd := 0x01, addr := 1, sel := 0xFF }),
    ({ all with cmd := 0x02 }, { cmd := 0x02, tdeinit := true }), ({ all with cmd := 0x03 }, { cmd := 0x03 }),
    ({ all with cmd := 0x04 }, { cmd := 0x04 }), ({ all with cmd := 0x05 }, { cmd := 0x05 }),
    ({ all with cmd := 0x10 }, { cmd := 0x10, addr := 1, len := 2 }),
    ({ all with cmd := 0x11 }, { cmd := 0x11, addr := 1 }),
    ({ all with cmd := 0x12 }, { cmd := 0x12, addr := 1, len := 2, wrap := true, partialAcc := true }),
    ({ all with cmd := 0x13 }, { cmd := 0x13, addr := 1, value := 0xFF }),
    ({ all with cmd := 0x20 }, { cmd := 0x20, addr := 1, value := 0xFF }),
    ({ all with cmd := 0x21 }, { cmd := 0x21, value := 0xFF }),
    ({ all with cmd := 0x30, wrap := false },
      { cmd := 0x30, addr := 1, len := 2, rlen := 3, opc := 4, opw := 5, adw := 6, dmw := 7 })]

theorem witness_UnusedFieldsAreIgnored :
    ∀ p ∈ unusedPairs,
      let (f, g) := p
      f ≠ g ∧ f.flagsRsvd = 0 ∧ f.rsvd = 0 ∧ g.flagsRsvd = 0 ∧ g.rsvd = 0 ∧ f.cmd = g.cmd ∧
        (f.cmd = 0x01 → f.addr = g.addr ∧ f.sel = g.sel) ∧ (f.cmd = 0x02 → f.tdeinit = g.tdeinit) ∧
        (f.cmd = 0x10 → f.addr = g.addr ∧ f.len = g.len) ∧ (f.cmd = 0x11 → f.addr = g.addr) ∧
        (f.cmd = 0x12 → f.addr = g.addr ∧ f.len = g.len ∧ f.wrap = g.wrap ∧ f.partialAcc = g.partialAcc) ∧
        (f.cmd = 0x13 → f.addr = g.addr ∧ f.value = g.value) ∧
        (f.cmd = 0x20 → f.addr = g.addr ∧ f.value = g.value) ∧ (f.cmd = 0x21 → f.value = g.value) ∧
        (f.cmd = 0x30 → f.addr = g.addr ∧ f.len = g.len ∧ f.rlen = g.rlen ∧ f.opc = g.opc ∧ f.opw = g.opw ∧
          f.adw = g.adw ∧ f.dmw = g.dmw) := by decide

/-- Both address widths, three folded bits (the most R10 allows), and the last address. -/
theorem witness_I2cFramesCarryTheWholeAddress :
    ∀ c ∈ [i2cCtx, { i2cCtx with addrLen := 16, size := BitVec.ofNat 32 (2 ^ 19) }],
      c.family = .i2cEe ∧ (c.addrLen = 8 ∨ c.addrLen = 16) ∧ c.size.toNat = 2 ^ (c.size.toNat.log2) ∧
        bitlength (c.size.toNat - 1) = c.addrLen.toNat + 3 ∧ c.select &&& 0x0E = 0 ∧
        (BitVec.ofNat 32 (c.size.toNat - 1)).toNat < c.size.toNat := by decide

theorem witness_FoldedBitsAreTheHighAddressBits :
    i2cCtx.addrLen.toNat < bitlength (i2cCtx.size.toNat - 1) ∧ i2cCtx.select &&& 0x0E = 0 ∧ i2cCtx.select &&& 0x01 = 0 := by
  decide

theorem witness_I2cFramesOnTheWire : al (i2c [] [] []) = 8 ∧ al (stateWith i2c16Handle [] [] []) = 16 := by decide

theorem witness_AnswersAreClassified :
    let s := { i2c [] [.ok []] [.ok 0] with answers := ⟨[.ok []], [.ok 0], [.fail]⟩ }
    s.answers.xfer = [.ok []] ∧ s.answers.count = [.ok 0] ∧ s.answers.release = [.fail] := by decide

/-- The last address: no bytes; one byte, with each kind of answer; and one byte too many. -/
theorem witness_ReadFollowsItsRule :
    let s (x : XferAnswer) := i2c [] [x] []
    (∀ x, ReadyOn (s x) .i2cEe) ∧
      (∀ x ∈ [XferAnswer.ok [0x11], .ok [], err4],
        (s x).port.din = [] ∧ (0x7FF#32).toNat < (s x).handle.size.toNat ∧
          (s x).handle.size.toNat < (0x7FF#32).toNat + (2#32).toNat ∧
          (0x7FF#32).toNat + (1#32).toNat ≤ (s x).handle.size.toNat ∧ (s x).answers.xfer = [x]) ∧
      ([0x11#8] : List Byte).length = (1#32).toNat ∧ ([] : List Byte).length ≠ (1#32).toNat :=
  ⟨fun _ => ready_i2c _ _ _, by decide⟩

theorem witness_ReadByteReadsOneByte :
    ReadyOn (narrow [] [.ok [0x33]]) .spiNarrow ∧ (narrow [] [.ok [0x33]]).port.din = [] ∧
      (127#32).toNat < (narrow [] [.ok [0x33]]).handle.size.toNat ∧
      (narrow [] [.ok [0x33]]).answers.xfer = [.ok [0x33]] := ⟨ready_narrow _ _, by decide⟩

theorem witness_ChunkCountLaw : 0 < 16 ∧ ([0#8] : List Byte) ≠ [] := by decide

/-- A WRITE of 4 bytes at SIZE − 2: two bytes are sent, two dropped. -/
theorem witness_WriteWithoutWrapSendsItsChunks :
    let s := i2c [1, 2, 3, 4] [] [.ok 3]
    ReadyOn s .i2cEe ∧ s.port.din.length = (4#32).toNat ∧ (0x7FE#32).toNat < s.handle.size.toNat ∧
      0 < effectivePage s .i2cEe ∧
      s.answers.success
          (chunkRequests s.wireCtx .i2cEe s.handle.writeDelayMs
            (chunksOf (effectivePage s .i2cEe) (0x7FE#32).toNat (s.port.din.take (s.handle.size.toNat - 0x7FE)))) =
        some ⟨[], [], []⟩ := ⟨ready_i2c _ _ _, by decide⟩

/-- Ten bytes at the last address of a part of 4 bytes go around twice; five go around once; one does not. -/
theorem witness_WrappedWriteSendsItsSubWrites :
    let s := tinyNarrow [1, 2, 3, 4, 5, 6, 7, 8, 9, 10] (List.replicate 20 (.ok []))
    let u := tinyNarrow [1, 2, 3, 4, 5] []
    let v := tinyNarrow [1] []
    ReadyOn s .spiNarrow ∧ ReadyOn u .spiNarrow ∧ ReadyOn v .spiNarrow ∧ s.port.din.length = (10#32).toNat ∧
      (3#32).toNat < s.handle.size.toNat ∧ 0 < effectivePage s .spiNarrow ∧
      subWrites s.handle.size.toNat 3 s.port.din = [(3, [1]), (0, [2, 3, 4, 5]), (0, [6, 7, 8, 9]), (0, [10])] ∧
      s.answers.success (subWriteRequests s .spiNarrow (subWrites s.handle.size.toNat 3 s.port.din)) =
        some ⟨[], [], []⟩ ∧
      u.port.din.length = (5#32).toNat ∧ u.handle.size.toNat < (3#32).toNat + (5#32).toNat ∧
      (3#32).toNat + (5#32).toNat ≤ 2 * u.handle.size.toNat ∧ v.port.din.length = (1#32).toNat ∧
      (3#32).toNat + (1#32).toNat ≤ v.handle.size.toNat :=
  ⟨ready_tinyNarrow _ _, ready_tinyNarrow _ _, ready_tinyNarrow _ _, by decide⟩

/-- Vector W10 made small: the second chunk fails. -/
theorem witness_FailedChunkEndsTheWrite :
    let s := i2c [1, 2, 3, 4] [] [.ok 3, .err ⟨BitVec.ofInt 31 (-4)⟩]
    let rest : Answers := ⟨[], [.err ⟨BitVec.ofInt 31 (-4)⟩], []⟩
    ReadyOn s .i2cEe ∧
      ModifyFails s.wireCtx .i2cEe (s.wireCtx.chunkFrame .i2cEe 16 [3, 4]) rest (BitVec.ofInt 32 (-4))
        [.i2cWrite 0xA0 [16, 3, 4] 1000] ∧
      s.port.din.length = (4#32).toNat ∧ (14#32).toNat < s.handle.size.toNat ∧ 0 < effectivePage s .i2cEe ∧
      chunksOf (effectivePage s .i2cEe) (14#32).toNat (s.port.din.take (s.handle.size.toNat - (14#32).toNat)) =
        [(14, [1, 2])] ++ [(16, [3, 4])] ∧
      s.answers.success (chunkRequests s.wireCtx .i2cEe s.handle.writeDelayMs [(14, [1, 2])]) = some rest :=
  ⟨ready_i2c _ _ _, .inr ⟨_, rfl, by decide, by decide⟩, by decide⟩

/-- Vector W21 made small: the second write-enable fails. -/
theorem witness_FailedChunkEndsTheWrite_enable :
    let s := narrow [1, 2] [.ok [], .ok [], err4]
    ReadyOn s .spiNarrow ∧
      ModifyFails s.wireCtx .spiNarrow (s.wireCtx.chunkFrame .spiNarrow 6 [2]) ⟨[err4], [], []⟩ (BitVec.ofInt 32 (-4))
        [s.wireCtx.nEwen] ∧
      s.port.din.length = (2#32).toNat ∧ 0 < effectivePage s .spiNarrow ∧
      chunksOf (effectivePage s .spiNarrow) 5 (s.port.din.take (s.handle.size.toNat - 5)) = [(5, [1])] ++ [(6, [2])] ∧
      s.answers.success (chunkRequests s.wireCtx .spiNarrow s.handle.writeDelayMs [(5, [1])]) =
        some ⟨[err4], [], []⟩ :=
  ⟨ready_narrow _ _, .inl ⟨_, rfl, by decide, rfl⟩, by decide⟩

/-- Vector W14 made small: the second sub-write's first chunk fails. -/
theorem witness_FailedSubWriteReportsItsOwnCount :
    let s := i2c [1, 2, 3, 4] [] [.ok 3, .err ⟨BitVec.ofInt 31 (-1)⟩]
    let rest : Answers := ⟨[], [.err ⟨BitVec.ofInt 31 (-1)⟩], []⟩
    ReadyOn s .i2cEe ∧
      ModifyFails s.wireCtx .i2cEe (s.wireCtx.chunkFrame .i2cEe 0 [3, 4]) rest (BitVec.ofInt 32 (-1))
        [.i2cWrite 0xA0 [0, 3, 4] 1000] ∧
      s.port.din.length = (4#32).toNat ∧ (0x7FE#32).toNat < s.handle.size.toNat ∧ 0 < effectivePage s .i2cEe ∧
      subWrites s.handle.size.toNat 0x7FE s.port.din = [(0x7FE, [1, 2])] ++ [(0, [3, 4])] ∧
      chunksOf (effectivePage s .i2cEe) 0 [3, 4] = [] ++ [(0, [3, 4])] ∧
      s.answers.success
          (subWriteRequests s .i2cEe [(0x7FE, [1, 2])] ++
            chunkRequests s.wireCtx .i2cEe s.handle.writeDelayMs []) = some rest :=
  ⟨ready_i2c _ _ _, .inr ⟨_, rfl, by decide, by decide⟩, by decide⟩

theorem witness_EmptyWriteSendsNothing :
    ReadyOn (i2c [] [] []) .i2cEe ∧ (i2c [] [] []).port.din = [] ∧
      (0x7FF#32).toNat < (i2c [] [] []).handle.size.toNat ∧ (i2c [] [] []).handle.size.toNat ≤ (0x800#32).toNat :=
  ⟨ready_i2c _ _ _, by decide⟩

/-- Vector W19, and the same with a failing write-enable and with a failing frame. -/
theorem witness_WriteByteSendsOneByte :
    let s := narrow [] [.ok [], .ok []]
    let e := narrow [] [err4]
    let f := narrow [] [.ok [], err4]
    ReadyOn s .spiNarrow ∧ ReadyOn e .spiNarrow ∧ ReadyOn f .spiNarrow ∧
      ModifyFails e.wireCtx .spiNarrow (e.wireCtx.nWrite 127 0x5A) e.answers (BitVec.ofInt 32 (-4)) [e.wireCtx.nEwen] ∧
      ModifyFails f.wireCtx .spiNarrow (f.wireCtx.nWrite 127 0x5A) f.answers (BitVec.ofInt 32 (-4))
        [f.wireCtx.nEwen, f.wireCtx.nWrite 127 0x5A] ∧
      s.port.din = [] ∧ (127#32).toNat < s.handle.size.toNat ∧ 0 < effectivePage s .spiNarrow ∧
      s.answers.success
          (modifyRequests s.wireCtx .spiNarrow (s.wireCtx.nWrite 127 0x5A) s.handle.writeDelayMs) =
        some ⟨[], [], []⟩ :=
  ⟨ready_narrow _ _, ready_narrow _ _, ready_narrow _ _, .inl ⟨_, rfl, by decide, rfl⟩,
    .inr ⟨_, rfl, by decide, rfl⟩, by decide⟩

theorem witness_WritesChangeOnlyStatus :
    (nextOf (exec (.write 5 1 false false) (narrow [1] [.ok [], .ok []]))).isSome = true ∧
      (nextOf (exec (.writeByte 5 1) (narrow [] [.ok [], .ok []]))).isSome = true := by decide

/-- Vector ER1 on the last page. -/
theorem witness_ErasePageFillsThePage :
    let s := i2c [] [] [.ok 17]
    ReadyOn s .i2cEe ∧ HwFamily.i2cEe ≠ .spiNarrow ∧ s.port.din = [] ∧ s.handle.pageSize ≠ 0 ∧
      (127#32).toNat < s.handle.size.toNat / s.handle.pageSize.toNat ∧
      s.answers.success
          (modifyRequests s.wireCtx .i2cEe
            (s.wireCtx.chunkFrame .i2cEe ((127#32).toNat * s.handle.pageSize.toNat)
              (List.replicate s.handle.pageSize.toNat 0)) s.handle.writeDelayMs) = some ⟨[], [], []⟩ :=
  ⟨ready_i2c _ _ _, by decide⟩

theorem witness_NarrowErasePageGoesByteByByte :
    let s := tinyNarrow [] (List.replicate 4 (.ok []))
    ReadyOn s .spiNarrow ∧ s.port.din = [] ∧ s.handle.pageSize ≠ 0 ∧
      (1#32).toNat < s.handle.size.toNat / s.handle.pageSize.toNat ∧
      ∀ value ∈ [0x00#8, 0xFF],
        s.answers.success
            ((List.range s.handle.pageSize.toNat).flatMap fun i =>
              modifyRequests s.wireCtx .spiNarrow
                (if value = 0xFF then s.wireCtx.nErase ((1#32).toNat * s.handle.pageSize.toNat + i)
                  else s.wireCtx.nWrite ((1#32).toNat * s.handle.pageSize.toNat + i) value)
                s.handle.writeDelayMs) = some ⟨[], [], []⟩ := ⟨ready_tinyNarrow _ _, by decide⟩

/-- The first page index past the end (vector ER2), and a page size of 0. -/
theorem witness_PageIndexIsChecked :
    let s := i2c [] [] []
    let z := stateWith { i2cHandle with pageSize := 0 } [] [] []
    ReadyOn s .i2cEe ∧ ReadyOn z .i2cEe ∧ s.port.din = [] ∧ z.port.din = [] ∧ z.handle.pageSize = 0 ∧
      s.handle.size.toNat < ((128#32).toNat + 1) * s.handle.pageSize.toNat :=
  ⟨ready_i2c _ _ _, ⟨rfl, rfl, 11, rfl⟩, by decide⟩

/-- The second byte of a narrow page fails, and the one chunk of an I2C page. -/
theorem witness_FailedErasePageLeavesProgressZero :
    let s := tinyNarrow [] [.ok [], .ok [], .ok [], err4]
    let t := tinyI2c [] [.ok 5]
    ReadyOn s .spiNarrow ∧ ReadyOn t .i2cEe ∧
      ModifyFails s.wireCtx .spiNarrow (s.wireCtx.nErase 3) ⟨[.ok [], err4], [], []⟩ (BitVec.ofInt 32 (-4))
        [s.wireCtx.nEwen, s.wireCtx.nErase 3] ∧
      ModifyFails t.wireCtx .i2cEe (t.wireCtx.iWrite 16 (List.replicate 16 0)) t.answers (BitVec.ofInt 32 (-1))
        [t.wireCtx.iWrite 16 (List.replicate 16 0)] ∧
      s.port.din = [] ∧ s.handle.pageSize ≠ 0 ∧ (1#32).toNat < s.handle.size.toNat / s.handle.pageSize.toNat ∧
      pageFrames s .spiNarrow 1 0xFF = [s.wireCtx.nErase 2] ++ [s.wireCtx.nErase 3] ∧
      s.answers.success ([s.wireCtx.nErase 2].flatMap fun g => modifyRequests s.wireCtx .spiNarrow g 5) =
        some ⟨[.ok [], err4], [], []⟩ ∧
      s.handle.writeDelayMs = 5 ∧
      pageFrames t .i2cEe 1 0 = [] ++ [t.wireCtx.iWrite 16 (List.replicate 16 0)] ∧ t.port.din = [] ∧
      t.handle.pageSize ≠ 0 ∧ (1#32).toNat < t.handle.size.toNat / t.handle.pageSize.toNat :=
  ⟨ready_tinyNarrow _ _, ready_tinyI2c _ _, .inr ⟨_, rfl, by decide, rfl⟩, .inr ⟨_, rfl, by decide, rfl⟩, by decide⟩

/-- Vector ER5. -/
theorem witness_NarrowEraseAllIsOneFrame :
    let s := narrow [] [.ok [], .ok []]
    ReadyOn s .spiNarrow ∧ s.port.din = [] ∧
      s.answers.success
          (modifyRequests s.wireCtx .spiNarrow s.wireCtx.nEral
            (s.cfg.narrowEralDelayMs.getD s.handle.writeDelayMs)) = some ⟨[], [], []⟩ := ⟨ready_narrow _ _, by decide⟩

theorem witness_NarrowEraseWritesEveryByte :
    let s := tinyNarrow [] (List.replicate 8 (.ok []))
    ReadyOn s .spiNarrow ∧ s.port.din = [] ∧ (0xFE#8) ≠ 0xFF ∧
      s.answers.success
          ((List.range s.handle.size.toNat).flatMap fun x =>
            modifyRequests s.wireCtx .spiNarrow (s.wireCtx.nWrite x 0xFE) s.handle.writeDelayMs) =
        some ⟨[], [], []⟩ := ⟨ready_tinyNarrow _ _, by decide⟩

theorem witness_EraseFillsPageByPage :
    let s := tinyI2c [] [.ok 17, .ok 17]
    let t := pageNor (List.replicate 4 (.ok []))
    ReadyOn s .i2cEe ∧ ReadyOn t .spiNorSfdp ∧ s.port.din = [] ∧ s.handle.pageSize ≠ 0 ∧ t.port.din = [] ∧
      t.handle.pageSize ≠ 0 ∧ t.sfdp.state = .parsed ∧ t.sfdp.erase4kOp = 0 ∧
      s.answers.success
          ((List.range 2).flatMap fun i =>
            modifyRequests s.wireCtx .i2cEe (s.wireCtx.chunkFrame .i2cEe (i * 16) (List.replicate 16 0xFF))
              s.handle.writeDelayMs) = some ⟨[], [], []⟩ ∧
      t.answers.success
          ((List.range 2).flatMap fun i =>
            modifyRequests t.wireCtx .spiNorSfdp
              (t.wireCtx.chunkFrame .spiNorSfdp (i * 64) (List.replicate 64 0xFF)) t.handle.writeDelayMs) =
        some ⟨[], [], []⟩ ∧
      s.handle.size.toNat / s.handle.pageSize.toNat = 2 ∧ t.handle.size.toNat / t.handle.pageSize.toNat = 2 :=
  ⟨ready_tinyI2c _ _, ready_pageNor _, by decide⟩

/-- Two sectors, and vector ER14's part of 32 bytes, which is one. -/
theorem witness_EraseUsesSectorErases :
    let s := smallNor (List.replicate 4 (.ok []))
    let t : State := { nor [] [.ok [], .ok []] with handle := { norHandle with size := 32 } }
    ReadyOn s .spiNorSfdp ∧ ReadyOn t .spiNorSfdp ∧ s.port.din = [] ∧ s.sfdp.state = .parsed ∧
      s.sfdp.erase4kOp ≠ 0 ∧ t.port.din = [] ∧ t.sfdp.state = .parsed ∧ t.sfdp.erase4kOp ≠ 0 ∧
      s.answers.success
          ((List.range ((s.handle.size.toNat + 4095) / 4096)).flatMap fun i =>
            modifyRequests s.wireCtx .spiNorSfdp (s.wireCtx.fSe4k (4096 * i)) s.cfg.norSectorDelayMs) =
        some ⟨[], [], []⟩ ∧
      t.answers.success
          ((List.range ((t.handle.size.toNat + 4095) / 4096)).flatMap fun i =>
            modifyRequests t.wireCtx .spiNorSfdp (t.wireCtx.fSe4k (4096 * i)) t.cfg.norSectorDelayMs) =
        some ⟨[], [], []⟩ := ⟨ready_smallNor _, ⟨rfl, rfl, 5, rfl⟩, by decide⟩

/-- The second of two sectors fails; the erase-all fails; the second page of an I2C fill fails. -/
theorem witness_FailedUnitStopsTheErase :
    let s := smallNor [.ok [], .ok [], .ok [], err4]
    let u := tinyNarrow [] [err4]
    let v := tinyI2c [] [.ok 17, .ok 16]
    ReadyOn s .spiNorSfdp ∧ ReadyOn u .spiNarrow ∧ ReadyOn v .i2cEe ∧
      ModifyFails s.wireCtx .spiNorSfdp (s.wireCtx.fSe4k 4096) ⟨[.ok [], err4], [], []⟩ (BitVec.ofInt 32 (-4))
        [s.wireCtx.fWren, s.wireCtx.fSe4k 4096] ∧
      ModifyFails u.wireCtx .spiNarrow u.wireCtx.nEral u.answers (BitVec.ofInt 32 (-4)) [u.wireCtx.nEwen] ∧
      ModifyFails v.wireCtx .i2cEe (v.wireCtx.iWrite 16 (List.replicate 16 7)) ⟨[], [.ok 16], []⟩
        (BitVec.ofInt 32 (-1)) [v.wireCtx.iWrite 16 (List.replicate 16 7)] ∧
      s.port.din = [] ∧ s.sfdp.state = .parsed ∧
      eraseUnits s .spiNorSfdp 0xFF = [(s.wireCtx.fSe4k 0, 50)] ++ [(s.wireCtx.fSe4k 4096, 50)] ∧
      s.answers.success ([(s.wireCtx.fSe4k 0, 50#32)].flatMap fun x => modifyRequests s.wireCtx .spiNorSfdp x.1 x.2) =
        some ⟨[.ok [], err4], [], []⟩ ∧
      u.port.din = [] ∧ eraseUnits u .spiNarrow 0xFF = [] ++ [(u.wireCtx.nEral, 5)] ∧ v.port.din = [] ∧
      eraseUnits v .i2cEe 7 =
        [(v.wireCtx.iWrite 0 (List.replicate 16 7), 5)] ++ [(v.wireCtx.iWrite 16 (List.replicate 16 7), 5)] ∧
      v.answers.success
          ([(v.wireCtx.iWrite 0 (List.replicate 16 7), 5#32)].flatMap fun x => modifyRequests v.wireCtx .i2cEe x.1 x.2) =
        some ⟨[], [.ok 16], []⟩ :=
  ⟨ready_smallNor _, ready_tinyNarrow _ _, ready_tinyI2c _ _, .inr ⟨_, rfl, by decide, rfl⟩,
    .inl ⟨_, rfl, by decide, rfl⟩, .inr ⟨_, rfl, by decide, rfl⟩, by decide⟩

/-- 131071 (vector S13) and 0 (vector S21) are no powers of two. -/
theorem not_pow2_131071 : ∀ k, (131071 : Nat) ≠ 2 ^ k := by
  intro k h
  have h1 : 2 ^ k < 2 ^ 17 := by omega
  have h2 : k ≤ 16 := Nat.lt_succ_iff.mp ((Nat.pow_lt_pow_iff_right (by omega)).mp h1)
  have h3 : 2 ^ k ≤ 2 ^ 16 := Nat.pow_le_pow_right (by omega) h2
  omega

/-- Vector ER15, and the other two families with SIZE 0. -/
theorem witness_EraseChecksTheSize :
    let s : State := { nor [] [] with handle := { norHandle with size := 131071 } }
    let z := stateWith { i2cHandle with size := 0 } [] [] []
    let n := stateWith { narrowHandle with size := 0 } [] [] []
    (∀ k, s.handle.size.toNat ≠ 2 ^ k) ∧ (∀ k, z.handle.size.toNat ≠ 2 ^ k) ∧ (∀ k, n.handle.size.toNat ≠ 2 ^ k) ∧
      s.port.din = [] ∧ s.handle.hstate = .ready ∧ s.handle.family = .spiNorSfdp ∧ s.sfdp.state = .parsed ∧
      z.port.din = [] ∧ z.handle.hstate = .ready ∧ z.handle.family = .i2cEe ∧ n.handle.hstate = .ready ∧
      n.handle.family = .spiNarrow :=
  ⟨not_pow2_131071, fun k => (Nat.two_pow_pos k).ne, fun k => (Nat.two_pow_pos k).ne, by decide⟩

/-- A BOUND handle whose discovery fails, and one whose discovery succeeds. -/
theorem witness_EraseDiscoversFirst :
    let s := boundNor [.ok []]
    let t := boundNor [.ok s1Header, .ok s1Table]
    s.port.din = [] ∧ s.handle.hstate = .bound ∧ s.handle.family = .spiNorSfdp ∧ s.sfdp.state ≠ .parsed ∧
      t.port.din = [] ∧ t.handle.hstate = .bound ∧ t.handle.family = .spiNorSfdp ∧ t.sfdp.state ≠ .parsed ∧
      (∃ d, Completes .discover s d ∧ d.port.status ≠ 0) ∧ ∃ d, Completes .discover t d ∧ d.port.status = 0 :=
  ⟨rfl, rfl, rfl, by decide, rfl, rfl, rfl, by decide, ⟨_, ⟨⟨_, 0, rfl, rfl⟩, rfl⟩, by decide⟩,
    ⟨_, ⟨⟨_, 1, rfl, rfl⟩, rfl⟩, by decide⟩⟩

theorem witness_ErasesChangeOnlyProgressAndStatus :
    (nextOf (exec (.erasePage 1 0) (tinyI2c [] [.ok 17]))).isSome = true ∧
      (tinyI2c [] []).handle.family ≠ .spiNorSfdp ∧
      (nextOf (exec (.erase 0) (tinyI2c [] [.ok 17, .ok 17]))).isSome = true ∧
      (smallNor []).sfdp.state = .parsed ∧
      (nextOf (exec (.erase 0xFF) (smallNor (List.replicate 4 (.ok []))))).isSome = true := by decide

/-- Vector S1's bytes, S11's address code, and S10's with P_ADDRBYTES_RSVD = FOUR. -/
theorem witness_DiscoverDecodesTheTable :
    let s := boundNor [.ok s1Header, .ok s1Table]
    let four := { Config.suggested with addrBytesRsvd := .four }
    s.port.din = [] ∧ s.handle.hstate ≠ .uninit ∧ s.handle.family = .spiNorSfdp ∧ 2 ≤ (0x02#8).toNat ∧
      ([] : List Byte).length + 8 = 4 * (0x02#8).toNat ∧ (0xE5#8).toNat / 32 = 7 ∧ (0xF1#8).toNat / 128 = 1 ∧
      (0xF1#8).toNat / 2 % 4 = 0 ∧ (0xF3#8).toNat / 2 % 4 = 1 ∧ (0xFC#8).toNat / 2 % 4 = 2 ∧
      (0xF7#8).toNat / 2 % 4 = 3 ∧ four.addrBytesRsvd = .four ∧
      densityBytes s.cfg.densityRule 0x00100000 = some 131072 ∧
      s.answers.xfer = .ok s1Header :: .ok (s1Table ++ []) :: [] := by decide

theorem witness_DiscoverEndsParsedOrFailed :
    (boundNor []).port.din = [] ∧ (boundNor []).handle.hstate ≠ .uninit ∧
      (boundNor []).handle.family = .spiNorSfdp := by decide

/-- Vectors S2, S3 and S4: each check fails alone. -/
theorem witness_BadHeadersFailDiscovery :
    (¬ HeaderOk (s1Header.set 3 0x51) ∧ ¬ HeaderOk (s1Header.set 7 0xFE) ∧ ¬ HeaderOk (s1Header.set 11 1)) ∧
      ∀ h ∈ [s1Header.set 3 0x51, s1Header.set 7 0xFE, s1Header.set 11 1],
        (boundNor [.ok h]).port.din = [] ∧ (boundNor [.ok h]).handle.hstate ≠ .uninit ∧
          (boundNor [.ok h]).handle.family = .spiNorSfdp ∧ h.length = 15 ∧ (boundNor [.ok h]).answers.xfer = [.ok h] := by
  refine ⟨⟨fun h => absurd h.1 (by decide), fun h => absurd h.2.1 (by decide), ?_⟩, by decide⟩
  rintro ⟨-, -, n, hn, h2⟩
  cases hn
  exact absurd h2 (by decide)

/-- Vector S1's header with its good table, and with that table spoilt at each of the checks. -/
theorem witness_TableChecks :
    HeaderOk s1Header ∧ s1Header.length = 15 ∧ s1Header[11]? = some 2 ∧
      (∀ tab ∈ [s1Table, s1Table.set 0 0xC5, s1Table.set 2 0x71, s1Table.set 3 0xFE, s1Table.set 2 0xF7,
          s1Table.set 7 0x80 |>.set 4 0x22],
        (boundNor [.ok s1Header, .ok (tab ++ [])]).port.din = [] ∧
          (boundNor [.ok s1Header, .ok (tab ++ [])]).handle.hstate ≠ .uninit ∧
          (boundNor [.ok s1Header, .ok (tab ++ [])]).handle.family = .spiNorSfdp ∧ tab.length = 8) ∧
      densityBytes .doc 0x80000022 = none ∧ densityBytes .doc 0x80000021 = some 0x80000000 :=
  ⟨⟨rfl, rfl, 2, rfl, by decide⟩, by decide⟩

theorem witness_DensityRules : 2 ^ 32 - 1 < 2 ^ 32 ∧ 2 ^ 31 < 2 ^ 32 := by decide

/-- A registry with a SPI_NARROW part of 32 address bits, and with the largest I2C_EE part R10 admits. -/
def largeRegistry (size page : Nat) : Params :=
  { Config.suggested with
    registry := [.hwSpiNarrow ⟨size, 32, page, 5⟩, .hwI2cEe ⟨2 ^ 19, 16, 2 ^ 16, 5⟩, .sentinel, .sentinel, .stub0, .stub1] }

/-- R10 admits a SPI_NARROW part of up to 2^32 bytes, also with one page of all of them. -/
theorem test_registry_2_32 :
    (largeRegistry (2 ^ 32) 1).admitted = true ∧ (largeRegistry (2 ^ 32) (2 ^ 32)).admitted = true ∧
      (largeRegistry (2 ^ 33) 1).admitted = false ∧ (largeRegistry (2 ^ 32 - 1) 1).admitted = false := by decide

/-- One identifier of the suggested registry for each kind of entry; parts of 2^32 bytes; and the SFDP entry whose
discovery succeeds, and fails. -/
theorem witness_InitBindsTheEntry :
    State.reset.port.din = [] ∧ State.reset.handle.hstate = .uninit ∧
      [0, 3, 6, 7, 2, 5].map (State.reset.cfg.registry[·]?) =
        [some (.hwI2cEe ⟨2048, 8, 16, 5⟩), some (.hwSpiNarrow ⟨128, 7, 1, 5⟩), some .stub0, some .stub1,
          some .sentinel, some .sfdp] ∧
      [1, 2 ^ 32].map (fun page => (State.resetWith (largeRegistry (2 ^ 32) page)).cfg.registry[(0#32).toNat]?) =
        [some (.hwSpiNarrow ⟨2 ^ 32, 32, 1, 5⟩), some (.hwSpiNarrow ⟨2 ^ 32, 32, 2 ^ 32, 5⟩)] ∧
      (endOf (exec (.init 5 0) { State.reset with answers := ⟨[.ok s1Header, .ok s1Table], [], []⟩ })).map
          (fun t => (t.pending, t.port.status)) = some (none, 0) ∧
      (endOf (exec (.init 5 0) { State.reset with answers := ⟨[.ok []], [], []⟩ })).map
          (fun t => (t.pending, t.port.status.toInt)) = some (none, -1) := by decide

/-- Vector H2, and the first and last identifier past the registry (vectors H6 and F12). -/
theorem witness_InitRefusals :
    (i2c [] [] []).port.din = [] ∧ (i2c [] [] []).handle.hstate ≠ .uninit ∧
      State.reset.cfg.registry.length ≤ (8#32).toNat ∧ State.reset.cfg.registry.length ≤ (0xFFFFFFFF#32).toNat := by
  decide

theorem witness_DeinitResetsTheHandle :
    let s := { i2c [] [] [] with answers := ⟨[], [], [.fail]⟩ }
    s.port.din = [] ∧ s.handle.hstate ≠ .uninit ∧ s.answers.release = [.fail] := by decide

theorem witness_GetInfoReturnsTheRecord :
    (i2c [] [] []).port.din = [] ∧ (i2c [] [] []).handle.hstate ≠ .uninit ∧ (i2c [] [] []).handle.pageSize ≠ 0 ∧
      (stateWith stub0Handle [] [] []).handle.hstate ≠ .uninit ∧
      (stateWith stub0Handle [] [] []).handle.pageSize = 0 := by decide

theorem witness_GetSfdpReturnsTheRecord :
    (nor [] []).port.din = [] ∧ (nor [] []).handle.hstate = .ready ∧ (nor [] []).handle.family = .spiNorSfdp ∧
      (nor [] []).sfdp.state = .parsed := by decide

/-- The widest SPI exchange, an I2C read and an I2C write. -/
theorem witness_RawXferSendsTheHostsRequest :
    let s := stateWith stub0Handle [1, 2] [.ok []] []
    let r := i2c [0] [.ok [7, 8]] []
    let w := i2c [0] [] [.ok 1]
    s.port.din.length = (2#32).toNat ∧ s.handle.hstate = .ready ∧ s.handle.iface = .spi ∧ (16#8).toNat ≤ 16 ∧
      (32#8).toNat ≤ 32 ∧ s.answers.xfer = [.ok []] ∧ r.port.din.length = (1#32).toNat ∧ r.handle.hstate = .ready ∧
      r.handle.iface = .i2c ∧ (2#32) ≠ 0 ∧ r.answers.xfer = [.ok [7, 8]] ∧ w.answers.count = [.ok 1] := by decide

/-- Vector H14: the first width that is too large, of each kind. -/
theorem witness_RawXferChecksTheWidths :
    let s := stateWith stub0Handle [] [] []
    s.port.din.length = (0#32).toNat ∧ s.port.dout = [] ∧ s.handle.hstate = .ready ∧ s.handle.iface = .spi ∧
      16 < (17#8).toNat ∧ 32 < (33#8).toNat := by decide

/-- Vectors X6, X7, X9, X10: DIN, lifecycle state and family each exclude a command. -/
theorem witness_ExcludedCommandsWriteOnlyStatus :
    (¬ admitted (i2c [1] [] []) (.read 0 1) ∧ ¬ admitted State.reset (.read 0 1) ∧
        ¬ admitted (i2c [] [] []) (.init 0 0xA0) ∧ ¬ admitted (stateWith stub0Handle [] [] []) (.writeByte 0 1) ∧
        ¬ admitted (i2c [] [] []) .discover ∧ ¬ admitted (i2c [] [] []) .getSfdp ∧
        ¬ admitted (boundNor []) (.rawXfer 0 0 0 0 0 0 0) ∧ ¬ admitted (i2c [1] [] []) (.write 0 2 false false)) ∧
      (i2c [1] [] []).port.dout = [] ∧ State.reset.port.dout = [] := by
  refine ⟨⟨?_, ?_, ?_, ?_, ?_, ?_, ?_, ?_⟩, rfl, rfl⟩ <;> (unfold admitted; decide)

/-- Sizes 131071 and 0, and the first address past SIZE (vectors X11, X14, X15). -/
theorem witness_AddressedCommandsCheckSizeAndAddress :
    (∀ k, ({ nor [] [] with handle := { norHandle with size := 131071 } } : State).handle.size.toNat ≠ 2 ^ k) ∧
      (i2c [] [] []).port.dout = [] ∧ (i2c [] [] []).handle.size.toNat ≤ (0x800#32).toNat :=
  ⟨not_pow2_131071, by decide⟩

theorem witness_ReportingCommandsChangeOnlyDoutAndStatus :
    ([.read 0 1, .readByte 0, .getInfo, .getSfdp, .rawXfer 0 0 1 0x9F 8 0 0] : List Instr).all
      (fun i => (nextOf (exec i (nor [] [.ok [0]]))).isSome) = true := by decide

theorem witness_HandleLifecycle_idle : State.reset.pending = none ∧ (boundNor []).pending = none := by decide

/-- Every case of the conclusion happens: INIT, DEINIT, DISCOVER to BOUND, DISCOVER and ERASE to READY. -/
theorem witness_HandleLifecycle :
    [endOf (exec (.init 0 0) State.reset), endOf (exec (.deinit false) (nor [] [])),
        endOf (exec .discover (nor [] [.ok []])), endOf (exec .discover (boundNor [.ok s1Header, .ok s1Table])),
        endOf (exec (.erase 0xFF)
          (boundNor [.ok s1Header, .ok [0xE5, 0x20, 0xF1, 0xFF, 0x00, 0x01, 0x00, 0x00], .ok [], .ok []]))].map
      (Option.map fun t => (t.handle.hstate, t.pending)) =
      [some (.ready, none), some (.uninit, none), some (.bound, none), some (.ready, none), some (.ready, none)] := by
  decide

theorem witness_WhoWritesTheHandle :
    (tinyI2c [] []).pending = none ∧ (nextOf (exec (.erasePage 1 0) (tinyI2c [] [.ok 17]))).isSome = true ∧
      (tinyI2c [] []).handle.wp = false := by decide

theorem settled_i2c (din : List Byte) (x : List XferAnswer) (c : List CountAnswer) : (i2c din x c).Settled where
  uninitReset := fun h => by cases h
  i2cGeometry := fun _ _ => ⟨⟨2048, 8, 16, 5⟩, rfl, rfl, rfl, rfl, rfl⟩
  narrowGeometry := fun _ h => by cases h
  norParsed := fun _ h => by cases h
  boundFailed := fun h => by cases h
  stubNoGeometry := fun _ h => by rcases h with h | h <;> cases h
  norGeometry := fun _ h => by cases h
  sfdpOnlyOnNor := fun _ => rfl
  ifaceFollows := fun _ => rfl

theorem settled_bound (x : List XferAnswer) : (boundNor x).Settled where
  uninitReset := fun h => by cases h
  i2cGeometry := fun h => by cases h
  narrowGeometry := fun h => by cases h
  norParsed := fun h => by cases h
  boundFailed := fun _ => ⟨rfl, rfl⟩
  stubNoGeometry := fun h => by cases h
  norGeometry := fun _ _ => ⟨rfl, .inl rfl, .inr rfl, rfl⟩
  sfdpOnlyOnNor := fun h => absurd rfl h
  ifaceFollows := fun _ => rfl

theorem settled_narrow : narrowInProgress.Settled where
  uninitReset := fun h => by cases h
  i2cGeometry := fun _ h => by cases h
  narrowGeometry := fun _ _ => ⟨⟨128, 7, 1, 5⟩, rfl, rfl, rfl, rfl, rfl⟩
  norParsed := fun _ h => by cases h
  boundFailed := fun h => by cases h
  stubNoGeometry := fun _ h => by rcases h with h | h <;> cases h
  norGeometry := fun _ h => by cases h
  sfdpOnlyOnNor := fun _ => rfl
  ifaceFollows := fun _ => rfl

/-- Another state of the same registers, with events at the host side. -/
theorem settled_hostIn {s : State} (l : List HostEvent) (h : s.Settled) : ({ s with hostIn := l } : State).Settled :=
  ⟨h.1, h.2, h.3, h.4, h.5, h.6, h.7, h.8, h.9⟩

theorem legal_i2c : (i2c [] [] []).handle.Legal Config.suggested ∧ (i2c [] [] []).sfdp.Legal :=
  ⟨⟨by decide, by decide, .inr ⟨4, rfl⟩⟩, .inl ⟨by decide, rfl⟩⟩

theorem legal_bound : (boundNor []).handle.Legal Config.suggested ∧ (boundNor []).sfdp.Legal :=
  ⟨⟨by decide, by decide, .inr ⟨6, rfl⟩⟩, .inr (by unfold LegalPtSize; decide)⟩

/-- A READY I2C handle meets the invariants, and a step goes from it to a next state; its command is one that finishes. -/
theorem witness_invariants_i2c :
    let s := offered (i2c [] [] []) 0x0000000100000000#192 []
    s.cfg.admitted = true ∧ s.Inv ∧ s.WireOk ∧ s.port.busy = false ∧ (nextOf (step s)).isSome = true :=
  ⟨by decide, ⟨rfl, rfl, legal_i2c, ⟨rfl, rfl⟩, settled_hostIn _ (settled_i2c [] [] []), rfl⟩,
    ⟨fun e he => (by cases he), fun r hr => by cases hr⟩, rfl, by decide⟩

/-- So does the BOUND handle of vector S27, at the host's next DISCOVER. -/
theorem witness_invariants_bound :
    let s := offered (boundNor [.ok s1Header, .ok s1Table]) 0x03#192 []
    s.cfg.admitted = true ∧ s.Inv ∧ s.WireOk ∧ s.port.busy = false ∧ decode 0x03#192 = .ok .discover ∧
      (nextOf (step s)).isSome = true :=
  ⟨by decide, ⟨rfl, rfl, legal_bound, ⟨rfl, rfl⟩, settled_hostIn _ (settled_bound _), rfl⟩,
    ⟨fun e he => (by cases he), fun r hr => by cases hr⟩, rfl, by decide, by decide⟩

/-- And an ERASE_PAGE between its frame and its wait: BUSY is 1, and the host offers nothing. -/
theorem witness_invariants_inProgress :
    let s := narrowInProgress
    s.cfg.admitted = true ∧ s.Inv ∧ s.WireOk ∧ s.port.busy = true ∧ s.hostIn = [] ∧ s.stillDue = [.delay 5] ∧
      (nextOf (step s)).isSome = true :=
  ⟨by decide, ⟨rfl, rfl, ⟨⟨by decide, by decide, .inr ⟨0, rfl⟩⟩, .inl ⟨by decide, rfl⟩⟩, ⟨rfl, rfl⟩, settled_narrow, rfl, rfl⟩,
    ⟨fun e he => (by cases he), fun r hr => by rw [List.mem_singleton.mp hr]; trivial⟩, rfl, rfl, rfl, by decide⟩

/-- And a DISCOVER of the BOUND handle between its two reads. -/
theorem witness_invariants_discovering :
    let h : Header := ⟨0x0106, 0, 0x0106, 8, 0x80⟩
    let s : State :=
      { boundNor [.ok s1Table] with
        sfdp := { s1Sfdp with state := .headerRead }
        port := { Port.reset with busy := true, cmdr := 0x03#192 }
        pending := some (.table .discover h) }
    s.cfg.admitted = true ∧ s.Inv ∧ (nextOf (step s)).isSome = true :=
  ⟨by decide,
    ⟨rfl, rfl, ⟨legal_bound.1, .inr (by unfold LegalPtSize; decide)⟩, ⟨rfl, rfl⟩,
      ⟨rfl, by decide, rfl, rfl, fun h => (by cases h), fun _ => ⟨rfl, .inl rfl, .inr rfl, rfl⟩⟩,
      by unfold LegalPtSize; decide, rfl⟩,
    by decide⟩

/-- Three commands for a state with the invariants. -/
theorem witness_EveryCommandFinishes :
    let s := i2c [] [] []
    s.cfg.admitted = true ∧ s.Inv ∧ s.port.busy = false ∧ decode 0x10#192 = .ok (.read 0 0) ∧
      decode 0x21#192 = .ok (.erase 0) ∧ decode 0x0000000100000012#192 = .ok (.write 1 0 false false) :=
  ⟨by decide, ⟨rfl, rfl, legal_i2c, ⟨rfl, rfl⟩, settled_i2c [] [] [], rfl⟩, rfl, by decide, by decide, by decide⟩

end Sys2Proof.Tests
end

section
/-! PROOFS, the invariants (10_state.md R39, R32, R34). `State.Sound` is what `State.Inv` says of the registers when no
discovery is between its two requests. Every way a step can end has one lemma: a finish, a request of a job, a
discovery. -/

namespace Sys2Proof.Machine

/-! ### What one step can do -/

/-- Everything a step can do when it answers a next state (R3, log 1, log 2, log 19). -/
inductive StepTo (s : State) : State → Prop where
  /-- nothing is handed over: the command in progress goes on -/
  | goOn : StepTo s s.advance
  /-- the host does nothing for this step -/
  | pass : StepTo s s.takeEvent.advance
  /-- the host has waited for the command in progress -/
  | awaited : s.pending = none → StepTo s s.takeEvent
  /-- a power cycle (R331) -/
  | powerOn : StepTo s s.takeEvent.powerOn
  /-- a command is accepted and issues its first request, if it has one (R107) -/
  | accept (o : Offer) (i : Instr) (t : State) : s.port.busy = false → decode o.cmdw = .ok i →
      FirstStep i (s.takeEvent.accept o) t → StepTo s t
  /-- a command word that does not decode (R104, R105) -/
  | refuse (o : Offer) : s.port.busy = false → StepTo s ((s.takeEvent.accept o).raise .invalidArgument)

theorem step_cases {s t : State} (h : step s = .next t) : StepTo s t := by
  unfold step at h
  split at h
  · split at h
    · cases h; exact .goOn
    · cases h; exact .powerOn
    · cases h; exact .pass
    · cases h
      unfold awaitIdle
      split
      · next hp => exact .awaited hp
      · exact .goOn
    · next o rest _ =>
      split at h
      · cases h
      · next hb =>
        have hb : s.port.busy = false := by simpa using hb
        unfold runOffer at h
        split at h
        · next i hi => exact .accept o i t hb hi (exec_cases h)
        · cases h; exact .refuse o hb
  · cases h

/-! ### The registers -/

/-- What `State.Inv` says of the registers, whatever is due. -/
structure State.Registers (s : State) : Prop where
  wpClear : s.handle.wp = false
  handleLegal : s.handle.Legal s.cfg
  sfdpLegal : s.sfdp.Legal
  hdrLength : s.sfdp.hdrBuf.length = 15
  ptLength : s.sfdp.ptBuf.length = 8

theorem State.Inv.registers {s : State} (h : s.Inv) : s.Registers :=
  ⟨h.wpClear, h.legal.1, h.legal.2, h.bufferLengths.1, h.bufferLengths.2⟩

/-- The registers between commands, and during one but for a discovery. -/
structure State.Sound (s : State) : Prop where
  registers : s.Registers
  settled : s.Settled

theorem State.Sound.of_same {s t : State} (h : s.Sound) (hc : t.cfg = s.cfg) (hh : t.handle = s.handle)
    (hs : t.sfdp = s.sfdp) : t.Sound := by
  refine ⟨⟨?_, ?_, ?_, ?_, ?_⟩, h.settled.of_same hc hs (.inl hh)⟩
  · rw [hh]; exact h.registers.wpClear
  · rw [hh, hc]; exact h.registers.handleLegal
  · rw [hs]; exact h.registers.sfdpLegal
  · rw [hs]; exact h.registers.hdrLength
  · rw [hs]; exact h.registers.ptLength

theorem State.Sound.quiet {s t : State} (h : s.Sound) (q : Quiet s t) : t.Sound := h.of_same q.cfg q.handle q.sfdp

theorem State.Sound.quietErase {s t : State} (h : s.Sound) (hu : s.handle.hstate ≠ .uninit) (q : QuietErase s t) :
    t.Sound := by
  refine ⟨⟨?_, ?_, ?_, ?_, ?_⟩, h.settled.quietErase hu q⟩
  · rw [q.handle]; exact h.registers.wpClear
  · rw [q.cfg]; exact h.registers.handleLegal.of_progress q.handle
  · rw [q.sfdp]; exact h.registers.sfdpLegal
  · rw [q.sfdp]; exact h.registers.hdrLength
  · rw [q.sfdp]; exact h.registers.ptLength

theorem QuietErase.hstate {s t : State} (q : QuietErase s t) : t.handle.hstate = s.handle.hstate := by rw [q.handle]

/-- The reset registers meet the invariants, with any parameters. -/
theorem State.Sound.of_reset {s : State} (hh : s.handle = .reset) (hs : s.sfdp = .reset) : s.Sound := by
  refine ⟨⟨?_, ?_, ?_, ?_, ?_⟩, ?_⟩
  · rw [hh]; rfl
  · rw [hh]; exact Handle.reset_legal s.cfg
  · rw [hs]; exact Sfdp.reset_legal
  · rw [hs]; rfl
  · rw [hs]; rfl
  · constructor <;> simp [hh, hs, Handle.reset]

/-! ### Between two commands, and between two requests of one -/

/-- Every finish of a command restores the invariants (R18, R37). -/
theorem State.Sound.finish_inv {s : State} (h : s.Sound) (v : Word32) : (s.finish v).Inv where
  busy := rfl
  wpClear := h.registers.wpClear
  legal := ⟨h.registers.handleLegal, h.registers.sfdpLegal⟩
  bufferLengths := ⟨h.registers.hdrLength, h.registers.ptLength⟩
  progress := ⟨h.settled.of_same rfl rfl (.inl rfl), rfl⟩

/-- A job's next request is due, on a READY handle. -/
theorem State.Sound.setPending_inv {s : State} {j : Job} (h : s.Sound) (hr : s.handle.hstate = .ready)
    (hb : s.port.busy = true) (hw : s.work = j.work) (rest : List Job) (g : Goal) :
    (s.setPending (.jobs j rest g)).Inv where
  busy := hb
  wpClear := h.registers.wpClear
  legal := ⟨h.registers.handleLegal, h.registers.sfdpLegal⟩
  bufferLengths := ⟨h.registers.hdrLength, h.registers.ptLength⟩
  progress := ⟨h.settled.of_same rfl rfl (.inl rfl), hr, hw⟩

/-- The next job falls due, or the command ends. -/
theorem State.Sound.nextJob_inv {s : State} (h : s.Sound) (hr : s.handle.hstate = .ready) (hb : s.port.busy = true)
    (jobs : List Job) (g : Goal) : (s.nextJob jobs g).Inv := by
  cases jobs with
  | nil =>
    obtain ⟨u, v, he, q, -⟩ := endJobs_ends g s
    rw [State.nextJob, he]
    exact (h.quietErase (by simp [hr]) q).finish_inv v
  | cons j rest => exact (h.quiet (setWork_quiet j.work s)).setPending_inv hr hb rfl rest g

/-- One request of a command with jobs (R174). -/
theorem State.Sound.stepJob_inv {s : State} {j : Job} (h : s.Sound) (hr : s.handle.hstate = .ready)
    (hb : s.port.busy = true) (hw : s.work = j.work) (rest : List Job) (g : Goal) : (stepJob j rest g s).Inv := by
  have q := transport_quiet j.due s
  have h1 := h.quiet q
  have hr1 : (transport j.due s).2.handle.hstate = .ready := by rw [q.handle, hr]
  have hb1 : (transport j.due s).2.port.busy = true := by rw [q.port, hb]
  rcases stepJob_cases j rest g s with ⟨e, he⟩ | ⟨r, more, -, he⟩ | ⟨-, he⟩ <;> rw [he]
  · obtain ⟨u, v, hu, q', -⟩ := failJob_ends g j e (transport j.due s).2
    rw [hu]
    exact (h1.quiet q').finish_inv v
  · exact h1.setPending_inv hr1 hb1 (by rw [transport_work, hw]) rest g
  · have q' := endJob_quietErase j (transport j.due s).2
    exact (h1.quietErase (by simp [hr1]) q').nextJob_inv (by rw [q'.hstate, hr1]) (by rw [q'.port, hb1]) rest g

/-! ### Discovery (43_sfdp.md R241) -/

/-- A discovery can start here, or go on: an SPI_NOR_SFDP handle that is bound, with the geometry of the discovery
before this one; INIT's handle is fresh (R280, R144). -/
structure State.Discoverable (who : Discoverer) (s : State) : Prop where
  registers : s.Registers
  busy : s.port.busy = true
  work : s.work = none
  bound : s.handle.hstate ≠ .uninit
  nor : s.handle.family = .spiNorSfdp
  spi : s.handle.iface = .spi
  fresh : who = .init → s.handle.hstate = .bound ∧ s.handle.noGeometry ∧
    s.sfdp = { Sfdp.reset with state := s.sfdp.state, hdrBuf := s.sfdp.hdrBuf }
  geometry : who ≠ .init → s.NorGeometry

/-- A bound SPI_NOR_SFDP handle meets the invariants of R39 when its geometry is that of a discovery, and its HSTATE
follows SFDP_STATE. -/
theorem settled_of_nor {s : State} (hu : s.handle.hstate ≠ .uninit) (hf : s.handle.family = .spiNorSfdp)
    (hi : s.handle.iface = .spi) (hg : s.NorGeometry) (hr : s.handle.hstate = .ready → s.sfdp.state = .parsed)
    (hb : s.handle.hstate = .bound → s.sfdp.state = .failed) : s.Settled where
  uninitReset h := absurd h hu
  i2cGeometry _ h := by simp [hf] at h
  narrowGeometry _ h := by simp [hf] at h
  norParsed h _ := hr h
  boundFailed h := ⟨hf, hb h⟩
  stubNoGeometry _ h := by simp [hf] at h
  norGeometry _ _ := hg
  sfdpOnlyOnNor h := absurd hf h
  ifaceFollows _ := by simp [hf, hi]

/-- A discovery of a settled SPI_NOR_SFDP handle, as DISCOVER and ERASE start it. -/
theorem State.Sound.discoverable {s : State} (h : s.Sound) (hb : s.port.busy = true) (hw : s.work = none)
    (hu : s.handle.hstate ≠ .uninit) (hf : s.handle.family = .spiNorSfdp) {who : Discoverer} (hwho : who ≠ .init) :
    s.Discoverable who where
  registers := h.registers
  busy := hb
  work := hw
  bound := hu
  nor := hf
  spi := by have := h.settled.ifaceFollows hu; rwa [hf] at this
  fresh hi := absurd hi hwho
  geometry _ := h.settled.norGeometry hu hf

/-- The geometry of a discovery does not depend on HSTATE. -/
theorem State.NorGeometry.of_hstate {s t : State} (h : s.NorGeometry) (hc : t.cfg = s.cfg)
    (hh : t.handle = { s.handle with hstate := t.handle.hstate }) (ha : t.sfdp.arraySize = s.sfdp.arraySize) :
    t.NorGeometry := by
  unfold State.NorGeometry at h ⊢
  rw [hh, hc, ha]
  exact h

/-- A discovery that fails: INIT resets the handle, DISCOVER and ERASE leave it BOUND (R263, R281). -/
theorem State.Discoverable.failed_inv {who : Discoverer} {s u : State} (d : s.Discoverable who) (hc : u.cfg = s.cfg)
    (f : DiscoveryFailed s u) (c : Word32) : (u.endDiscovery who (some c)).Inv := by
  have kept (hwho : who ≠ .init) : u.Sound := by
    have hs : u.handle.hstate = .bound := by rw [f.handle]
    have hst : u.sfdp.state = .failed := by rw [f.sfdp]
    refine ⟨⟨?_, ?_, ?_, f.hdrLength d.registers.hdrLength, f.ptLength d.registers.ptLength⟩,
      settled_of_nor (by simp [hs]) ?_ ?_ ?_ (by simp [hs]) fun _ => ?_⟩
    · rw [f.handle]; exact d.registers.wpClear
    · rw [hc]; exact d.registers.handleLegal.of_hstate d.bound (by rw [f.handle])
    · exact d.registers.sfdpLegal.of_buffers (by simp [hst]) (by rw [f.sfdp])
    · rw [f.handle]; exact d.nor
    · rw [f.handle]; exact d.spi
    · exact (d.geometry hwho).of_hstate hc (by rw [f.handle]) (by rw [f.sfdp])
    · exact hst
  cases who with
  | init => exact (State.Sound.of_reset rfl rfl : u.resetHandle.Sound).finish_inv c
  | discover => exact (kept (by simp)).finish_inv c
  | erase value => exact (kept (by simp)).finish_inv c

/-- A discovery that has succeeded: DISCOVER and INIT finish, an ERASE goes on to its frames (R228, R240, R280). -/
theorem State.Sound.endDiscovery_inv {who : Discoverer} {s : State} (h : s.Sound) (hr : s.handle.hstate = .ready)
    (hb : s.port.busy = true) : (s.endDiscovery who none).Inv := by
  cases who with
  | discover => exact h.finish_inv _
  | init =>
    have hsame : (s.setHstate .ready).handle = s.handle := by rw [State.setHstate_handle, ← hr]
    exact (h.of_same (t := s.setHstate .ready) rfl hsame rfl).finish_inv _
  | erase value =>
    rw [State.endDiscovery]
    rcases startErase_cases .spiNorSfdp value s with ⟨-, he⟩ | ⟨-, he⟩ <;> rw [he]
    · exact h.finish_inv _
    · exact (h.quietErase (by simp [hr]) (setProgress_quietErase 0#32 s)).nextJob_inv hr hb _ _

/-- Past the header read a discovery is between its two requests (R35). -/
theorem State.Discoverable.discovering {who : Discoverer} {s t : State} {h : List Byte} (d : s.Discoverable who)
    (hc : t.cfg = s.cfg) (hh : t.handle = s.handle) (hs : t.sfdp = { s.sfdp with state := .headerRead, hdrBuf := h }) :
    t.Discovering who where
  headerRead := by rw [hs]
  bound := hh ▸ d.bound
  nor := hh ▸ d.nor
  spi := hh ▸ d.spi
  fresh hi := by
    obtain ⟨h1, h2, h3⟩ := d.fresh hi
    rw [hh, hs]
    exact ⟨h1, h2, by rw [h3]⟩
  geometry hi := (d.geometry hi).of_hstate hc (by rw [hh]) (by rw [hs])

/-- The header read of a discovery (R241 to R248). -/
theorem readHeader_inv {who : Discoverer} {s : State} (d : s.Discoverable who) : (readHeader who s).Inv := by
  rcases readHeader_cases s with ⟨c, u, -, hr, f, heq⟩ | ⟨h, hd, u, hhd, hl, hr, hh, hs, heq⟩ <;> rw [heq]
  · exact d.failed_inv hr.cfg f c
  · refine ⟨?_, ?_, ⟨?_, ?_⟩, ⟨?_, ?_⟩, ⟨d.discovering hr.cfg hh hs, parseHeader_ok_size hhd, hr.work.trans d.work⟩⟩
    · exact hr.port ▸ d.busy
    · exact hh ▸ d.registers.wpClear
    · rw [State.setPending_handle, State.setPending_cfg, hh, hr.cfg]; exact d.registers.handleLegal
    · rw [State.setPending_sfdp, hs]; exact d.registers.sfdpLegal.of_buffers (by simp) rfl
    · simp [hs, hl]
    · simp [hs, d.registers.ptLength]

/-- The table read of a discovery (R249 to R263): the registers it leaves are those of the table, which has legal
values. -/
theorem readTable_inv {who : Discoverer} {s : State} {hd : Header} (d : s.Discoverable who) (hps : LegalPtSize hd.ps)
    (hp : s.pending = some (.table who hd)) : (readTable who hd s).Inv := by
  have hself := setPending_self hp
  rcases readTable_cases hd s hps.1 with
    ⟨c, u, -, hr, hh, hs, hpt, heq⟩ | ⟨tab, tb, u, htab, hl, hr, hh, hs, heq⟩ <;> rw [← hself, heq who]
  · exact d.failed_inv hr.cfg ⟨hh, by rw [hs], by rw [hs]; exact id, hpt⟩ c
  · obtain ⟨hab, hgran⟩ := parseTable_ok htab
    have hready : u.handle.hstate = .ready := by rw [hh]
    have haddr : u.handle.addrLen = 24#8 ∨ u.handle.addrLen = 32#8 := by
      rw [hh]; exact hab.imp (fun h => by rw [h]; rfl) (fun h => by rw [h]; rfl)
    have hpage : u.handle.pageSize = 1#32 ∨ u.handle.pageSize = 64#32 := by
      rw [hh]; exact hgran.imp (fun h => by rw [h]; rfl) (fun h => by rw [h]; rfl)
    have hgeo : u.NorGeometry := ⟨by rw [hh, hs], haddr, hpage, by rw [hh, hr.cfg]⟩
    have hset : u.Settled :=
      settled_of_nor (by simp [hready]) (by rw [hh]; exact d.nor) (by rw [hh]; exact d.spi) hgeo
        (fun _ => by rw [hs]) (by simp [hready])
    have hreg : u.Registers := by
      refine ⟨?_, ⟨fun _ => ?_, ?_, ?_⟩, ?_, ?_, ?_⟩
      · rw [hh]; exact d.registers.wpClear
      · rw [hh, hr.cfg]; exact d.registers.handleLegal.variant d.bound
      · rcases haddr with h | h <;> rw [h] <;> decide
      · exact .inr (hpage.elim (fun h => ⟨0, by rw [h]; rfl⟩) (fun h => ⟨6, by rw [h]; rfl⟩))
      · rw [hs]; exact .inr ⟨hps, hgran, hab⟩
      · rw [hs]; exact d.registers.hdrLength
      · rw [hs]; exact hl
    exact State.Sound.endDiscovery_inv ⟨hreg, hset⟩ hready (hr.port ▸ d.busy)

/-! ### One step -/

/-- The next step of a command in progress keeps the invariants (R3). -/
theorem State.Inv.advance_inv {s : State} (h : s.Inv) : s.advance.Inv := by
  have hb := h.busy
  have hprog := h.progress
  cases hp : s.pending with
  | none => rwa [advance_idle hp]
  | some p =>
    rw [hp] at hb hprog
    cases p with
    | table who hd =>
      obtain ⟨d, hps, hw⟩ := hprog
      have hdisc : s.Discoverable who :=
        ⟨h.registers, hb, hw, d.bound, d.nor, d.spi, fun hi => by rw [d.headerRead]; exact d.fresh hi, d.geometry⟩
      simpa [State.advance, hp] using readTable_inv hdisc hps hp
    | jobs j rest g =>
      obtain ⟨hset, hr, hw⟩ := hprog
      rw [advance_jobs hp]
      exact State.Sound.stepJob_inv ⟨h.registers, hset⟩ hr hb hw rest g

/-- Nothing but the host's further events differs. -/
theorem State.Inv.of_hostIn {s t : State} (h : s.Inv) (e : t = { s with hostIn := t.hostIn }) : t.Inv := by
  rw [e]
  obtain ⟨h1, h2, h3, h4, h5⟩ := h
  refine ⟨h1, h2, h3, h4, ?_⟩
  dsimp only
  rcases hp : s.pending with _ | (⟨who, hd⟩ | ⟨j, rest, g⟩) <;> rw [hp] at h5
  · exact ⟨h5.1.of_same rfl rfl (.inl rfl), h5.2⟩
  · obtain ⟨d, hps, hw⟩ := h5
    exact ⟨⟨d.1, d.2, d.3, d.4, d.5, d.6⟩, hps, hw⟩
  · exact ⟨h5.1.of_same rfl rfl (.inl rfl), h5.2⟩

theorem State.Inv.takeEvent_inv {s : State} (h : s.Inv) : s.takeEvent.Inv := h.of_hostIn rfl

/-- A power cycle restores the invariants whatever was in progress (R331). -/
theorem powerOn_inv (s : State) : s.powerOn.Inv := by
  have h : s.powerOn.Sound := .of_reset rfl rfl
  exact ⟨rfl, h.registers.wpClear, ⟨h.registers.handleLegal, h.registers.sfdpLegal⟩, ⟨rfl, rfl⟩, h.settled, rfl⟩

/-- An idle block: no command is in progress. -/
theorem State.Inv.idle {s : State} (h : s.Inv) (hb : s.port.busy = false) :
    s.pending = none ∧ s.Sound ∧ s.work = none := by
  have hp : s.pending = none := by
    have := h.busy; rw [hb] at this; simpa using this.symm
  have := h.progress
  rw [hp] at this
  exact ⟨hp, ⟨h.registers, this.1⟩, this.2⟩

/-- INIT of an entry that needs no discovery (R142, R280). -/
theorem bind_sound {s : State} {v : Word32} {sel : Byte} {e : Entry} (h : s.Sound) (ha : s.cfg.admitted = true)
    (hu : s.handle.hstate = .uninit) (he : s.cfg.registry[v.toNat]? = some e) (hs : e ≠ .sentinel) (hd : e ≠ .sfdp) :
    ((s.bind v sel e).setHstate .ready).Sound := by
  have hsf : s.sfdp = .reset := (h.settled.uninitReset hu).2
  have hl := bind_legal (sel := sel) ha he hs
  refine ⟨⟨rfl, hl.of_hstate (by simp [State.bind]) rfl, h.registers.sfdpLegal, h.registers.hdrLength,
    h.registers.ptLength⟩, ?_⟩
  cases e with
  | sentinel => exact absurd rfl hs
  | sfdp => exact absurd rfl hd
  | hwI2cEe g =>
    constructor <;> simp [State.bind, mapEntry, hsf]
    case i2cGeometry => exact ⟨g, he, rfl, rfl, rfl, rfl⟩
  | hwSpiNarrow g =>
    constructor <;> simp [State.bind, mapEntry, hsf]
    case narrowGeometry => exact ⟨g, he, rfl, rfl, rfl, rfl⟩
  | stub0 =>
    constructor <;> simp [State.bind, mapEntry, hsf]
    case stubNoGeometry => exact ⟨rfl, rfl, rfl, rfl⟩
  | stub1 =>
    constructor <;> simp [State.bind, mapEntry, hsf]
    case stubNoGeometry => exact ⟨rfl, rfl, rfl, rfl⟩

/-- INIT of the SFDP entry, at its header read (R144, R280). -/
theorem bind_discoverable {s : State} {v : Word32} {sel : Byte} (h : s.Sound) (ha : s.cfg.admitted = true)
    (hb : s.port.busy = true) (hw : s.work = none) (hu : s.handle.hstate = .uninit)
    (he : s.cfg.registry[v.toNat]? = some .sfdp) : (s.bind v sel .sfdp).Discoverable .init where
  registers := ⟨rfl, bind_legal ha he (by simp), h.registers.sfdpLegal, h.registers.hdrLength, h.registers.ptLength⟩
  busy := hb
  work := hw
  bound := by simp [State.bind]
  nor := rfl
  spi := rfl
  fresh _ := ⟨rfl, ⟨rfl, rfl, rfl, rfl⟩, by
    have hsf : (s.bind v sel .sfdp).sfdp = .reset := (h.settled.uninitReset hu).2
    rw [hsf]⟩
  geometry hi := absurd rfl hi

/-- The step that accepts a command keeps the invariants (R107). -/
theorem FirstStep.inv {i : Instr} {s t : State} (f : FirstStep i s t) (hi : i.isCommand = true) (h : s.Sound)
    (ha : s.cfg.admitted = true) (hb : s.port.busy = true) (hw : s.work = none) : t.Inv := by
  cases f with
  | report u d v q _ => exact ((h.quiet q).of_same (t := u.setDout d) rfl rfl rfl).finish_inv v
  | bind v sel e _ hu he hs hd => exact (bind_sound h ha hu he hs hd).finish_inv _
  | bindSfdp v sel _ hu he => exact readHeader_inv (bind_discoverable h ha hb hw hu he)
  | release b u v _ _ => exact (State.Sound.of_reset rfl rfl : u.resetHandle.Sound).finish_inv v
  | discover who hwho hu hf =>
    refine readHeader_inv (h.discoverable hb hw hu hf ?_)
    rintro rfl
    simp at hwho
  | write jobs p n hr _ _ _ => exact (h.nextJob_inv hr hb jobs _).advance_inv
  | erase jobs g _ hst _ _ =>
    have hr : s.handle.hstate = .ready := by
      rcases hst with hr | ⟨hbd, hp⟩
      · exact hr
      · have := (h.settled.boundFailed hbd).2; simp [hp] at this
    exact ((h.quietErase (by simp [hr]) (setProgress_quietErase 0#32 s)).nextJob_inv hr hb jobs g).advance_inv
  | frame r hf => simp [hi] at hf

/-- The block at the acceptance of a command: BUSY was 0, so no command was in progress (R107). -/
theorem State.Inv.accept_sound {s : State} (h : s.Inv) (hb : s.port.busy = false) (o : Offer) :
    (s.accept o).Sound ∧ (s.accept o).work = none := by
  obtain ⟨-, hsound, hw⟩ := h.idle hb
  exact ⟨hsound.of_same rfl rfl rfl, hw⟩

/-- Settles O58: by cases on what the step did; a command in progress by `State.Inv.advance_inv`, an accepted one by
`FirstStep.inv`. -/
theorem everyStepKeepsTheInvariants : Obligations.EveryStepKeepsTheInvariants := by
  intro s t ha h hstep
  cases step_cases hstep with
  | goOn => exact h.advance_inv
  | pass => exact h.takeEvent_inv.advance_inv
  | awaited _ => exact h.takeEvent_inv
  | powerOn => exact powerOn_inv s.takeEvent
  | accept o i _ hb hi f =>
    obtain ⟨hsound, hw⟩ := h.takeEvent_inv.accept_sound hb o
    exact f.inv (decode_isCommand hi) hsound ha rfl hw
  | refuse o hb => exact (h.takeEvent_inv.accept_sound hb o).1.finish_inv _

end Sys2Proof.Machine
end

section
/-! PROOFS, the end of every command (00_scope.md R3, R18): each command answers a next state, and runs on to its finish
whatever the transport answers. -/

namespace Sys2Proof.Machine

open Sys2Proof.Claims

/-! ### Every command answers a next state -/

/-- The page size of an admitted I2C_EE entry fits its register, and is not 0 (R10, R32). -/
theorem pageSizeRegister_pos {g : Geometry} (h : g.admittedI2c = true) : 0 < g.pageSizeRegister.toNat := by
  simp only [Geometry.admittedI2c, Geometry.admitted, Bool.and_eq_true, Bool.or_eq_true, beq_iff_eq,
    decide_eq_true_eq] at h
  obtain ⟨⟨⟨⟨⟨⟨-, hpow⟩, -⟩, -⟩, haddr⟩, hpage⟩, -⟩ := h
  have hpos := pow2_pos hpow
  have hlt : g.pageSize < 2 ^ 32 := by
    rcases haddr with h | h <;> rw [h] at hpage <;> omega
  rw [Geometry.pageSizeRegister, if_pos hlt, BitVec.toNat_ofNat, Nat.mod_eq_of_lt hlt]
  exact hpos

theorem entry_admitted {p : Params} {n : Nat} {e : Entry} (ha : p.admitted = true) (he : p.registry[n]? = some e) :
    e.admitted = true := by
  simp only [Params.admitted, registryAdmitted, Bool.and_eq_true] at ha
  exact List.all_eq_true.mp ha.1.1.1.1.1 _ (List.mem_of_getElem? he)

/-- On a READY handle with the invariants the write engine has a page to fill (R39, R191). -/
theorem State.Settled.eps_ne_zero {s : State} {hw : HwFamily} (h : s.Settled) (ha : s.cfg.admitted = true)
    (hr : s.handle.hstate = .ready) (hf : hardwareFamily s.handle.family = some hw) : s.eps hw ≠ 0 := by
  have hfam := hardwareFamily_some hf
  cases hw with
  | spiNarrow => simp [State.eps]
  | i2cEe =>
    obtain ⟨g, he, -, -, hpage, -⟩ := h.i2cGeometry hr hfam
    have := pageSizeRegister_pos (entry_admitted ha he)
    rw [State.eps, hpage]
    omega
  | spiNorSfdp =>
    obtain ⟨-, -, hpage, -⟩ := h.norGeometry (by simp [hr]) hfam
    rcases hpage with hp | hp <;> simp [State.eps, hp]

theorem writeOp_answers_of_settled {din : Nat} {addr : Word32} {d : List Byte} {wrap partialAcc : Bool} {s : State}
    (h : s.Settled) (ha : s.cfg.admitted = true) : ∃ t, writeOp din addr d wrap partialAcc s = .next t :=
  writeOp_answers fun _ hf =>
    have ⟨_, hr, hfam⟩ := readyFamily_some (addressedFamily_some hf).1
    h.eps_ne_zero ha hr hfam

/-- With admitted parameters no instruction stops in a settled state. -/
theorem exec_answers (i : Instr) {s : State} (h : s.Settled) (ha : s.cfg.admitted = true) :
    ∃ t, exec i s = .next t := by
  cases i with
  | init v sel =>
    change ∃ t, execInit v sel s = .next t
    rcases execInit_cases v sel s with ⟨c, he⟩ | ⟨-, e, -, -, ⟨-, he⟩ | ⟨-, he⟩⟩ <;> exact ⟨_, he⟩
  | deinit b => obtain ⟨u, v, he, -⟩ := execDeinit_ends b s; exact ⟨_, he⟩
  | discover =>
    change ∃ t, execDiscover s = .next t
    rcases execDiscover_cases s with he | ⟨-, -, he⟩ <;> exact ⟨_, he⟩
  | getInfo => obtain ⟨d, v, he⟩ := execGetInfo_ends s; exact ⟨_, he⟩
  | getSfdp => obtain ⟨d, v, he⟩ := execGetSfdp_ends s; exact ⟨_, he⟩
  | write addr len wrap p => exact writeOp_answers_of_settled h ha
  | writeByte addr value => exact writeOp_answers_of_settled h ha
  | erasePage page value =>
    change ∃ t, execErasePage page value s = .next t
    rcases execErasePage_cases page value s with he | ⟨hw, -, -, -, he⟩ <;> exact ⟨_, he⟩
  | erase value =>
    change ∃ t, execErase value s = .next t
    rcases execErase_cases value s with ⟨-, he⟩ | ⟨-, -, he⟩ | ⟨hw, -, -, he⟩ <;> exact ⟨_, he⟩
  | rawXfer addr len rlen opc opw adw dmw =>
    obtain ⟨u, d, v, he, -⟩ := execRawXfer_ends addr len rlen opc opw adw dmw s
    exact ⟨_, he⟩
  | _ => exact ⟨_, rfl⟩

/-! ### Every command runs on to its finish -/

/-- The command accepted in `s` has finished in `t`, and no request already issued was taken back (R18, R107). -/
def Concludes (s t : State) : Prop := (∃ v d, Finished s t v d) ∧ s.wire <+: t.wire

theorem Concludes.pending {s t : State} (h : Concludes s t) : t.pending = none := by
  obtain ⟨⟨v, d, -, -, hp, -⟩, -⟩ := h
  exact hp

/-- A `finish` concludes the command if the parameters, CMDR, DIN and the host's events stand. -/
theorem concludes_finish {s u : State} {d : List Byte} (hp : u.port = { s.port with dout := d }) (hc : u.cfg = s.cfg)
    (hh : u.hostIn = s.hostIn) (hw : s.wire <+: u.wire) (v : Word32) : Concludes s (u.finish v) :=
  ⟨⟨v, d, by rw [State.finish_port, hp], rfl, rfl, hc, hh⟩, hw⟩

theorem QuietErase.concludes_finish {s u : State} (q : QuietErase s u) (v : Word32) : Concludes s (u.finish v) :=
  Machine.concludes_finish (d := s.port.dout) q.port q.cfg q.hostIn q.wire v

/-- The first steps of a command may come before. -/
theorem Reads.concludes {s t u : State} {l : List Request} (r : Reads s t l) (h : Concludes t u) : Concludes s u := by
  obtain ⟨⟨v, d, hp, hw, hpend, hc, hh⟩, hwire⟩ := h
  exact ⟨⟨v, d, by rw [hp, r.port], hw, hpend, hc.trans r.cfg, hh.trans r.hostIn⟩, r.wire.trans hwire⟩

/-- The jobs of a command come to their end whatever the answers (R174). -/
theorem jobs_conclude (jobs : List Job) (g : Goal) (s : State) :
    ∃ u, Leads (s.nextJob jobs g) u ∧ Concludes s u := by
  obtain ⟨u, hl, hp⟩ := jobs_complete jobs g s
  have hu : Underway s u :=
    hl.keeps (P := Underway s) (fun _ => advance_underway) (nextJob_underway jobs g (QuietErase.refl s))
  rcases hu with ⟨j, rest, g', hj, -⟩ | ⟨w, v, rfl, q⟩
  · rw [hp] at hj; cases hj
  · exact ⟨_, hl, q.concludes_finish v⟩

/-- A discovery's command comes to its end: at once, or by the jobs of ERASE (R228, R241). -/
theorem endDiscovery_concludes (who : Discoverer) (o : Option Word32) (s : State) :
    ∃ u, Leads (s.endDiscovery who o) u ∧ Concludes s u := by
  have quiet (v : Word32) : Concludes s (s.finish v) := (QuietErase.refl s).concludes_finish v
  cases who with
  | discover => cases o <;> exact ⟨_, Leads.refl _, quiet _⟩
  | init => cases o <;> exact ⟨_, Leads.refl _, quiet _⟩
  | erase value =>
    cases o with
    | some c => exact ⟨_, Leads.refl _, quiet c⟩
    | none =>
      rw [State.endDiscovery]
      rcases startErase_cases .spiNorSfdp value s with ⟨-, h⟩ | ⟨-, h⟩ <;> rw [h]
      · exact ⟨_, Leads.refl _, quiet _⟩
      · exact jobs_conclude _ _ (s.setProgress 0#32)

theorem discovery_concludes (who : Discoverer) (s : State) : ∃ u, Leads (readHeader who s) u ∧ Concludes s u := by
  obtain ⟨o, v, rest, d⟩ := discovery_ends s
  obtain ⟨u, hl, hu⟩ := endDiscovery_concludes who o v
  exact ⟨u, (d.leads who).trans hl, d.reads.concludes hu⟩

/-- From the step that accepts it, every command runs on to its finish. -/
theorem FirstStep.concludes {i : Instr} {s t : State} (f : FirstStep i s t) (hi : i.isCommand = true) :
    ∃ u, Leads t u ∧ Concludes s u := by
  cases f with
  | report u d v q _ =>
    have hp : (u.setDout d).port = { s.port with dout := d } := by rw [State.setDout_port, q.port]
    exact ⟨_, Leads.refl _, concludes_finish hp q.cfg q.hostIn q.wire v⟩
  | bind v sel e _ _ _ _ _ => exact ⟨_, Leads.refl _, (QuietErase.refl s).concludes_finish _⟩
  | bindSfdp v sel _ _ _ => exact discovery_concludes .init (s.bind v sel .sfdp)
  | release b u v _ hu =>
    have q : Quiet s u := by
      rcases hu with rfl | rfl
      · exact Quiet.refl u
      · exact transport_quiet _ s
    exact ⟨_, Leads.refl _, concludes_finish (u := u.resetHandle) (d := s.port.dout) q.port q.cfg q.hostIn q.wire v⟩
  | discover who _ _ _ => exact discovery_concludes who s
  | write jobs p n _ _ _ _ =>
    obtain ⟨u, hl, hu⟩ := jobs_conclude jobs (.write p n) s
    exact ⟨u, hl.advance hu.pending, hu⟩
  | erase jobs g _ _ _ _ =>
    obtain ⟨u, hl, hu⟩ := jobs_conclude jobs g (s.setProgress 0#32)
    exact ⟨u, hl.advance hu.pending, hu⟩
  | frame r hf => simp [hi] at hf

/-- Settles O54: the command answers (`exec_answers`), and its first step leads to a finish (`FirstStep.concludes`). -/
theorem everyCommandFinishes : Obligations.EveryCommandFinishes := by
  intro s o i ha h hb hi
  obtain ⟨hsound, -⟩ := h.accept_sound hb o
  obtain ⟨u, hu⟩ := exec_answers i hsound.settled ha
  obtain ⟨t, hl, ht⟩ := (exec_cases hu).concludes (decode_isCommand hi)
  exact ⟨t, ⟨reaches_iff.mpr ⟨u, hu, hl⟩, ht.pending⟩, ht⟩

end Sys2Proof.Machine
end

section
/-! PROOFS, one request a step (00_scope.md R3, R322), the admission conditions (R10 to R12) and the erase-all of
SPI_NARROW (42_erase.md R226). -/

namespace Sys2Proof.Machine

open Sys2Proof.Claims

/-! ### One request a step -/

/-- From `s` to `t` at most one request was issued. -/
def IssuesAtMostOne (s t : State) : Prop := ∃ r : List Request, r.length ≤ 1 ∧ t.requests = s.requests ++ r

theorem issuesAtMostOne_of_wire {s t : State} (h : t.wire = s.wire) : IssuesAtMostOne s t :=
  ⟨[], by simp, by simp [State.requests, h]⟩

theorem issuesAtMostOne_of_transport {s t : State} (u : State) {r : Request} (hu : u.wire = s.wire)
    (h : t.wire = (transport r u).2.wire) : IssuesAtMostOne s t := by
  have hr := transport_requests r u
  unfold State.requests at hr
  exact ⟨[r], by simp, by rw [State.requests, h, hr, hu]; rfl⟩

theorem advance_issuesAtMostOne (s : State) : IssuesAtMostOne s s.advance :=
  ⟨_, by cases s.stillDue <;> simp, advance_requests s⟩

/-- Jobs that have just fallen due: nothing was issued before their first step. -/
theorem nextJob_advance_issuesAtMostOne (jobs : List Job) (g : Goal) (s : State) :
    IssuesAtMostOne s (s.nextJob jobs g).advance := by
  obtain ⟨r, hr, h⟩ := advance_issuesAtMostOne (s.nextJob jobs g)
  exact ⟨r, hr, by rw [h, State.requests, nextJob_wire]; rfl⟩

theorem FirstStep.issuesAtMostOne {i : Instr} {s t : State} (f : FirstStep i s t) : IssuesAtMostOne s t := by
  cases f with
  | report u d v _ hw =>
    rcases hw with hw | ⟨r, -, hw⟩
    · exact issuesAtMostOne_of_wire hw
    · exact issuesAtMostOne_of_transport s rfl hw
  | bind v sel e _ _ _ _ _ => exact issuesAtMostOne_of_wire rfl
  | bindSfdp v sel _ _ _ =>
    exact issuesAtMostOne_of_transport ((s.bind v sel .sfdp).setSfdpState .headerRead) rfl (readHeader_wire .init _)
  | release b u v _ hu =>
    rcases hu with rfl | rfl
    · exact issuesAtMostOne_of_wire rfl
    · exact issuesAtMostOne_of_transport s rfl rfl
  | discover who _ _ _ =>
    exact issuesAtMostOne_of_transport (s.setSfdpState .headerRead) rfl (readHeader_wire who s)
  | write jobs p n _ _ _ _ => exact nextJob_advance_issuesAtMostOne jobs _ s
  | erase jobs g _ _ _ _ => exact nextJob_advance_issuesAtMostOne jobs g (s.setProgress 0#32)
  | frame r _ => exact issuesAtMostOne_of_transport s rfl rfl

theorem step_issuesAtMostOne {s t : State} (h : step s = .next t) : IssuesAtMostOne s t := by
  cases step_cases h with
  | goOn => exact advance_issuesAtMostOne s
  | pass => exact advance_issuesAtMostOne s.takeEvent
  | awaited _ => exact issuesAtMostOne_of_wire rfl
  | powerOn => exact issuesAtMostOne_of_wire rfl
  | accept o i _ _ _ f => exact f.issuesAtMostOne
  | refuse o _ => exact issuesAtMostOne_of_wire rfl

/-- The table read as a request written out: its 24-bit address fits the field (R171). -/
theorem fRdsfdp_eq_spiRequest (s : State) (y : BitVec 24) (n : Nat) :
    s.wireCtx.fRdsfdp y.toNat n = spiRequest s s.cfg.nor.rdsfdpOpc 8 (BitVec.ofNat 32 y.toNat) 24 8 [] n := by
  simp [WireCtx.fRdsfdp, WireCtx.spi, spiRequest, addressField, State.wireCtx, Nat.mod_eq_of_lt y.isLt]

/-- The claims' due request is the first of those still due. -/
theorem dueRequest_eq (s : State) : dueRequest s = s.stillDue.head? := by
  unfold dueRequest State.stillDue
  rcases s.pending with _ | (⟨who, h⟩ | ⟨j, rest, g⟩)
  · rfl
  · exact congrArg some (fRdsfdp_eq_spiRequest s h.pp h.ps.toNat).symm
  · rfl

theorem advance_issues_dueRequest (s : State) : s.advance.requests = s.requests ++ (dueRequest s).toList := by
  rw [dueRequest_eq, advance_requests]

/-- With nothing handed over, a step goes on with what is in progress (log 19). -/
theorem step_of_pass {s : State} (ha : s.cfg.admitted = true) (h : s.hostIn = [] ∨ ∃ rest, s.hostIn = .pass :: rest) :
    step s = .next s.takeEvent.advance := by
  rw [step, if_pos ha]
  rcases h with h | ⟨rest, h⟩
  · have hs : s.takeEvent = s := by cases s; simp_all [State.takeEvent]
    rw [h, hs]
  · rw [h]

theorem step_of_await {s : State} {rest : List HostEvent} (ha : s.cfg.admitted = true) (h : s.hostIn = .await :: rest) :
    step s = .next (awaitIdle s) := by
  rw [step, if_pos ha, h]

theorem awaitIdle_of_none {s : State} (h : s.pending = none) : awaitIdle s = s.takeEvent := by rw [awaitIdle, h]

theorem awaitIdle_of_some {s : State} (h : s.pending ≠ none) : awaitIdle s = s.advance := by
  obtain ⟨p, hp⟩ := Option.ne_none_iff_exists'.mp h
  rw [awaitIdle, hp]

/-- Settles O5: each clause is what `step` does on that head of the host's events. -/
theorem busyOfferHasNoStep : Obligations.BusyOfferHasNoStep := by
  intro s ha
  refine ⟨fun o rest h hb => ?_, fun t h => step_issuesAtMostOne h, fun h => ?_,
    fun rest h => ⟨fun hp => ?_, fun hp => ?_⟩⟩
  · rw [step, if_pos ha, h]
    exact if_pos hb
  · exact ⟨_, step_of_pass ha h, rfl, advance_issues_dueRequest s.takeEvent, advance_idle (s := s.takeEvent)⟩
  · rw [step_of_await ha h, awaitIdle_of_none hp, State.takeEvent, h]
    rfl
  · rw [step_of_await ha h, awaitIdle_of_some hp]
    exact ⟨rfl, advance_issues_dueRequest s⟩

/-! ### Admission (R10 to R12) -/

theorem geometry_admitted_iff (g : Geometry) :
    g.admitted = true ↔
      (∃ k, g.size = 2 ^ k) ∧ (∃ k, g.pageSize = 2 ^ k) ∧ g.pageSize ≤ g.size ∧ g.writeDelayMs < 2 ^ 32 := by
  simp only [Geometry.admitted, Bool.and_eq_true, decide_eq_true_eq, pow2_iff, and_assoc]

theorem entry_admitted_iff (e : Entry) : e.admitted = true ↔ EntryOk e := by
  cases e with
  | hwI2cEe g =>
    have hfold : (bitlength (g.size - 1) : Int) - g.addrLen ≤ 3 ↔ bitlength (g.size - 1) ≤ g.addrLen + 3 := by omega
    simp only [Entry.admitted, Geometry.admittedI2c, EntryOk, Bool.and_eq_true, Bool.or_eq_true, beq_iff_eq,
      decide_eq_true_eq, geometry_admitted_iff, and_assoc, hfold]
  | hwSpiNarrow g =>
    simp only [Entry.admitted, Geometry.admittedNarrow, EntryOk, Bool.and_eq_true, decide_eq_true_eq,
      geometry_admitted_iff, and_assoc]
  | sfdp => simp [Entry.admitted, EntryOk]
  | sentinel => simp [Entry.admitted, EntryOk]
  | stub0 => simp [Entry.admitted, EntryOk]
  | stub1 => simp [Entry.admitted, EntryOk]

theorem registryAdmitted_iff (r : List Entry) :
    registryAdmitted r = true ↔
      (∀ e ∈ r, EntryOk e) ∧ r.count .sentinel = 2 ∧ r.count .stub0 = 1 ∧ r.count .stub1 = 1 := by
  simp only [registryAdmitted, Bool.and_eq_true, List.all_eq_true, beq_iff_eq, entry_admitted_iff, and_assoc]

theorem opwAdmitted_iff (w : Nat) : opwAdmitted w = true ↔ WidthOk w := by
  simp [opwAdmitted, WidthOk]

theorem narrow_admitted_iff (o : NarrowOpcodes) :
    o.admitted = true ↔ ∀ k ∈ [o.read, o.write, o.erase, o.ewen, o.ewds, o.eral], WidthOk k.opw := by
  simp only [NarrowOpcodes.admitted, Bool.and_eq_true, opwAdmitted_iff, List.forall_mem_cons, and_assoc]
  simp

theorem nor_admitted_iff (o : NorOpcodes) :
    o.admitted = true ↔ ∀ k ∈ [o.wren, o.wrdi, o.rdsr, o.wrsr, o.read, o.pp, o.rdid], WidthOk k.opw := by
  simp only [NorOpcodes.admitted, Bool.and_eq_true, opwAdmitted_iff, List.forall_mem_cons, and_assoc]
  simp

/-- Settles O3: the registry, the narrow and the NOR constants each by their own equivalence. -/
theorem admissionConditions : Obligations.AdmissionConditions := by
  refine ⟨fun p => ?_, fun s h => ?_⟩
  · simp only [Params.admitted, Bool.and_eq_true, registryAdmitted_iff, narrow_admitted_iff, nor_admitted_iff,
      and_assoc]
  · simp [step, h]

/-! ### ERASE whose answers all succeed (R224) -/

theorem eraseFamily_of_ready {s : State} (hd : s.port.din = []) (hr : s.handle.hstate = .ready) :
    s.eraseFamily = hardwareFamily s.handle.family := by
  simp [State.eraseFamily, State.dinIs, hd, hr]

/-- ERASE past its entry checks, with no discovery to run. -/
theorem execErase_eq {s : State} {hw : HwFamily} (value : Byte) (hd : s.port.din = []) (hr : s.handle.hstate = .ready)
    (hf : hardwareFamily s.handle.family = some hw) (hs : ∃ k, s.handle.size.toNat = 2 ^ k)
    (hp : hw = .spiNorSfdp → s.sfdp.state = .parsed) :
    execErase value s = .next ((s.setProgress 0#32).nextJob (s.eraseJobs hw value) .erase).advance := by
  have hsize : s.sizeOk = true := (pow2_iff _).mpr hs
  have hfam := (eraseFamily_of_ready hd hr).trans hf
  unfold execErase
  rw [hfam]
  dsimp only
  rw [if_neg (fun h => h.2 (hp h.1)), startErase_issueJob, State.startErase, hsize]
  rfl

/-- An ERASE with these jobs sends all their requests and counts them in PROGRESS, if the answers succeed (R231). -/
theorem erase_success {s : State} {value : Byte} {jobs : List Job} {a : Answers}
    (he : execErase value s = .next ((s.setProgress 0#32).nextJob jobs .erase).advance)
    (h : s.answers.success (jobs.flatMap Job.requests) = some a) :
    ∃ t, Completes (.erase value) s t ∧ Finished s t 0 s.port.dout ∧
      t.handle = { s.handle with progress := BitVec.ofNat 32 (countOf jobs) } ∧ t.sfdp = s.sfdp ∧
      t.requests = s.requests ++ jobs.flatMap Job.requests ∧ t.answers = a := by
  obtain ⟨u, hl, hran, hpro⟩ := jobs_success jobs [] .erase (s.setProgress 0#32) a h
  rw [List.append_nil] at hl
  have q : QuietErase s u := (setProgress_quietErase 0#32 s).trans hran.quiet
  have hpro : u.handle.progress = BitVec.ofNat 32 (countOf jobs) := by simpa using hpro
  refine ⟨u.finish ErrorName.ok.code, completes_of_leads he hl rfl, ⟨?_, rfl, rfl, q.cfg, q.hostIn⟩, ?_, q.sfdp,
    hran.requests, hran.answers⟩
  · rw [State.finish_port, q.port]; rfl
  · rw [State.finish_handle, q.handle, hpro]

/-- Settles O31: the erase-all is the one job of the erase, so its requests are those of one MODIFY. -/
theorem narrowEraseAllIsOneFrame : Obligations.NarrowEraseAllIsOneFrame := by
  intro s a hready hd reqs h
  obtain ⟨hr, hf, hs⟩ := hready
  have hjobs := eraseAll_jobsOf s
  have hreq : (s.eraseNarrow 0xFF#8).flatMap Job.requests = reqs := by
    rw [hjobs.requests]
    exact List.append_nil _
  have he := execErase_eq 0xFF#8 hd hr (hw := .spiNarrow) (by rw [hf]; rfl) hs (by simp)
  have hall := erase_success he (a := a) (by rw [State.eraseJobs, hreq]; exact h)
  rw [State.eraseJobs, hreq, hjobs.count] at hall
  exact hall

end Sys2Proof.Machine
end

section
/-! PROOFS, the handle registers (10_state.md R32): what INIT writes (44_handle.md R280, R281), which command writes which
register, and that a machine with the invariants has a next state (R39). -/

namespace Sys2Proof.Machine

open Sys2Proof.Claims

/-! ### Reset, and no stop -/

/-- Settles O57: reset is what a power cycle leaves, and nothing has been issued yet. -/
theorem invariantsHoldAtReset : Obligations.InvariantsHoldAtReset := by
  intro p
  refine ⟨powerOn_inv (State.resetWith p), ⟨?_, ?_⟩, rfl⟩
  · intro e he
    cases he
  · intro r hr
    cases hr

/-- A command handed over in a settled state has a next state, whether its word decodes or not. -/
theorem runOffer_answers (o : Offer) {s : State} (h : (s.accept o).Settled) (ha : s.cfg.admitted = true) :
    ∃ t, runOffer o s = .next t := by
  unfold runOffer
  cases decode o.cmdw with
  | ok i => exact exec_answers i h ha
  | error e => exact ⟨_, rfl⟩

/-- Settles O60: by cases on the host's next event; a command is offered while BUSY = 0 and meets a settled state. -/
theorem noStepFaults : Obligations.NoStepFaults := by
  intro s ha h hbusy
  rw [step, if_pos ha]
  cases hs : s.hostIn with
  | nil => exact ⟨_, rfl⟩
  | cons e rest =>
    cases e with
    | powerOn => exact ⟨_, rfl⟩
    | pass => exact ⟨_, rfl⟩
    | await => exact ⟨_, rfl⟩
    | command o =>
      have hb : s.port.busy = false := by
        rw [← Bool.not_eq_true]
        exact fun hb => hbusy hb o rest hs
      obtain ⟨hsound, -⟩ := h.takeEvent_inv.accept_sound hb o
      obtain ⟨t, ht⟩ := runOffer_answers o hsound.settled ha
      exact ⟨t, (if_neg (by simp [hb])).trans ht⟩

/-! ### Who writes the handle (R32, R34, R41) -/

/-- No register that only INIT and DEINIT write changed from `s` to `t`. -/
structure SameIdentity (s t : State) : Prop where
  family : t.handle.family = s.handle.family
  iface : t.handle.iface = s.handle.iface
  variant : t.handle.variant = s.handle.variant
  select : t.handle.select = s.handle.select
  wp : t.handle.wp = s.handle.wp

theorem SameIdentity.of_handle {s t : State} (h : t.handle = s.handle) : SameIdentity s t := by
  constructor <;> rw [h]

theorem SameIdentity.trans {s t u : State} (h : SameIdentity s t) (k : SameIdentity t u) : SameIdentity s u :=
  ⟨k.family.trans h.family, k.iface.trans h.iface, k.variant.trans h.variant, k.select.trans h.select,
    k.wp.trans h.wp⟩

theorem SameIdentity.of_progress {s t : State} (h : t.handle = { s.handle with progress := t.handle.progress }) :
    SameIdentity s t := by
  constructor <;> rw [h]

/-- However a discovery ends, it leaves those registers and PROGRESS (R262, R263). -/
theorem DiscoveryEnds.sameIdentity {s v : State} {o : Option Word32} {rest : List Request}
    (d : DiscoveryEnds s v o rest) : SameIdentity s v ∧ v.handle.progress = s.handle.progress := by
  rcases d.result with ⟨c, -, -, hf⟩ | ⟨-, h, tab, hd, tb, hp, -⟩
  · exact ⟨by constructor <;> rw [hf.handle], by rw [hf.handle]⟩
  · exact ⟨by constructor <;> rw [hp.handle], by rw [hp.handle]⟩

theorem Underway.registers {s t : State} (h : Underway s t) :
    t.handle = { s.handle with progress := t.handle.progress } ∧ t.sfdp = s.sfdp := by
  rcases h with ⟨j, rest, g, -, q⟩ | ⟨w, v, rfl, q⟩
  · exact ⟨q.handle, q.sfdp⟩
  · exact ⟨q.handle, q.sfdp⟩

theorem UnderwayWrite.registers {s t : State} (h : UnderwayWrite s t) : t.handle = s.handle ∧ t.sfdp = s.sfdp := by
  rcases h with ⟨j, rest, p, n, -, -, q⟩ | ⟨w, v, rfl, q⟩
  · exact ⟨q.handle, q.sfdp⟩
  · exact ⟨q.handle, q.sfdp⟩

theorem Underway.leads {s t u : State} (h : Underway s t) (k : Leads t u) : Underway s u :=
  k.keeps (P := Underway s) (fun _ => advance_underway) h

theorem UnderwayWrite.leads {s t u : State} (h : UnderwayWrite s t) (k : Leads t u) : UnderwayWrite s u :=
  k.keeps (P := UnderwayWrite s) (fun _ => advance_underwayWrite) h

/-- What a discovery and the command it runs in can do to the handle: only an ERASE goes on to write PROGRESS, and only
INIT resets the handle (R228, R240, R281). -/
inductive DiscoveryWrites (who : Discoverer) (s t : State) : Prop where
  | kept : SameIdentity s t → ((∀ value, who ≠ .erase value) → t.handle.progress = s.handle.progress) →
      DiscoveryWrites who s t
  | reset : who = .init → t.handle = .reset → DiscoveryWrites who s t

theorem endDiscovery_writes {who : Discoverer} {o : Option Word32} {v t : State} (h : Leads (v.endDiscovery who o) t) :
    DiscoveryWrites who v t := by
  cases who with
  | discover => cases o <;> (rw [h.idle rfl]; exact .kept (.of_handle rfl) fun _ => rfl)
  | init =>
    cases o with
    | none => rw [h.idle rfl]; exact .kept ⟨rfl, rfl, rfl, rfl, rfl⟩ fun _ => rfl
    | some c => rw [h.idle rfl]; exact .reset rfl rfl
  | erase value =>
    have hu : Underway v t := by
      cases o with
      | none => exact (startErase_underway .spiNorSfdp value (QuietErase.refl v)).leads h
      | some c => rw [h.idle rfl]; exact .inr ⟨v, c, rfl, QuietErase.refl v⟩
    exact .kept (.of_progress hu.registers.1) fun hne => absurd rfl (hne value)

theorem readHeader_writes {who : Discoverer} {s t : State} (h : Leads (readHeader who s) t) :
    DiscoveryWrites who s t := by
  obtain ⟨o, v, rest, d⟩ := discovery_ends s
  obtain ⟨hid, hpro⟩ := d.sameIdentity
  rcases d.passes who t h with h | hb
  · cases endDiscovery_writes h with
    | kept k kpro => exact .kept (hid.trans k) fun hne => (kpro hne).trans hpro
    | reset hwho k => exact .reset hwho k
  · exact .kept (.of_handle hb.handle) fun _ => by rw [hb.handle]

/-- What instruction `i` can have done to the handle and SFDP registers of `s` in a state `t` it comes to. -/
inductive HandleWrites (i : Instr) (s t : State) : Prop where
  /-- nothing -/
  | nothing : t.handle = s.handle → t.sfdp = s.sfdp → HandleWrites i s t
  /-- ERASE_PAGE and ERASE write PROGRESS (R220, R224) -/
  | erase : ((∃ page value, i = .erasePage page value) ∨ ∃ value, i = .erase value) →
      t.handle = { s.handle with progress := t.handle.progress } → t.sfdp = s.sfdp → HandleWrites i s t
  /-- DISCOVER, and the discovery of an ERASE, write the geometry and the SFDP registers (R228, R240) -/
  | discover : (i = .discover ∧ t.handle.progress = s.handle.progress ∨ ∃ value, i = .erase value) →
      SameIdentity s t → HandleWrites i s t
  /-- INIT and DEINIT write every register, and clear WP (R280, R284) -/
  | lifecycle : ((∃ v sel, i = .init v sel) ∨ ∃ r, i = .deinit r) → t.handle.wp = false → HandleWrites i s t

theorem FirstStep.handleWrites {i : Instr} {s u t : State} (f : FirstStep i s u) (hp : s.pending = none)
    (h : Leads u t) : HandleWrites i s t := by
  cases f with
  | report w d v q _ => rw [h.idle rfl]; exact .nothing q.handle q.sfdp
  | bind v sel e hi _ _ _ _ => rw [h.idle rfl]; exact .lifecycle (.inl ⟨v, sel, hi⟩) rfl
  | bindSfdp v sel hi _ _ =>
    refine .lifecycle (.inl ⟨v, sel, hi⟩) ?_
    cases readHeader_writes h with
    | kept k _ => exact k.wp
    | reset _ k => rw [k]; rfl
  | release b w v hi _ => rw [h.idle rfl]; exact .lifecycle (.inr ⟨b, hi⟩) rfl
  | discover who hwho _ _ =>
    cases readHeader_writes h with
    | kept k kpro =>
      refine .discover ?_ k
      rcases hwho with ⟨hi, rfl⟩ | ⟨value, hi, -⟩
      · exact .inl ⟨hi, kpro (by simp)⟩
      · exact .inr ⟨value, hi⟩
    | reset hinit _ => simp [hinit] at hwho
  | write jobs p n _ _ hj _ =>
    have hu := (nextJob_underwayWrite jobs p n hj (Quiet.refl s)).leads h.step
    exact .nothing hu.registers.1 hu.registers.2
  | erase jobs g hi _ _ _ =>
    have hu := (nextJob_underway jobs g (setProgress_quietErase 0#32 s)).leads h.step
    exact .erase hi hu.registers.1 hu.registers.2
  | frame r _ =>
    rw [h.idle (by rw [transport_pending, hp])]
    have q := transport_quiet r s
    exact .nothing q.handle q.sfdp

theorem reaches_handleWrites {i : Instr} {s t : State} (hp : s.pending = none) (h : Reaches i s t) :
    HandleWrites i s t := by
  obtain ⟨u, hu, hl⟩ := reaches_iff.mp h
  exact (exec_cases hu).handleWrites hp hl

/-- Settles O56: by cases on which registers the command can have written. -/
theorem whoWritesTheHandle : Obligations.WhoWritesTheHandle := by
  intro s t i hp h
  cases reaches_handleWrites hp h with
  | nothing hh hs => simp [hh, hs]
  | erase hi hh hs =>
    refine ⟨fun _ _ => ?_, fun hwp => by rw [hh]; exact hwp⟩
    refine ⟨by rw [hh], by rw [hh], by rw [hh], by rw [hh], fun _ _ => ?_, fun he hpage => ?_⟩
    · exact ⟨by rw [hh], by rw [hh], by rw [hh], by rw [hh], hs⟩
    · rcases hi with ⟨page, value, hi⟩ | ⟨value, hi⟩
      · exact absurd hi (hpage page value)
      · exact absurd hi (he value)
  | discover hi hid =>
    refine ⟨fun _ _ => ⟨hid.family, hid.iface, hid.variant, hid.select, fun hd he => ?_, fun he _ => ?_⟩,
      fun hwp => hid.wp.trans hwp⟩
    · rcases hi with ⟨hi, -⟩ | ⟨value, hi⟩
      · exact absurd hi hd
      · exact absurd hi (he value)
    · rcases hi with ⟨-, hpro⟩ | ⟨value, hi⟩
      · exact hpro
      · exact absurd hi (he value)
  | lifecycle hi hwp =>
    refine ⟨fun hinit hdeinit => ?_, fun _ => hwp⟩
    rcases hi with ⟨v, sel, hi⟩ | ⟨r, hi⟩
    · exact absurd hi (hinit v sel)
    · exact absurd hi (hdeinit r)

/-! ### INIT (R280, R281) -/

theorem resolve_of_entry {p : Params} {v : Word32} {e : Entry} (h : p.registry[v.toNat]? = some e)
    (hs : e ≠ .sentinel) : p.resolve v = .ok e := by
  unfold Params.resolve
  rw [h]
  cases e with
  | sentinel => exact absurd rfl hs
  | _ => rfl

theorem resolve_of_sentinel {p : Params} {v : Word32} (h : p.registry[v.toNat]? = some .sentinel) :
    p.resolve v = .error .invalidArgument := by
  unfold Params.resolve
  rw [h]

/-- INIT past its entry checks, by the family of the entry (R280). -/
theorem execInit_of_entry {s : State} {v : Word32} (sel : Byte) {e : Entry} (hd : s.port.din = [])
    (hu : s.handle.hstate = .uninit) (he : s.cfg.registry[v.toNat]? = some e) (hs : e ≠ .sentinel) :
    execInit v sel s =
      if (s.bind v sel e).handle.family = .spiNorSfdp then .next (readHeader .init (s.bind v sel e))
      else .next (((s.bind v sel e).setHstate .ready).finish ErrorName.ok.code) := by
  simp [execInit, State.dinIs, hd, hu, resolve_of_entry he hs]

theorem execInit_of_sentinel {s : State} {v : Word32} (sel : Byte) (hd : s.port.din = [])
    (hu : s.handle.hstate = .uninit) (he : s.cfg.registry[v.toNat]? = some .sentinel) :
    execInit v sel s = .next (s.raise .invalidArgument) := by
  simp [execInit, State.dinIs, hd, hu, resolve_of_sentinel he]

theorem execDiscover_eq {s : State} (hd : s.port.din = []) (hu : s.handle.hstate ≠ .uninit)
    (hf : s.handle.family = .spiNorSfdp) : execDiscover s = .next (readHeader .discover s) := by
  simp [execDiscover, State.dinIs, hd, hu, hf]

/-- The registers of an entry hold its sizes where 32 bits do, and a legal PAGE_SIZE where they do not (R32, log 22). -/
theorem geometryRegisters_hold (g : Geometry) :
    (g.size < 2 ^ 32 → g.sizeRegister = BitVec.ofNat 32 g.size) ∧
      (g.pageSize < 2 ^ 32 → g.pageSizeRegister = BitVec.ofNat 32 g.pageSize) ∧
      (2 ^ 32 ≤ g.pageSize → LegalPageSize g.pageSizeRegister) := by
  refine ⟨fun h => if_pos h, fun h => if_pos h, fun h => ?_⟩
  rw [Geometry.pageSizeRegister, if_neg (by omega)]
  exact legalPageSize_two_pow _

/-- INIT of an entry without discovery finishes with STATUS 0, and writes the handle only. -/
theorem bind_finished (s : State) (v : Word32) (sel : Byte) (e : Entry) :
    Finished s (((s.bind v sel e).setHstate .ready).finish ErrorName.ok.code) 0 s.port.dout := ⟨rfl, rfl, rfl, rfl, rfl⟩

theorem setHstate_self {s : State} {h : HState} (e : s.handle.hstate = h) : s.setHstate h = s := by
  subst e
  rfl

/-- How the discovery of INIT ends beside that of DISCOVER from the same state: DISCOVER's state, or with DISCOVER's
code the reset registers (R240, R281). -/
theorem DiscoveryEnds.init_of_discover {s u : State} {o : Option Word32} {rest : List Request}
    (d : DiscoveryEnds s u o rest) :
    u.endDiscovery .init o =
      if (u.endDiscovery .discover o).port.status = 0 then u.endDiscovery .discover o
      else (u.endDiscovery .discover o).resetHandle := by
  rcases d.result with ⟨c, rfl, hneg, -⟩ | ⟨rfl, h, tab, hd, tb, hp, -⟩
  · have hc : c ≠ 0 := by rintro rfl; simp at hneg
    exact (if_neg hc).symm
  · have hr : u.handle.hstate = .ready := by rw [hp.handle]
    have hkept := congrArg (State.finish ErrorName.ok.code) (setHstate_self hr)
    exact hkept.trans (if_pos rfl).symm

/-- The first request of a discovery, written out (R171, R241). -/
theorem headerRequest_eq (s : State) :
    s.wireCtx.fRdsfdp 0 15 = spiRequest s s.cfg.nor.rdsfdpOpc 8 0 24 8 [] 15 := fRdsfdp_eq_spiRequest s 0#24 15

/-- INIT of the SFDP entry, from the handle it has just bound (R280, R281): its discovery is DISCOVER's. -/
theorem init_sfdp_of_discover {s : State} {v : Word32} {sel : Byte} (hd : s.port.din = [])
    (hu : s.handle.hstate = .uninit) (he : s.cfg.registry[v.toNat]? = some .sfdp) :
    ∃ d t, Completes .discover (s.bind v sel .sfdp) d ∧ Completes (.init v sel) s t ∧
      Finished s t d.port.status s.port.dout ∧ t = (if d.port.status = 0 then d else d.resetHandle) ∧
      (d.port.status = 0 ∧ t.sfdp.state = .parsed ∧
          t.handle =
            { (s.bind v sel .sfdp).handle with
              hstate := .ready, size := t.sfdp.arraySize, addrLen := 8#8 * t.sfdp.addrBytes
              pageSize := t.sfdp.writeGran.setWidth 32, writeDelayMs := s.cfg.norPageDelayMs } ∨
        d.port.status.toInt < 0 ∧ t.handle = .reset ∧ t.sfdp = .reset) ∧
      ∃ r, r.length ≤ 1 ∧ t.requests = s.requests ++ spiRequest s s.cfg.nor.rdsfdpOpc 8 0 24 8 [] 15 :: r := by
  obtain ⟨o, u, rest, d⟩ := discovery_ends (s.bind v sel .sfdp)
  have hdisc : exec .discover (s.bind v sel .sfdp) = .next (readHeader .discover (s.bind v sel .sfdp)) :=
    execDiscover_eq hd (by simp [State.bind]) rfl
  have hinit : exec (.init v sel) s = .next (readHeader .init (s.bind v sel .sfdp)) :=
    execInit_of_entry sel hd hu he (by simp)
  have hreq : u.requests = s.requests ++ spiRequest s s.cfg.nor.rdsfdpOpc 8 0 24 8 [] 15 :: rest := by
    rw [d.reads.requests, headerRequest_eq]
    rfl
  have hfin (c : Word32) : Finished s (u.finish c) c s.port.dout :=
    ⟨by rw [State.finish_port, d.reads.port]; rfl, rfl, rfl, d.reads.cfg, d.reads.hostIn⟩
  have hsame := d.init_of_discover
  rcases d.result with ⟨c, rfl, hneg, -⟩ | ⟨rfl, h, tab, hdr, tb, hp, -⟩
  · exact ⟨u.finish c, u.resetHandle.finish c, ⟨reaches_iff.mpr ⟨_, hdisc, d.leads .discover⟩, rfl⟩,
      ⟨reaches_iff.mpr ⟨_, hinit, d.leads .init⟩, rfl⟩, hfin c, hsame, .inr ⟨hneg, rfl, rfl⟩, rest, d.atMostOne, hreq⟩
  · refine ⟨u.finish ErrorName.ok.code, (u.setHstate .ready).finish ErrorName.ok.code,
      ⟨reaches_iff.mpr ⟨_, hdisc, d.leads .discover⟩, rfl⟩, ⟨reaches_iff.mpr ⟨_, hinit, d.leads .init⟩, rfl⟩,
      hfin _, hsame, .inl ⟨rfl, ?_, ?_⟩, rest, d.atMostOne, hreq⟩
    · simp [hp.sfdp]
    · simp [hp.handle, hp.sfdp, State.bind]

/-- Settles O44: an entry without discovery by `execInit_of_entry`, the SFDP entry by `init_sfdp_of_discover`. -/
theorem initBindsTheEntry : Obligations.InitBindsTheEntry := by
  intro s v sel e hd hu he
  cases e with
  | hwI2cEe g =>
    obtain ⟨hsize, hpage, hlegal⟩ := geometryRegisters_hold g
    exact ⟨_, _, hsize, hpage, hlegal, _, execInit_of_entry sel hd hu he (by simp), bind_finished s v sel _, rfl, rfl,
      rfl⟩
  | hwSpiNarrow g =>
    obtain ⟨hsize, hpage, hlegal⟩ := geometryRegisters_hold g
    exact ⟨_, _, hsize, hpage, hlegal, _, execInit_of_entry sel hd hu he (by simp), bind_finished s v sel _, rfl, rfl,
      rfl⟩
  | stub0 => exact ⟨_, execInit_of_entry sel hd hu he (by simp), bind_finished s v sel _, rfl, rfl, rfl⟩
  | stub1 => exact ⟨_, execInit_of_entry sel hd hu he (by simp), bind_finished s v sel _, rfl, rfl, rfl⟩
  | sentinel => exact execInit_of_sentinel sel hd hu he
  | sfdp => exact init_sfdp_of_discover hd hu he

end Sys2Proof.Machine
end

section
/-! PROOFS, the requests on the wire (30_encoding.md R110, R111, 60_exceptions.md R314, R318). `WireInContract`
speaks of the requests issued and `DueInContract` of those still due; each way a step can end has one lemma that it
keeps both. -/

namespace Sys2Proof.Machine

/-! ### What is on the wire -/

/-- Every request issued so far is within the contract, and was issued while BUSY = 1. -/
def State.WireInContract (s : State) : Prop := ∀ e ∈ s.wire, requestInContract s.cfg e.req ∧ e.busy = true

/-- Every request still due is within the contract. -/
def State.DueInContract (s : State) : Prop := ∀ r ∈ s.stillDue, requestInContract s.cfg r

theorem wireOk_iff (s : State) : s.WireOk ↔ s.WireInContract ∧ s.DueInContract := Iff.rfl

/-- The frame builders' conditions hold wherever ADDR_LEN is legal (R10 to R12, R32). -/
theorem codecOk_of_addrLen {s : State} (ha : s.cfg.admitted = true) (hl : s.handle.addrLen.toNat ≤ 32) :
    CodecOk s.wireCtx := by
  simp only [Params.admitted, Bool.and_eq_true] at ha
  obtain ⟨⟨-, hnarrow⟩, hnor⟩ := ha
  exact ⟨hnarrow, hnor, hl⟩

theorem State.WireInContract.of_wire {s t : State} (h : s.WireInContract) (hc : t.cfg = s.cfg) (hw : t.wire = s.wire) :
    t.WireInContract := by
  rw [State.WireInContract, hc, hw]
  exact h

/-- One more request within the contract, issued in a state `u` with BUSY = 1. -/
theorem State.WireInContract.of_transport {s t u : State} {r : Request} (h : s.WireInContract) (hc : t.cfg = s.cfg)
    (hu : u.wire = s.wire) (hb : u.port.busy = true) (hr : requestInContract s.cfg r)
    (hw : t.wire = (transport r u).2.wire) : t.WireInContract := by
  obtain ⟨a, ha⟩ := transport_wire r u
  rw [State.WireInContract, hc, hw, ha, hu]
  intro e he
  rcases List.mem_append.mp he with he | he
  · exact h e he
  · rw [List.mem_singleton.mp he]
    exact ⟨hr, hb⟩

/-! ### What is due -/

theorem dueInContract_of_idle {s : State} (h : s.pending = none) : s.DueInContract := by
  simp [State.DueInContract, State.stillDue, h]

/-- After a job's request, what is due was due before it (R174). -/
theorem stepJob_stillDue {j : Job} {rest : List Job} {g : Goal} {s : State} {p : Params}
    (h : JobsInContract p (j :: rest)) : ∀ r ∈ (stepJob j rest g s).stillDue, requestInContract p r := by
  rcases stepJob_cases j rest g s with ⟨e, he⟩ | ⟨q, more, hm, he⟩ | ⟨-, he⟩ <;> rw [he]
  · obtain ⟨u, v, hu, -⟩ := failJob_ends g j e (transport j.due s).2
    simp [hu, State.stillDue]
  · intro r hr
    obtain ⟨k, hk, hr⟩ := List.mem_flatMap.mp
      (show r ∈ ({ j with due := q, more := more } :: rest).flatMap Job.requests from hr)
    rcases List.mem_cons.mp hk with rfl | hk
    · exact h j (List.mem_cons_self ..) r (List.mem_cons_of_mem _ (hm ▸ hr))
    · exact h k (List.mem_cons_of_mem _ hk) r hr
  · exact nextJob_stillDue fun k hk => h k (List.mem_cons_of_mem _ hk)

theorem stepJob_cfg (j : Job) (rest : List Job) (g : Goal) (s : State) : (stepJob j rest g s).cfg = s.cfg := by
  have hc : (transport j.due s).2.cfg = s.cfg := (transport_quiet j.due s).cfg
  rcases stepJob_cases j rest g s with ⟨e, he⟩ | ⟨q, more, -, he⟩ | ⟨-, he⟩ <;> rw [he]
  · obtain ⟨u, v, hu, q, -⟩ := failJob_ends g j e (transport j.due s).2
    rw [hu, State.finish_cfg, q.cfg, hc]
  · exact hc
  · rw [nextJob_cfg, (endJob_quietErase j _).cfg, hc]

/-- A discovery that fails ends its command (R240, R263, R281). -/
theorem endDiscovery_failed_idle (who : Discoverer) (c : Word32) (s : State) :
    (s.endDiscovery who (some c)).pending = none := by
  cases who <;> rfl

/-- After a discovery that succeeds at most the frames of an ERASE are due (R228). -/
theorem endDiscovery_parsed_due {who : Discoverer} {s : State} (h : CodecOk s.wireCtx) :
    (s.endDiscovery who none).DueInContract := by
  cases who with
  | init => exact dueInContract_of_idle rfl
  | discover => exact dueInContract_of_idle rfl
  | erase value =>
    rw [State.endDiscovery]
    rcases startErase_cases .spiNorSfdp value s with ⟨-, he⟩ | ⟨-, he⟩ <;> rw [he]
    · exact dueInContract_of_idle rfl
    · rw [State.DueInContract, nextJob_cfg]
      exact nextJob_stillDue (eraseJobs_inContract .spiNorSfdp value s h)

/-! ### Each way a step can end -/

/-- The table read of a discovery: its length has 16 bits (R247, R249). -/
theorem tableRead_inContract (c : WireCtx) (hd : Header) :
    requestInContract c.cfg (c.fRdsfdp hd.pp.toNat hd.ps.toNat) :=
  fRdsfdp_inContract c _ (Nat.lt_of_lt_of_le hd.ps.isLt (by decide))

/-- The header read of a discovery, after which at most its table read is due (R241). -/
theorem State.WireInContract.readHeader_wireOk {s : State} (h : s.WireInContract) (hb : s.port.busy = true)
    (who : Discoverer) : (readHeader who s).WireOk := by
  have hcfg : (readHeader who s).cfg = s.cfg := by
    rcases readHeader_cases s with ⟨c, u, -, hr, -, he⟩ | ⟨hdr, hd, u, -, -, hr, -, -, he⟩ <;> rw [he]
    · rw [endDiscovery_cfg, hr.cfg]
    · exact hr.cfg
  refine ⟨h.of_transport (u := s.setSfdpState .headerRead) hcfg rfl hb
    (fRdsfdp_inContract s.wireCtx 0 (by decide)) (readHeader_wire who s), ?_⟩
  rcases readHeader_cases s with ⟨c, u, -, -, -, he⟩ | ⟨hdr, hd, u, -, -, -, -, -, he⟩ <;> rw [he]
  · exact dueInContract_of_idle (endDiscovery_failed_idle who c u)
  · intro r hr
    rw [List.mem_singleton.mp (show r ∈ [u.wireCtx.fRdsfdp hd.pp.toNat hd.ps.toNat] from hr)]
    exact tableRead_inContract u.wireCtx hd

/-- An accepted table gives an address width that SPI frames can carry (R256, R262). -/
theorem parseTable_addrLen {p : Params} {t : List Byte} {tb : Table} (h : parseTable p t = .ok tb) :
    (8#8 * tb.ab).toNat ≤ 32 := by
  rcases (parseTable_ok h).1 with hab | hab <;> rw [hab] <;> decide

/-- The table read of a discovery, after which at most the frames of an ERASE are due (R228, R249). -/
theorem State.WireInContract.readTable_wireOk {who : Discoverer} {hd : Header} {s : State} (h : s.WireInContract)
    (ha : s.cfg.admitted = true) (hb : s.port.busy = true) (hps : LegalPtSize hd.ps)
    (hp : s.pending = some (.table who hd)) : (readTable who hd s).WireOk := by
  have hself : s.setPending (.table who hd) = s := setPending_self hp
  have hcfg : (readTable who hd s).cfg = s.cfg := by
    rw [← hself]
    rcases readTable_cases hd s hps.1 with ⟨c, u, -, hr, -, -, -, he⟩ | ⟨tab, tb, u, -, -, hr, -, -, he⟩ <;>
      rw [he, endDiscovery_cfg, hr.cfg] <;> rfl
  refine ⟨h.of_transport (u := s.setSfdpState .tableRead) hcfg rfl hb
    (tableRead_inContract s.wireCtx hd) (readTable_wire who hd s), ?_⟩
  rw [← hself]
  rcases readTable_cases hd s hps.1 with ⟨c, u, -, -, -, -, -, he⟩ | ⟨tab, tb, u, htab, -, hr, hh, -, he⟩ <;>
    rw [he]
  · exact dueInContract_of_idle (endDiscovery_failed_idle who c u)
  · exact endDiscovery_parsed_due (codecOk_of_addrLen (hr.cfg ▸ ha) (by rw [hh]; exact parseTable_addrLen htab))

/-- The next step of a command in progress (R3). -/
theorem State.WireOk.advance {s : State} (h : s.WireOk) (ha : s.cfg.admitted = true) (hi : s.Inv) :
    s.advance.WireOk := by
  obtain ⟨hwire, hdue⟩ := (wireOk_iff s).mp h
  have hb := hi.busy
  have hprog := hi.progress
  cases hp : s.pending with
  | none => rw [advance_idle hp]; exact ⟨hwire, hdue⟩
  | some p =>
    rw [hp] at hb hprog
    rw [State.DueInContract, State.stillDue, hp] at hdue
    cases p with
    | table who hd =>
      obtain ⟨-, hps, -⟩ := hprog
      simpa [State.advance, hp] using hwire.readTable_wireOk ha hb hps hp
    | jobs j rest g =>
      have hjobs : JobsInContract s.cfg (j :: rest) := fun k hk r hr => hdue r (List.mem_flatMap.mpr ⟨k, hk, hr⟩)
      have hreq : requestInContract s.cfg j.due := hjobs j (List.mem_cons_self ..) j.due (List.mem_cons_self ..)
      rw [advance_jobs hp]
      refine ⟨hwire.of_transport (stepJob_cfg j rest g s) rfl hb hreq (stepJob_wire j rest g s), ?_⟩
      rw [stepJob_cfg]
      exact stepJob_stillDue hjobs

/-- Jobs within the contract fall due, and issue their first request (R174). -/
theorem State.WireInContract.nextJob_advance_wireOk {s : State} {jobs : List Job} {g : Goal} (h : s.WireInContract)
    (ha : s.cfg.admitted = true) (hj : JobsInContract s.cfg jobs) (hi : (s.nextJob jobs g).Inv) :
    (s.nextJob jobs g).advance.WireOk := by
  have hc := nextJob_cfg jobs g s
  have hdue : (s.nextJob jobs g).DueInContract := by
    rw [State.DueInContract, hc]
    exact nextJob_stillDue hj
  exact State.WireOk.advance ⟨h.of_wire hc (nextJob_wire jobs g s), hdue⟩ (by rw [hc]; exact ha) hi

/-- A command that ends in this step has nothing due. -/
theorem State.WireInContract.finish_wireOk {s : State} (h : s.WireInContract) (v : Word32) : (s.finish v).WireOk :=
  ⟨h, dueInContract_of_idle rfl⟩

/-- The step that accepts a command (R107). -/
theorem FirstStep.wireOk {i : Instr} {s t : State} (f : FirstStep i s t) (hi : i.isCommand = true) (h : s.Sound)
    (ha : s.cfg.admitted = true) (hb : s.port.busy = true) (hwire : s.WireInContract) : t.WireOk := by
  have hcodec : CodecOk s.wireCtx := codecOk_of_addrLen ha h.registers.handleLegal.addrLen
  cases f with
  | report u d v q hw =>
    have hu : u.WireInContract := by
      rcases hw with hw | ⟨r, hr, hw⟩
      · exact hwire.of_wire q.cfg hw
      · exact hwire.of_transport q.cfg rfl hb (hr fun _ => hcodec) hw
    exact State.WireInContract.finish_wireOk (s := u.setDout d) hu v
  | bind v sel e _ _ _ _ _ => exact ⟨hwire, dueInContract_of_idle rfl⟩
  | bindSfdp v sel _ _ _ => exact State.WireInContract.readHeader_wireOk (s := s.bind v sel .sfdp) hwire hb .init
  | release b u v _ hu =>
    have hu : u.WireInContract := by
      rcases hu with rfl | rfl
      · exact hwire
      · exact hwire.of_transport (r := .tdeinit) (transport_quiet .tdeinit s).cfg rfl hb trivial rfl
    exact State.WireInContract.finish_wireOk (s := u.resetHandle) hu v
  | discover who _ _ _ => exact hwire.readHeader_wireOk hb who
  | write jobs p n hr _ _ hj => exact hwire.nextJob_advance_wireOk ha (hj hcodec) (h.nextJob_inv hr hb jobs _)
  | erase jobs g _ hst _ hj =>
    have hr : s.handle.hstate = .ready := by
      rcases hst with hr | ⟨hbd, hp⟩
      · exact hr
      · have := (h.settled.boundFailed hbd).2; simp [hp] at this
    have hs : (s.setProgress 0#32).Sound := h.quietErase (by simp [hr]) (setProgress_quietErase 0#32 s)
    exact State.WireInContract.nextJob_advance_wireOk (s := s.setProgress 0#32) hwire ha (hj hcodec)
      (hs.nextJob_inv hr hb jobs g)
  | frame r hf => simp [hi] at hf

/-- Settles O59: by cases on what the step did; a command in progress by `State.WireOk.advance`, an accepted one by
`FirstStep.wireOk`, and the other steps issue nothing. -/
theorem everyRequestIsInContract : Obligations.EveryRequestIsInContract := by
  intro s t ha hinv h hstep
  cases step_cases hstep with
  | goOn => exact h.advance ha hinv
  | pass => exact State.WireOk.advance (s := s.takeEvent) h ha hinv.takeEvent_inv
  | awaited _ => exact h
  | powerOn => exact ⟨h.1, dueInContract_of_idle rfl⟩
  | accept o i _ hb hi f => exact f.wireOk (decode_isCommand hi) (hinv.takeEvent_inv.accept_sound hb o).1 ha rfl h.1
  | refuse o hb => exact ⟨h.1, dueInContract_of_idle rfl⟩

end Sys2Proof.Machine
end

section
/-! PROOFS, the two encodings (30_encoding.md): the host command's fields (R100 to R105) and the address in an I2C frame
(40_codec.md R150 to R153). -/

namespace Sys2Proof

/-! ### Host commands (R100 to R103) -/

/-- The fields of a command name it, and leave the reserved bits 0 (R102, R103). -/
theorem command_of_commandFields {i : Instr} {f : CmdFields} (h : commandFields i = some f) :
    f.command = .ok i ∧ f.flagsRsvd = 0#5 ∧ f.rsvd = 0#24 := by
  cases i <;> cases h <;> exact ⟨rfl, rfl, rfl⟩

theorem encode_isSome (i : Instr) : (encode i).isSome = i.isCommand := by
  cases i <;> rfl

theorem decode_pack_of_reserved {f : CmdFields} (hf : f.flagsRsvd = 0#5) (hr : f.rsvd = 0#24) :
    decode f.pack = f.command := by
  rw [decode_pack]
  cases hc : f.command with
  | error e => rfl
  | ok i => exact if_pos ⟨hf, hr⟩

theorem decode_encode {i : Instr} {w : CmdW} (h : encode i = some w) : decode w = .ok i := by
  obtain ⟨f, hf, rfl⟩ := Option.map_eq_some_iff.mp h
  obtain ⟨hcmd, hflags, hrsvd⟩ := command_of_commandFields hf
  rw [decode_pack_of_reserved hflags hrsvd, hcmd]

/-- Settles O8: `decode_encode`, and the bytes of a CMDW decode as it does. -/
theorem decodeOfEncodeIsTheCommand : Obligations.DecodeOfEncodeIsTheCommand := by
  intro i hi _
  obtain ⟨w, hw⟩ := Option.isSome_iff_exists.mp ((encode_isSome i).trans hi)
  have hd := decode_encode hw
  exact ⟨w, hw, hd, cmdBytes_length w, by rw [decodeBytes_cmdBytes, hd]⟩

/-- Settles O7: each word is evaluated. -/
theorem writtenOutWordsDecode : Obligations.WrittenOutWordsDecode := by
  refine ⟨?_, ?_, ?_, ?_, ?_, ?_, ?_, ?_⟩ <;> decide

/-- Settles O9: with the reserved bits 0 a word decodes as its fields do, and the field reader takes no field but those
its code uses. -/
theorem unusedFieldsAreIgnored : Obligations.UnusedFieldsAreIgnored := by
  intro f g hff hfr hgf hgr hcmd h01 h02 h10 h11 h12 h13 h20 h21 h30
  have code {n : Nat} (k : Byte) (hk : k.toNat = n) (h : g.cmd.toNat = n) : f.cmd = k :=
    hcmd.trans (BitVec.eq_of_toNat_eq (h.trans hk.symm))
  rw [decode_pack_of_reserved hff hfr, decode_pack_of_reserved hgf hgr]
  unfold CmdFields.command
  rw [hcmd]
  split
  · next h => obtain ⟨ha, hs⟩ := h01 (code _ rfl h); rw [ha, hs]
  · next h => rw [h02 (code _ rfl h)]
  · rfl
  · rfl
  · rfl
  · next h => obtain ⟨ha, hl⟩ := h10 (code _ rfl h); rw [ha, hl]
  · next h => rw [h11 (code _ rfl h)]
  · next h => obtain ⟨ha, hl, hw, hp⟩ := h12 (code _ rfl h); rw [ha, hl, hw, hp]
  · next h => obtain ⟨ha, hv⟩ := h13 (code _ rfl h); rw [ha, hv]
  · next h => obtain ⟨ha, hv⟩ := h20 (code _ rfl h); rw [ha, hv]
  · next h => rw [h21 (code _ rfl h)]
  · next h => obtain ⟨ha, hl, hr, ho, how, haw, hdw⟩ := h30 (code _ rfl h); rw [ha, hl, hr, ho, how, haw, hdw]
  · rfl

/-- The twelve command codes (R103). -/
def commandCodes : List Nat := [0x01, 0x02, 0x03, 0x04, 0x05, 0x10, 0x11, 0x12, 0x13, 0x20, 0x21, 0x30]

theorem command_code {f : CmdFields} {i : Instr} (h : f.command = .ok i) : f.cmd.toNat ∈ commandCodes := by
  unfold CmdFields.command at h
  split at h
  case h_13 => cases h
  all_goals next hc => rw [hc]; decide

theorem extractLsb'_toNat_div {n : Nat} (w : BitVec n) (start len : Nat) :
    (w.extractLsb' start len).toNat = w.toNat / 2 ^ start % 2 ^ len := by
  rw [BitVec.extractLsb'_toNat, Nat.shiftRight_eq_div_pow]

/-- A word that decodes has a code of R103 and no reserved bit set (checks 1 and 2 of R305). -/
theorem decode_ok {w : CmdW} {i : Instr} (h : decode w = .ok i) :
    w.toNat % 256 ∈ commandCodes ∧ w.toNat / 2 ^ 11 % 2 ^ 5 = 0 ∧ w.toNat / 2 ^ 168 = 0 := by
  unfold decode at h
  dsimp only at h
  split at h
  · cases h
  · next j hj =>
    split at h
    · next hres =>
      obtain ⟨hflags, hrsvd⟩ := hres
      refine ⟨?_, ?_, ?_⟩
      · have := command_code hj
        rwa [CmdFields.unpack, extractLsb'_toNat_div, Nat.pow_zero, Nat.div_one] at this
      · rw [← extractLsb'_toNat_div]
        exact congrArg BitVec.toNat hflags
      · have h0 := congrArg BitVec.toNat hrsvd
        rw [CmdFields.unpack, extractLsb'_toNat_div, Nat.mod_eq_of_lt (by have := w.isLt; omega)] at h0
        exact h0
    · cases h

/-! ### I2C frames (R116, R150 to R153) -/

/-- A select byte with bits 3:1 clear, bit by bit. -/
theorem getLsbD_of_selectClear {b : Byte} (h : b &&& 0x0E = 0) {i : Nat} (hi : i < 3) : b.getLsbD (i + 1) = false := by
  have hb : (b &&& 0x0E).getLsbD (i + 1) = false := by rw [h]; exact BitVec.getLsbD_zero
  rw [BitVec.getLsbD_and] at hb
  interval_cases i <;> simpa using hb

/-- Where SELECT[3:1] = 0, the folded select byte XOR SELECT gives the folded bits back (R150). -/
theorem fold_read_back {b : Byte} (hb : b &&& 0x0E = 0) {n : Nat} (hn : n < 8) :
    ((byteOf (b.toNat ||| ((n <<< 1) &&& 0x0F)) ^^^ b).toNat >>> 1) &&& 7 = n := by
  apply Nat.eq_of_testBit_eq
  intro i
  rw [Nat.testBit_and, Nat.testBit_shiftRight, BitVec.testBit_toNat, BitVec.getLsbD_xor, byteOf, BitVec.getLsbD_ofNat,
    Nat.testBit_or, BitVec.testBit_toNat, Nat.testBit_and, Nat.testBit_shiftLeft]
  by_cases hi : i < 3
  · have hmask : (0x0F).testBit (1 + i) = true ∧ (7).testBit i = true := by interval_cases i <;> decide
    rw [hmask.1, hmask.2, Nat.add_comm 1 i, getLsbD_of_selectClear hb hi]
    have hbyte : i + 1 < 8 := by omega
    simp [hbyte]
  · have above {m : Nat} (hm : m < 8) : m.testBit i = false :=
      Nat.testBit_lt_two_pow (Nat.lt_of_lt_of_le hm (Nat.pow_le_pow_right (n := 2) (i := 3) (by decide) (by omega)))
    rw [above hn, above (m := 7) (by decide), Bool.and_false]

theorem abytes_length (c : WireCtx) (x : Nat) : (c.abytes x).length = c.addrLen.toNat / 8 := beBytes_length _ _

/-- The in-band bytes carry the low ADDR_LEN bits of the address (R151). -/
theorem beNat_abytes {c : WireCtx} (h : c.addrLen = 8 ∨ c.addrLen = 16) (x : Nat) :
    beNat (c.abytes x) = x % 2 ^ c.addrLen.toNat := by
  have hw : 8 * (c.addrLen.toNat / 8) = c.addrLen.toNat := by rcases h with h | h <;> rw [h] <;> rfl
  rw [WireCtx.abytes, beNat_beBytes, hw, Nat.mod_mod]

/-- The select byte and the address bytes together carry the whole address (R150, R151). -/
theorem i2cAddress_sel_abytes {c : WireCtx} {x : Word32} (ha : c.addrLen = 8 ∨ c.addrLen = 16)
    (hs : ∃ k, c.size.toNat = 2 ^ k) (hw : bitlength (c.size.toNat - 1) ≤ c.addrLen.toNat + 3)
    (hsel : c.select &&& 0x0E = 0) (hx : x.toNat < c.size.toNat) :
    i2cAddress c (c.sel x.toNat) (c.abytes x.toNat) = x := by
  have hwidth : x.toNat < 2 ^ c.addrWidth := by
    obtain ⟨k, hk⟩ := hs
    rw [WireCtx.addrWidth, hk, bitlength_two_pow_sub_one, ← hk]
    exact hx
  rw [i2cAddress, beNat_abytes ha]
  split
  · next hfold =>
    have hhigh : x.toNat >>> c.addrLen.toNat < 8 := by
      rw [Nat.shiftRight_eq_div_pow, Nat.div_lt_iff_lt_mul (Nat.two_pow_pos _)]
      calc x.toNat < 2 ^ c.addrWidth := hwidth
        _ ≤ 2 ^ (c.addrLen.toNat + 3) := Nat.pow_le_pow_right (by decide) hw
        _ = 8 * 2 ^ c.addrLen.toNat := by rw [Nat.pow_add, Nat.mul_comm]
    rw [WireCtx.sel, if_pos hfold, fold_read_back hsel hhigh, Nat.shiftRight_eq_div_pow, Nat.mod_add_div',
      BitVec.ofNat_toNat, BitVec.setWidth_eq]
  · next hfold =>
    have hlow : x.toNat < 2 ^ c.addrLen.toNat :=
      Nat.lt_of_lt_of_le hwidth (Nat.pow_le_pow_right (by decide) (Nat.le_of_not_lt hfold))
    rw [Nat.mod_eq_of_lt hlow, BitVec.ofNat_toNat, BitVec.setWidth_eq]

/-- A request with one candidate decodes to it if that frame encodes to the request (R117). -/
theorem decodeFrame_of_single {c : WireCtx} {r : Request} {i : Instr} (hc : frameCandidates c r = [i])
    (hi : i.wellFormed = true) (he : encodeFrame c i = some r) : decodeFrame c r = some i := by
  simp [decodeFrame, hc, hi, he]

theorem frameCandidates_i2cWrite {c : WireCtx} (h : c.family = .i2cEe) (selb : Byte) (w : List Byte) (tmo : Nat) :
    frameCandidates c (.i2cWrite selb w tmo) =
      [.iWrite (i2cAddress c selb (w.take (c.addrLen.toNat / 8))) (w.drop (c.addrLen.toNat / 8))] := by
  unfold frameCandidates
  rw [h]

theorem frameCandidates_i2cWriteRead {c : WireCtx} (h : c.family = .i2cEe) (selb : Byte) (w : List Byte)
    (n tmo : Nat) :
    frameCandidates c (.i2cWriteRead selb w n tmo) = [.iRead (i2cAddress c selb w) (BitVec.ofNat 32 n)] := by
  unfold frameCandidates
  rw [h]

/-- Settles O10: each request has one candidate, whose address is read back by `i2cAddress_sel_abytes`. -/
theorem i2cFramesCarryTheWholeAddress : Obligations.I2cFramesCarryTheWholeAddress := by
  intro c x hf ha hs hw hsel hx
  have haddr := i2cAddress_sel_abytes ha hs hw hsel hx
  have hlen := abytes_length c x.toNat
  refine ⟨fun d hd => ?_, fun n hn => ?_⟩
  · refine decodeFrame_of_single ?_ (by simpa [Instr.wellFormed] using hd) rfl
    rw [WireCtx.iWrite, frameCandidates_i2cWrite hf, List.take_left' hlen, List.drop_left' hlen, haddr]
  · refine decodeFrame_of_single ?_ (by simpa [Instr.wellFormed] using hn) rfl
    rw [WireCtx.iRead, frameCandidates_i2cWriteRead hf, haddr, BitVec.ofNat_toNat, BitVec.setWidth_eq]

end Sys2Proof
end

section
/-! PROOFS, a command handed over at the host port: the step that runs it (30_encoding.md R104, R105, R107), and the
commands that their entry checks exclude (44_handle.md R294, 60_exceptions.md R305). -/

namespace Sys2Proof.Machine

open Sys2Proof.Claims

/-! ### The step that accepts a command -/

/-- A command handed over while BUSY = 0 is run (R107, R321). -/
theorem step_of_command {s : State} {o : Offer} {rest : List HostEvent} (ha : s.cfg.admitted = true)
    (h : s.hostIn = .command o :: rest) (hb : s.port.busy = false) :
    step s = runOffer o { s with hostIn := rest } := by
  have ht : s.takeEvent = { s with hostIn := rest } := by rw [State.takeEvent, h]; rfl
  rw [step, if_pos ha, h]
  dsimp only
  rw [if_neg (by simp [hb]), ht]

theorem runOffer_of_decode {o : Offer} {i : Instr} (h : decode o.cmdw = .ok i) (s : State) :
    runOffer o s = exec i (s.accept o) := by rw [runOffer, h]

theorem runOffer_of_error {o : Offer} {e : DecodeError} (h : decode o.cmdw = .error e) (s : State) :
    runOffer o s = .next ((s.accept o).raise .invalidArgument) := by rw [runOffer, h]; rfl

/-- Settles O4: the step runs the offer, and the offer decodes. -/
theorem stepRunsDecodedCommand : Obligations.StepRunsDecodedCommand := by
  intro s o rest i ha h hb hi
  rw [step_of_command ha h hb, runOffer_of_decode hi]
  rfl

/-- Settles O6: a word with such a code or bit does not decode (`decode_ok`), and the block refuses it. -/
theorem illegalWordsFinishInvalidArgument : Obligations.IllegalWordsFinishInvalidArgument := by
  intro s o rest ha h hb hbad
  cases hd : decode o.cmdw with
  | ok i =>
    obtain ⟨hcode, hflags, hrsvd⟩ := decode_ok hd
    rcases hbad with hc | hc | hc
    · exact absurd hcode hc
    · exact absurd hflags hc
    · exact absurd hrsvd hc
  | error e =>
    rw [step_of_command ha h hb, runOffer_of_error hd]
    rfl

/-! ### Excluded commands (R294, checks 3 to 5 of R305) -/

theorem hardwareFamily_not_stub {f : Family} {hw : HwFamily} (h : hardwareFamily f = some hw) :
    f ≠ .stub0 ∧ f ≠ .stub1 := by
  rw [hardwareFamily_some h]
  cases hw <;> simp

/-- A command that checks 3 to 5 exclude has no family to go on with (R294). -/
theorem readyFamily_eq_none {n : Nat} {s : State}
    (h : ¬ (s.port.din.length = n ∧ s.handle.hstate = .ready ∧ s.handle.family ≠ .stub0 ∧
      s.handle.family ≠ .stub1)) :
    s.readyFamily n = none := by
  rw [Option.eq_none_iff_forall_ne_some]
  intro hw hf
  obtain ⟨hd, hr, hfam⟩ := readyFamily_some hf
  exact h ⟨hd, hr, hardwareFamily_not_stub hfam⟩

theorem addressedFamily_eq_none {n : Nat} {s : State} (h : s.readyFamily n = none) (addr : Word32) :
    s.addressedFamily n addr = none := by
  rw [State.addressedFamily, h]

theorem eraseFamily_eq_none {s : State} {value : Byte} (h : ¬ admitted s (.erase value)) : s.eraseFamily = none := by
  rw [Option.eq_none_iff_forall_ne_some]
  intro hw hf
  obtain ⟨hd, hu, hfam, hb⟩ := eraseFamily_some hf
  refine h ⟨hd, ?_⟩
  cases hs : s.handle.hstate with
  | uninit => exact absurd hs hu
  | ready => exact .inl ⟨rfl, hardwareFamily_not_stub hfam⟩
  | bound =>
    obtain rfl := hb hs
    exact .inr ⟨rfl, hardwareFamily_some hfam⟩

/-- With DOUT empty, as acceptance leaves it, a reading command's error delivery writes STATUS only (R309). -/
theorem raiseReading_eq_raise {s : State} (h : s.port.dout = []) (e : ErrorName) : s.raiseReading e = s.raise e := by
  have hs : s.setDout [] = s := by rw [State.setDout, ← h]
  rw [State.raiseReading, hs]

theorem readOp_refuses {addr len : Word32} {s : State} (hd : s.port.dout = []) (h : s.addressedFamily 0 addr = none) :
    readOp addr len s = s.raise .invalidArgument := by
  rw [readOp, h]
  exact raiseReading_eq_raise hd _

theorem writeOp_refuses {din : Nat} {addr : Word32} {d : List Byte} {wrap partialAcc : Bool} {s : State}
    (h : s.addressedFamily din addr = none) :
    writeOp din addr d wrap partialAcc s = .next (s.raise .invalidArgument) := by
  rw [writeOp, h]

theorem din_of_check {n : Nat} {s : State} (h : ¬ (!s.dinIs n) = true) : s.port.din.length = n := by
  simpa [State.dinIs] using h

theorem din_nil_of_check {s : State} (h : ¬ (!s.dinIs 0) = true) : s.port.din = [] :=
  List.length_eq_zero_iff.mp (din_of_check h)

/-- Settles O51: past its checks a command would be admitted. The addressed commands and the erases make theirs in
`readyFamily` and `eraseFamily`, the others one after another, each refusing on its own (`ite_eq_left_iff`). -/
theorem excludedCommandsWriteOnlyStatus : Obligations.ExcludedCommandsWriteOnlyStatus := by
  intro s i hi hd h
  change exec i s = .next (s.raise .invalidArgument)
  have ready (h : ¬ (s.port.din = [] ∧ s.handle.hstate = .ready ∧ s.handle.family ≠ .stub0 ∧
      s.handle.family ≠ .stub1)) : s.readyFamily 0 = none :=
    readyFamily_eq_none (by rwa [List.length_eq_zero_iff])
  cases i with
  | init v sel =>
    exact ite_eq_left_iff.mpr fun hdin => ite_eq_left_iff.mpr fun hst =>
      absurd ⟨din_nil_of_check hdin, not_not.mp hst⟩ h
  | deinit b =>
    exact ite_eq_left_iff.mpr fun hdin => ite_eq_left_iff.mpr fun hst => absurd ⟨din_nil_of_check hdin, hst⟩ h
  | discover =>
    refine ite_eq_left_iff.mpr fun hdin => ite_eq_left_iff.mpr fun hst => ?_
    obtain ⟨hu, hf⟩ := not_or.mp hst
    exact absurd ⟨din_nil_of_check hdin, hu, not_not.mp hf⟩ h
  | getInfo =>
    exact ite_eq_left_iff.mpr fun hdin => ite_eq_left_iff.mpr fun hst => absurd ⟨din_nil_of_check hdin, hst⟩ h
  | getSfdp =>
    refine ite_eq_left_iff.mpr fun hdin => ite_eq_left_iff.mpr fun hst => ite_eq_left_iff.mpr fun hfam =>
      ite_eq_left_iff.mpr fun hparsed => ?_
    exact absurd ⟨din_nil_of_check hdin, not_not.mp hst, not_not.mp hfam, not_not.mp hparsed⟩ h
  | read addr len => exact congrArg _ (readOp_refuses hd (addressedFamily_eq_none (ready h) addr))
  | readByte addr => exact congrArg _ (readOp_refuses hd (addressedFamily_eq_none (ready h) addr))
  | write addr len wrap p => exact writeOp_refuses (addressedFamily_eq_none (readyFamily_eq_none h) addr)
  | writeByte addr value => exact writeOp_refuses (addressedFamily_eq_none (ready h) addr)
  | erasePage page value =>
    change execErasePage page value s = _
    rw [execErasePage, ready h]
  | erase value =>
    change execErase value s = _
    rw [execErase, eraseFamily_eq_none h]
  | rawXfer addr len rlen opc opw adw dmw =>
    rw [← raiseReading_eq_raise hd]
    exact ite_eq_left_iff.mpr fun hdin => ite_eq_left_iff.mpr fun hst =>
      absurd ⟨din_of_check hdin, not_not.mp hst⟩ h
  | _ => cases hi

end Sys2Proof.Machine
end

section
/-! PROOFS, the codec (40_codec.md): the fold of an I2C address into the select byte (R150, R175), the requests that
the wire frames issue (R152 to R172), and the range checks of the addressed commands and the erases (R146, R147). -/

namespace Sys2Proof

/-! ### The select byte (R150, R175) -/

/-- The select byte of R150, with its shifts written as arithmetic. -/
theorem sel_eq (c : WireCtx) (x : Nat) :
    c.sel x =
      if c.addrLen.toNat < bitlength (c.size.toNat - 1) then
        BitVec.ofNat 8 (c.select.toNat ||| ((x / 2 ^ c.addrLen.toNat * 2) &&& 15))
      else c.select := by
  rw [WireCtx.sel, Nat.shiftRight_eq_div_pow, Nat.shiftLeft_eq, Nat.pow_one]
  rfl

/-- Folding sets bits in SELECT. -/
theorem sel_of_fold {c : WireCtx} (h : c.addrLen.toNat < bitlength (c.size.toNat - 1)) (x : Nat) :
    c.sel x = c.select ||| BitVec.ofNat 8 ((x / 2 ^ c.addrLen.toNat * 2) &&& 15) := by
  rw [sel_eq, if_pos h, BitVec.ofNat_or, BitVec.ofNat_toNat, BitVec.setWidth_eq]

theorem double_and_fifteen (n : Nat) : (n * 2) &&& 15 = n % 8 * 2 := by
  rw [show 15 = 2 ^ 4 - 1 from rfl, Nat.and_two_pow_sub_one_eq_mod]
  omega

/-- The folded bits are bits 3:1. -/
theorem foldedBits_and_mask (n : Nat) :
    BitVec.ofNat 8 ((n * 2) &&& 15) &&& 0x0E = BitVec.ofNat 8 ((n * 2) &&& 15) := by
  have hbits : ∀ k < 8, BitVec.ofNat 8 (k * 2) &&& 0x0E = BitVec.ofNat 8 (k * 2) := by decide
  rw [double_and_fifteen]
  exact hbits _ (Nat.mod_lt n (by decide))

/-- Settles O11: the folded bits lie under the mask of bits 3:1, where SELECT has none. -/
theorem foldedBitsAreTheHighAddressBits : Obligations.FoldedBitsAreTheHighAddressBits := by
  intro c x hfold hsel
  have hmask := foldedBits_and_mask (x / 2 ^ c.addrLen.toNat)
  have hsmall : (x / 2 ^ c.addrLen.toNat * 2) &&& 15 < 2 ^ 8 := Nat.and_lt_two_pow _ (by decide)
  rw [sel_of_fold hfold]
  generalize (x / 2 ^ c.addrLen.toNat * 2) &&& 15 = m at hmask hsmall
  refine ⟨?_, ?_, fun hbit0 => ?_⟩
  · rw [BitVec.and_or_distrib_right, hsel, hmask]
    exact BitVec.zero_or
  · have hclear : BitVec.ofNat 8 m &&& 0xF1 = 0 := by
      rw [← hmask, BitVec.and_assoc]
      exact BitVec.and_zero
    rw [BitVec.and_or_distrib_right, hclear]
    exact BitVec.or_zero
  · have hnibble : (0x0F : Byte) = 0x0E ||| 0x01 := rfl
    have hselect : c.select &&& 0x0F = 0 := by rw [hnibble, BitVec.and_or_distrib_left, hsel, hbit0]; rfl
    have hfolded : BitVec.ofNat 8 m &&& 0x0F = BitVec.ofNat 8 m := by rw [← hmask, BitVec.and_assoc]; rfl
    calc (c.select ||| BitVec.ofNat 8 m).toNat &&& 15
      _ = ((c.select ||| BitVec.ofNat 8 m) &&& 0x0F).toNat := (BitVec.toNat_and _ 0x0F).symm
      _ = (0 ||| BitVec.ofNat 8 m).toNat := by rw [BitVec.and_or_distrib_right, hselect, hfolded]
      _ = (BitVec.ofNat 8 m).toNat := congrArg BitVec.toNat BitVec.zero_or
      _ = m := by rw [BitVec.toNat_ofNat, Nat.mod_eq_of_lt hsmall]

/-! ### Address fields (R151, R156) -/

/-- The one address byte of an 8-bit native field (R72, R151). -/
theorem abytes_eight {c : WireCtx} (h : c.addrLen.toNat = 8) (x : Nat) : c.abytes x = [BitVec.ofNat 8 x] := by
  have hlow : byteOf (x % 2 ^ 8 / 2 ^ (8 * 0)) = BitVec.ofNat 8 x :=
    BitVec.eq_of_toNat_eq (by simp [byteOf])
  rw [WireCtx.abytes, h, ← hlow]
  rfl

/-- The two address bytes of a 16-bit native field, most significant first (R72, R151). -/
theorem abytes_sixteen {c : WireCtx} (h : c.addrLen.toNat = 16) (x : Nat) :
    c.abytes x = [BitVec.ofNat 8 (x / 256), BitVec.ofNat 8 x] := by
  have hhigh : byteOf (x % 2 ^ 16 / 2 ^ (8 * 1)) = BitVec.ofNat 8 (x / 256) :=
    BitVec.eq_of_toNat_eq (by simp only [byteOf, BitVec.toNat_ofNat]; omega)
  have hlow : byteOf (x % 2 ^ 16 / 2 ^ (8 * 0)) = BitVec.ofNat 8 x :=
    BitVec.eq_of_toNat_eq (by simp only [byteOf, BitVec.toNat_ofNat]; omega)
  rw [WireCtx.abytes, h, ← hhigh, ← hlow]
  rfl

/-- The code of a narrow sub-operation is the field's top two bits; a constant without one places 0 (R156, log 8). -/
theorem subAddress_eq (c : WireCtx) (k : NarrowConst) :
    c.subAddress k = (k.sub.getD 0).toNat * 2 ^ (c.addrLen.toNat - 2) := by
  unfold WireCtx.subAddress
  cases k.sub with
  | none => exact (Nat.zero_mul _).symm
  | some code => exact Nat.shiftLeft_eq _ _

end Sys2Proof

namespace Sys2Proof.Machine

open Sys2Proof.Claims

/-! ### The requests of the frames (R152 to R172) -/

theorem transport_sameBlock (r : Request) (s : State) : SameBlock s (transport r s).2 :=
  have hq := transport_quiet r s
  ⟨hq.cfg, hq.handle, hq.sfdp, hq.port, transport_work r s, transport_pending r s, hq.hostIn⟩

/-- An instruction whose meaning is one transport step issues that request and changes no register (log 7). -/
theorem issues_of_exec {i : Instr} {s : State} {r : Request} (h : exec i s = issueFrame r s) : Issues i s r :=
  ⟨_, h, transport_sameBlock r s, transport_requests r s⟩

/-- A narrow frame that carries no logical address but a sub-operation's (R156, R160 to R162). -/
theorem narrowFrame_subAddress_eq_spiRequest (s : State) (k : NarrowConst) :
    s.wireCtx.narrowFrame k (s.wireCtx.subAddress k) 0 [] 0 =
      spiRequest s k.opc k.opw (BitVec.ofNat 32 ((k.sub.getD 0).toNat * 2 ^ (al s - 2) % 2 ^ al s)) (al s) 0 [] 0 := by
  rw [subAddress_eq]
  rfl

/-- Settles O12: each frame is one transport step, of the request its builder gives. -/
theorem narrowFramesOnTheWire : Obligations.NarrowFramesOnTheWire := by
  intro s x n v
  have issuesSub {i : Instr} (k : NarrowConst)
      (h : exec i s = issueFrame (s.wireCtx.narrowFrame k (s.wireCtx.subAddress k) 0 [] 0) s) :=
    issues_of_exec (h.trans (congrArg (issueFrame · s) (narrowFrame_subAddress_eq_spiRequest s k)))
  exact ⟨issues_of_exec rfl, issues_of_exec rfl, issues_of_exec rfl, issuesSub _ rfl, issuesSub _ rfl,
    issuesSub _ rfl⟩

/-- Settles O13: each frame is one transport step; the 24-bit address of F_RDSFDP fits its field. -/
theorem norFramesOnTheWire : Obligations.NorFramesOnTheWire := by
  intro s x n v d y
  have rdsfdp : Issues (.fRdsfdp y n) s
      (spiRequest s s.cfg.nor.rdsfdpOpc 8 (BitVec.ofNat 32 y.toNat) 24 8 [] n.toNat) := by
    rw [← fRdsfdp_eq_spiRequest]
    exact issues_of_exec rfl
  exact ⟨issues_of_exec rfl, issues_of_exec rfl, issues_of_exec rfl, issues_of_exec rfl, issues_of_exec rfl,
    issues_of_exec rfl, issues_of_exec rfl, rdsfdp, issues_of_exec rfl⟩

theorem foldedSelect_eq_sel (s : State) (x : Nat) : foldedSelect s x = s.wireCtx.sel x := (sel_eq s.wireCtx x).symm

/-- The in-band address bytes on the two admitted widths (R151, R72). -/
theorem inBandBytes_eq_abytes {s : State} (h : al s = 8 ∨ al s = 16) (x : Nat) :
    inBandBytes s x = s.wireCtx.abytes x := by
  rcases h with h | h
  · rw [abytes_eight (c := s.wireCtx) h, inBandBytes, if_neg (by simp [h])]
  · rw [abytes_sixteen (c := s.wireCtx) h, inBandBytes, if_pos h]

/-- Settles O14: each frame is one transport step, of the select byte and the address bytes written out. -/
theorem i2cFramesOnTheWire : Obligations.I2cFramesOnTheWire := by
  intro s x n d ha
  rw [foldedSelect_eq_sel, inBandBytes_eq_abytes ha]
  exact ⟨issues_of_exec rfl, issues_of_exec rfl⟩

/-! ### SIZE and the address (checks 6 and 7 of R305) -/

theorem sizeOk_eq_false {s : State} (h : ∀ k, s.handle.size.toNat ≠ 2 ^ k) : s.sizeOk = false :=
  (pow2_eq_false_iff _).mpr h

/-- Check 6 or check 7 leaves an addressed command no family to go on with (R146, R147). -/
theorem addressedFamily_eq_none_of_range {n : Nat} {addr : Word32} {s : State}
    (h : (∀ k, s.handle.size.toNat ≠ 2 ^ k) ∨ s.handle.size.toNat ≤ addr.toNat) :
    s.addressedFamily n addr = none := by
  rw [Option.eq_none_iff_forall_ne_some]
  intro hw hf
  obtain ⟨-, ⟨k, hsize⟩, haddr⟩ := addressedFamily_some hf
  rcases h with h | h
  · exact h k hsize
  · exact Nat.not_lt.mpr h haddr

/-- Settles O52: the addressed commands and ERASE_PAGE do not get past the check of SIZE, nor the former past that of
the address. -/
theorem addressedCommandsCheckSizeAndAddress : Obligations.AddressedCommandsCheckSizeAndAddress := by
  intro s addr len page wrap partialAcc value hd
  refine ⟨fun h => ?_, fun h => ?_⟩
  · exact ⟨congrArg _ (readOp_refuses hd (addressedFamily_eq_none_of_range h)),
      congrArg _ (readOp_refuses hd (addressedFamily_eq_none_of_range h)),
      writeOp_refuses (addressedFamily_eq_none_of_range h), writeOp_refuses (addressedFamily_eq_none_of_range h)⟩
  · rcases execErasePage_cases page value s with hrefused | ⟨_, -, hsize, -, -⟩
    · exact hrefused
    · exact absurd hsize (by simp [sizeOk_eq_false h])

/-- Settles O36: of what ERASE can do first, no discovery is to run, and the erase itself begins with check 6. -/
theorem eraseChecksTheSize : Obligations.EraseChecksTheSize := by
  intro s value _ _ hfam hsize
  rcases execErase_cases value s with ⟨-, hrefused⟩ | ⟨hf, hparsed, -⟩ | ⟨hw, -, -, herase⟩
  · exact hrefused
  · obtain ⟨-, -, hnor, -⟩ := eraseFamily_some hf
    have hnor : s.handle.family = .spiNorSfdp := hardwareFamily_some hnor
    simp [hnor, hparsed] at hfam
  · rcases startErase_cases hw value s with ⟨-, hrefused⟩ | ⟨hok, -⟩
    · rw [hrefused] at herase
      exact herase
    · exact absurd hok (by simp [sizeOk_eq_false hsize])

end Sys2Proof.Machine
end

section
/-! PROOFS, the lists behind a write (41_read_write.md): its chunks and where they lie in the pages (R190, R197), and
the sub-writes of a write with wrap (R188, R198). -/

namespace Sys2Proof.Machine

open Sys2Proof.Claims

/-! ### Chunks (R190, R197) -/

@[simp] theorem chunkBytes_cons (k : Nat × List Byte) (plan : List (Nat × List Byte)) :
    chunkBytes (k :: plan) = k.2.length + chunkBytes plan := rfl

/-- A chunk that leaves data over ends its page (R190). -/
theorem chunk_ends_page {p cur rem : Nat} (hp : 0 < p) (h : chunkLength p cur rem < rem) :
    (cur + chunkLength p cur rem) % p = 0 := by
  have hmod := Nat.mod_lt cur hp
  have hk : chunkLength p cur rem = p - cur % p := by
    rw [chunkLength] at h ⊢
    omega
  have hsum : cur + (p - cur % p) = p * (cur / p + 1) := by
    have := Nat.div_add_mod cur p
    rw [Nat.mul_add]
    omega
  rw [hk, hsum, Nat.mul_mod_right]

/-- A chunk lies in one page (R190). -/
theorem chunk_in_page {p cur rem : Nat} (hp : 0 < p) (hr : 0 < rem) :
    cur / p = (cur + chunkLength p cur rem - 1) / p := by
  have hk := chunkLength_pos (cur := cur) hp hr
  have hle : chunkLength p cur rem ≤ p - cur % p := Nat.min_le_left _ _
  have hmod := Nat.mod_lt cur hp
  have hdiv := Nat.div_add_mod cur p
  symm
  rw [Nat.div_eq_iff hp]
  rw [Nat.mul_comm] at hdiv
  omega

/-- Where chunk `i` starts, how long it is, and that it starts a page if it is not the first (R190). -/
theorem chunksOf_getElem {p : Nat} (hp : 0 < p) {i x : Nat} {d : List Byte} {k : Nat × List Byte}
    (h : (chunksOf p x d)[i]? = some k) :
    k.1 = x + chunkBytes ((chunksOf p x d).take i) ∧ k.1 < x + d.length ∧
      k.2.length = chunkLength p k.1 (d.length - (k.1 - x)) ∧ (0 < i → k.1 % p = 0) := by
  induction i generalizing x d with
  | zero =>
    by_cases hd : d = []
    · simp [hd] at h
    · have hl : 0 < d.length := List.length_pos_iff.mpr hd
      rw [chunksOf_cons hp x d hd, List.getElem?_cons_zero, Option.some.injEq] at h
      subst h
      have hle := chunkLength_le_rem p x d.length
      refine ⟨by simp [chunkBytes], by simpa using hl, ?_, fun h => absurd h (Nat.lt_irrefl 0)⟩
      simpa using hle
  | succ i ih =>
    by_cases hd : d = []
    · simp [hd] at h
    · have hle := chunkLength_le_rem p x d.length
      rw [chunksOf_cons hp x d hd] at h ⊢
      rw [List.getElem?_cons_succ] at h
      obtain ⟨hstart, hlt, hlen, hpage⟩ := ih h
      rw [List.length_drop] at hlt hlen
      rw [List.take_succ_cons, chunkBytes_cons, List.length_take_of_le hle]
      refine ⟨by omega, by omega, by rw [hlen]; congr 1; omega, fun _ => ?_⟩
      rcases Nat.eq_zero_or_pos i with rfl | hi
      · have hfull : k.1 = x + chunkLength p x d.length := by simpa [chunkBytes] using hstart
        rw [hfull]
        exact chunk_ends_page hp (by omega)
      · exact hpage hi

/-- Settles O18: the start and the length of each chunk (`chunksOf_getElem`) give the rest. -/
theorem chunksNeverCrossAPage : Obligations.ChunksNeverCrossAPage := by
  intro p x d hp
  refine ⟨chunksOf_data hp x d, fun i k hk => ?_⟩
  obtain ⟨hstart, hlt, hlen, hpage⟩ := chunksOf_getElem hp (Option.mem_def.mp hk)
  have hrem : 0 < d.length - (k.1 - x) := by omega
  refine ⟨?_, ?_, ?_, hstart, hlen, hpage⟩
  · rw [← List.length_pos_iff, hlen]
    exact chunkLength_pos hp hrem
  · rw [hlen]
    exact (Nat.min_le_left _ _).trans (Nat.sub_le _ _)
  · rw [hlen]
    exact chunk_in_page hp hrem

/-- Nothing takes no piece of `p`, rounding up. -/
theorem ceilDiv_zero {p : Nat} (hp : 0 < p) : (0 + p - 1) / p = 0 := Nat.div_eq_of_lt (by omega)

/-- The first piece of `p` of `n`, or all that there is, and the pieces of the rest. -/
theorem ceilDiv_step {n p : Nat} (hp : 0 < p) (hn : 0 < n) : (n + p - 1) / p = (n - p + p - 1) / p + 1 := by
  rcases Nat.lt_or_ge n p with hlt | hge
  · rw [Nat.sub_eq_zero_of_le hlt.le, ceilDiv_zero hp, show n + p - 1 = n - 1 + p by omega, Nat.add_div_right _ hp,
      Nat.div_eq_of_lt (by omega)]
  · rw [← Nat.add_div_right _ hp]
    congr 1
    omega

/-- From a page boundary on, the chunks are whole pages and a last piece. -/
theorem chunksOf_length_of_boundary {p x : Nat} (hp : 0 < p) (d : List Byte) (hx : x % p = 0) :
    (chunksOf p x d).length = (d.length + p - 1) / p := by
  induction hn : d.length using Nat.strong_induction_on generalizing x d with
  | _ n ih =>
    subst hn
    by_cases hd : d = []
    · subst hd
      exact (ceilDiv_zero hp).symm
    · have hl : 0 < d.length := List.length_pos_iff.mpr hd
      have hk : chunkLength p x d.length = min p d.length := by rw [chunkLength, hx, Nat.sub_zero]
      rw [chunksOf_cons hp x d hd, hk, List.length_cons, ceilDiv_step hp hl]
      rcases Nat.lt_or_ge p d.length with hlt | hge
      · rw [Nat.min_eq_left hlt.le, ih _ (by rw [List.length_drop]; omega) _ (by rw [Nat.add_mod_right, hx]) rfl,
          List.length_drop]
      · rw [Nat.min_eq_right hge, List.drop_length, chunksOf_nil, Nat.sub_eq_zero_of_le hge, ceilDiv_zero hp,
          List.length_nil]

/-- The number of chunks (R197): after the first, they start on a page boundary. -/
theorem chunksOf_length {p : Nat} (hp : 0 < p) (x : Nat) {d : List Byte} (hd : d ≠ []) :
    (chunksOf p x d).length = 1 + (d.length - chunkLength p x d.length + p - 1) / p := by
  have hle := chunkLength_le_rem p x d.length
  rw [chunksOf_cons hp x d hd, List.length_cons, Nat.add_comm]
  rcases Nat.lt_or_ge (chunkLength p x d.length) d.length with hlt | hge
  · rw [chunksOf_length_of_boundary hp _ (chunk_ends_page hp hlt), List.length_drop]
  · have hall : chunkLength p x d.length = d.length := Nat.le_antisymm hle hge
    rw [hall, List.drop_length, Nat.sub_self, ceilDiv_zero hp, chunksOf_nil, List.length_nil]

/-- A chunk goes out as a write frame, not as a delay (R192). -/
theorem chunkFrame_ne_delay (c : WireCtx) (hw : HwFamily) (cur : Nat) (d : List Byte) (ms : Word32) :
    c.chunkFrame hw cur d ≠ .delay ms := by
  cases hw <;> exact Request.noConfusion

/-- A write-enable is a frame, not a delay (R173). -/
theorem writeEnable_ne_delay (c : WireCtx) (hw : HwFamily) (ms : Word32) : c.writeEnable hw ≠ some (.delay ms) := by
  unfold WireCtx.writeEnable
  split <;> simp [WireCtx.nEwen, WireCtx.narrowFrame, WireCtx.fWren, WireCtx.norBare, WireCtx.spi]

/-- Each chunk goes with one delay (R193). -/
theorem chunkRequests_count_delay (c : WireCtx) (hw : HwFamily) (ms : Word32) (plan : List (Nat × List Byte)) :
    (chunkRequests c hw ms plan).count (.delay ms) = plan.length := by
  have hone (k : Nat × List Byte) : (modifyRequests c hw (c.chunkFrame hw k.1 k.2) ms).count (.delay ms) = 1 := by
    have henable : (c.writeEnable hw).toList.count (.delay ms) = 0 :=
      List.count_eq_zero.mpr fun h => writeEnable_ne_delay c hw ms (Option.mem_toList.mp h)
    rw [modifyRequests, List.count_append, henable, List.count_cons_of_ne (chunkFrame_ne_delay c hw k.1 k.2 ms)]
    simp
  simp [chunkRequests, List.count_flatMap, Function.comp_def, hone]

/-- Settles O19: the count is that of `chunksOf_length`, and each chunk has its delay. -/
theorem chunkCountLaw : Obligations.ChunkCountLaw := by
  intro p x d hp hd
  have hlength := chunksOf_length hp x hd
  exact ⟨hlength, fun c hw ms => (chunkRequests_count_delay c hw ms _).trans hlength⟩

/-! ### Sub-writes (R188, R198) -/

/-- Without an overflow there is one sub-write, all of the data. -/
theorem subWrites_plain {size x : Nat} {d : List Byte} (hx : x < size) (h : x + d.length ≤ size) :
    subWrites size x d = [(x, d)] := by
  have hrest : d.length - (size - x) = 0 := by omega
  rw [subWrites, hrest, ceilDiv_zero (Nat.zero_lt_of_lt hx), List.take_of_length_le (by omega)]
  rfl

/-- With an overflow the rest is written from 0, as a write of its own (R188). -/
theorem subWrites_overflow {size x : Nat} {d : List Byte} (hx : x < size) (h : size < x + d.length) :
    subWrites size x d = (x, d.take (size - x)) :: subWrites size 0 (d.drop (size - x)) := by
  have hrest : 0 < d.length - (size - x) := by omega
  rw [subWrites, subWrites, ceilDiv_step (Nat.zero_lt_of_lt hx) hrest, List.range_succ_eq_map, List.map_cons,
    List.map_map, List.length_drop]
  simp [Function.comp_def, Nat.add_mul, Nat.add_comm]

/-- The sub-writes of R188 are the calls of CHUNKS that PW makes (R186). -/
theorem pwCalls_eq_subWrites {size x : Nat} (hx : x < size) (d : List Byte) :
    pwCalls true size x d = subWrites size x d := by
  induction hn : d.length using Nat.strong_induction_on generalizing x d with
  | _ n ih =>
    rcases Nat.lt_or_ge size (x + d.length) with h | h
    · rw [pwCalls_wrap hx h, subWrites_overflow hx h, ih _ (by rw [List.length_drop]; omega) (by omega) _ rfl]
    · rw [pwCalls_plain true h, subWrites_plain hx h]

/-- The sub-writes carry the data, all of it and in order. -/
theorem subWrites_data {size x : Nat} (hx : x < size) (d : List Byte) : (subWrites size x d).flatMap Prod.snd = d := by
  induction hn : d.length using Nat.strong_induction_on generalizing x d with
  | _ n ih =>
    rcases Nat.lt_or_ge size (x + d.length) with h | h
    · rw [subWrites_overflow hx h, List.flatMap_cons, ih _ (by rw [List.length_drop]; omega) (by omega) _ rfl,
        List.take_append_drop]
    · rw [subWrites_plain hx h, List.flatMap_singleton]

end Sys2Proof.Machine
end

section
/-! PROOFS, the commands READ, READ_BYTE, WRITE and WRITE_BYTE (41_read_write.md R180 to R199), and the frame of the
commands that only report (R82). A WRITE is a run of jobs, and `writeJobs_success` and `writeJobs_failure` say how it
ends. -/

namespace Sys2Proof.Machine

open Sys2Proof.Claims

/-! ### Past the entry checks (R305) -/

theorem hardwareFamily_of_readyOn {s : State} {hw : HwFamily} (h : ReadyOn s hw) :
    hardwareFamily s.handle.family = some hw := by
  obtain ⟨-, hf, -⟩ := h
  rw [hf]
  cases hw <;> rfl

theorem addressedFamily_of_readyOn {s : State} {hw : HwFamily} {n : Nat} {addr : Word32} (h : ReadyOn s hw)
    (hd : s.port.din.length = n) (ha : addr.toNat < s.handle.size.toNat) : s.addressedFamily n addr = some hw := by
  have hf := hardwareFamily_of_readyOn h
  obtain ⟨hr, -, hs⟩ := h
  exact addressedFamily_of ((readyFamily_of hd hr).trans hf) hs ha

theorem effectivePage_eq_eps (s : State) (hw : HwFamily) : effectivePage s hw = s.eps hw := by
  cases hw <;> rfl

/-! ### How a command finishes -/

/-- A `finish` is one in the claims' sense if the parameters, CMDR, DIN and the host's events stand (R18). -/
theorem finish_finished {s u : State} {d : List Byte} (hp : u.port = { s.port with dout := d }) (hc : u.cfg = s.cfg)
    (hh : u.hostIn = s.hostIn) (v : Word32) : Finished s (u.finish v) v d :=
  ⟨by rw [State.finish_port, hp], rfl, rfl, hc, hh⟩

theorem Quiet.finished {s u : State} (q : Quiet s u) (v : Word32) : Finished s (u.finish v) v s.port.dout :=
  finish_finished (d := s.port.dout) q.port q.cfg q.hostIn v

theorem Quiet.finished_setDout {s u : State} (q : Quiet s u) (d : List Byte) (v : Word32) :
    Finished s ((u.setDout d).finish v) v d :=
  finish_finished (u := u.setDout d) (by rw [State.setDout_port, q.port]) q.cfg q.hostIn v

theorem Quiet.sameHandle {s u : State} (q : Quiet s u) : SameHandle s u := ⟨q.handle, q.sfdp⟩

/-- A count that fits is STATUS, and one that does not writes no other register (R302, log 5). -/
theorem finishCount_reports (n : Nat) (s : State) :
    ∃ u v, s.finishCount n = u.finish v ∧ Reports v n ∧ Quiet s u ∧ u.wire = s.wire ∧ u.answers = s.answers := by
  rcases Nat.lt_or_ge n (2 ^ 31) with hn | hn
  · exact ⟨s, _, s.finishCount_fits n hn, fun _ => rfl, Quiet.refl s, rfl, rfl⟩
  · obtain ⟨u, v, h, q, hwire, ha⟩ := finishCount_ends n s
    exact ⟨u, v, h, fun hlt => absurd hlt (Nat.not_lt.mpr hn), q, hwire, ha⟩

theorem requests_of_wire {s t : State} (h : t.wire = s.wire) : t.requests = s.requests := by
  rw [State.requests, h, State.requests]

/-! ### READ and READ_BYTE (R180 to R184) -/

theorem exec_read {addr len : Word32} {s t : State} (h : readOp addr len s = t) : exec (.read addr len) s = .next t :=
  congrArg Host.Outcome.next h

section
variable {s : State} {hw : HwFamily} {addr len : Word32} (hf : s.addressedFamily 0 addr = some hw)
include hf

/-- READ of no bytes (R180). -/
theorem readOp_empty : readOp addr 0#32 s = (s.setDout []).finish ErrorName.ok.code := by
  rw [readOp, hf]
  rfl

/-- READ past SIZE (R181). -/
theorem readOp_pastEnd (h : s.handle.size.toNat < addr.toNat + len.toNat) :
    readOp addr len s = s.raiseReading .invalidArgument := by
  have hlen : len ≠ 0#32 := by
    rintro rfl
    obtain ⟨-, -, ha⟩ := addressedFamily_some hf
    exact absurd h (Nat.not_lt.mpr ha.le)
  rw [readOp, hf]
  dsimp only
  rw [if_neg hlen, if_pos h]

variable (hlen : len ≠ 0#32) (hrange : addr.toNat + len.toNat ≤ s.handle.size.toNat)
include hlen hrange

/-- READ of bytes in range that the transport does not answer in full (R306, R309). -/
theorem readOp_bad {s1 : State} {e : Word32}
    (h : transport (s.wireCtx.readFrame hw addr.toNat len.toNat) s = (.bad e, s1)) :
    readOp addr len s = (s1.setDout []).finish e := by
  rw [readOp, hf]
  dsimp only
  rw [if_neg hlen, if_neg (Nat.not_lt.mpr hrange), h]

/-- READ of bytes in range that the transport answers (R180). -/
theorem readOp_okr {s1 : State} {bytes : List Byte}
    (h : transport (s.wireCtx.readFrame hw addr.toNat len.toNat) s = (.okr bytes, s1)) :
    readOp addr len s = (s1.setDout bytes).finishCount len.toNat := by
  rw [readOp, hf]
  dsimp only
  rw [if_neg hlen, if_neg (Nat.not_lt.mpr hrange), h]

end

/-- A read frame is a data-reading request: its listed answer is classified by the length asked for (R306). -/
theorem transport_readFrame (c : WireCtx) (hw : HwFamily) (x n : Nat) {s : State} {a : XferAnswer}
    {rest : List XferAnswer} (h : s.answers.xfer = a :: rest) :
    transport (c.readFrame hw x n) s = (a.result n, s.afterXfer (c.readFrame hw x n) a rest) := by
  cases hw with
  | i2cEe => exact transport_i2cWriteRead_listed _ _ n _ s a rest h
  | spiNarrow => exact transport_spiXfer_listed _ s a rest h
  | spiNorSfdp => exact transport_spiXfer_listed _ s a rest h

section
variable {s : State} {hw : HwFamily} {addr len : Word32} {rest : List XferAnswer}
  (hf : s.addressedFamily 0 addr = some hw) (hlen : len ≠ 0#32)
  (hrange : addr.toNat + len.toNat ≤ s.handle.size.toNat)
include hf hlen hrange

/-- The listed answer fails the READ (R306, R309): its code is STATUS. -/
theorem read_fails {a : XferAnswer} {e : Word32} (hx : s.answers.xfer = a :: rest)
    (hbad : a.result len.toNat = .bad e) :
    ∃ t, exec (.read addr len) s = .next t ∧ Finished s t e [] ∧ SameHandle s t ∧
      t.requests = s.requests ++ [s.wireCtx.readFrame hw addr.toNat len.toNat] := by
  have htr := transport_readFrame s.wireCtx hw addr.toNat len.toNat hx
  have q := transport_quiet (s.wireCtx.readFrame hw addr.toNat len.toNat) s
  have hr := transport_requests (s.wireCtx.readFrame hw addr.toNat len.toNat) s
  rw [hbad] at htr
  rw [htr] at q hr
  exact ⟨_, exec_read (readOp_bad hf hlen hrange htr), q.finished_setDout [] e, q.sameHandle, hr⟩

/-- The listed answer has all the bytes (R180, R184): they are DOUT, and their number STATUS. -/
theorem read_succeeds {data : List Byte} (hx : s.answers.xfer = .ok data :: rest) (hdata : data.length = len.toNat) :
    ∃ t v, exec (.read addr len) s = .next t ∧ Finished s t v data ∧ Reports v len.toNat ∧ SameHandle s t ∧
      t.requests = s.requests ++ [s.wireCtx.readFrame hw addr.toNat len.toNat] ∧
      t.answers = { s.answers with xfer := rest } := by
  have hok : (XferAnswer.ok data).result len.toNat = .okr data := if_pos hdata
  have htr := transport_readFrame s.wireCtx hw addr.toNat len.toNat hx
  have q := transport_quiet (s.wireCtx.readFrame hw addr.toNat len.toNat) s
  have hr := transport_requests (s.wireCtx.readFrame hw addr.toNat len.toNat) s
  rw [hok] at htr
  rw [htr] at q hr
  obtain ⟨u, v, hu, hv, qu, hwire, hans⟩ := finishCount_reports len.toNat (State.setDout data _)
  refine ⟨u.finish v, v, exec_read ((readOp_okr hf hlen hrange htr).trans hu), finish_finished ?_ ?_ ?_ v, hv,
    ⟨qu.handle.trans q.handle, qu.sfdp.trans q.sfdp⟩, (requests_of_wire hwire).trans hr, hans⟩
  · rw [qu.port, State.setDout_port, q.port]
  · exact qu.cfg.trans q.cfg
  · exact qu.hostIn.trans q.hostIn

end

/-- The request of READ as the claims write it. -/
theorem readFrame_eq (c : WireCtx) (hw : HwFamily) (x n : Nat) :
    c.readFrame hw x n =
      match hw with
      | .i2cEe => c.iRead x n
      | .spiNarrow => c.nRead x n
      | .spiNorSfdp => c.fRead x n := by
  cases hw <;> rfl

/-- Settles O16: by cases on LEN and the range, and on the answer where a request is issued. -/
theorem readFollowsItsRule : Obligations.ReadFollowsItsRule := by
  intro s hw addr len h hd ha req
  have hreq : req = s.wireCtx.readFrame hw addr.toNat len.toNat := (readFrame_eq ..).symm
  have hf := addressedFamily_of_readyOn h (List.length_eq_zero_iff.mpr hd) ha
  have q := Quiet.refl s
  rw [hreq]
  refine ⟨fun hlen => ?_, fun hrange => ?_, fun hlen hrange => ⟨?_, ?_, ?_⟩⟩
  · subst hlen
    exact ⟨_, exec_read (readOp_empty hf), q.finished_setDout [] _, q.sameHandle, rfl⟩
  · exact ⟨_, exec_read (readOp_pastEnd hf hrange), q.finished_setDout [] _, q.sameHandle, rfl⟩
  · exact fun data rest hx hdata => read_succeeds hf hlen hrange hx hdata
  · exact fun data rest hx hdata => read_fails hf hlen hrange hx (if_neg hdata)
  · exact fun e rest hx => read_fails hf hlen hrange hx rfl

/-- Settles O17: READ_BYTE is READ of length 1 by definition, and one byte below SIZE is in range. -/
theorem readByteReadsOneByte : Obligations.ReadByteReadsOneByte := by
  refine ⟨fun s addr => rfl, fun s hw addr b rest h hd ha hx => ?_⟩
  have hf := addressedFamily_of_readyOn h (List.length_eq_zero_iff.mpr hd) ha
  obtain ⟨t, v, he, hfin, hv, hs, hr, -⟩ := read_succeeds (len := 1#32) hf (by decide) ha hx rfl
  obtain rfl : v = 1#32 := hv (by decide)
  exact ⟨t, he, hfin, hs, hr.trans (congrArg (fun r => s.requests ++ [r]) (readFrame_eq ..))⟩

/-! ### The frame of the reporting commands (R82) -/

/-- The commands that only report write DOUT and STATUS (R180, R183, R286, R288, R290). -/
theorem reporting_ends {s : State} {i : Instr} {addr len rlen : Word32} {opc : BitVec 16} {opw adw dmw : Byte}
    (hi : i = .read addr len ∨ i = .readByte addr ∨ i = .getInfo ∨ i = .getSfdp ∨
      i = .rawXfer addr len rlen opc opw adw dmw) :
    ∃ u d v, exec i s = .next ((u.setDout d).finish v) ∧ Quiet s u := by
  rcases hi with rfl | rfl | rfl | rfl | rfl
  · obtain ⟨u, d, v, h, q, -⟩ := readOp_ends addr len s
    exact ⟨u, d, v, congrArg _ h, q⟩
  · obtain ⟨u, d, v, h, q, -⟩ := readOp_ends addr 1#32 s
    exact ⟨u, d, v, congrArg _ h, q⟩
  · obtain ⟨d, v, h⟩ := execGetInfo_ends s
    exact ⟨s, d, v, h, Quiet.refl s⟩
  · obtain ⟨d, v, h⟩ := execGetSfdp_ends s
    exact ⟨s, d, v, h, Quiet.refl s⟩
  · obtain ⟨u, d, v, h, rfl | ⟨r, -, rfl⟩⟩ := execRawXfer_ends addr len rlen opc opw adw dmw s
    · exact ⟨u, d, v, h, Quiet.refl u⟩
    · exact ⟨_, d, v, h, transport_quiet r s⟩

/-- Settles O53: the finish of `reporting_ends`; that a first step issues at most one request holds of every command. -/
theorem reportingCommandsChangeOnlyDoutAndStatus : Obligations.ReportingCommandsChangeOnlyDoutAndStatus := by
  intro s t i addr len rlen opc opw adw dmw hi ht
  have hone := (exec_cases ht).issuesAtMostOne
  obtain ⟨u, d, v, h, q⟩ := reporting_ends (s := s) hi
  rw [h] at ht
  cases ht
  exact ⟨⟨v, d, q.finished_setDout d v⟩, q.sameHandle, hone⟩

/-! ### WRITE as a run of jobs (R185) -/

/-- The frame of a WRITE in any state it comes to. -/
theorem UnderwayWrite.frame {s t : State} (h : UnderwayWrite s t) :
    ((∃ v, Finished s t v s.port.dout) ∨ t.pending ≠ none ∧ t.port = s.port ∧ t.cfg = s.cfg ∧ t.hostIn = s.hostIn) ∧
      SameHandle s t ∧ s.wire <+: t.wire := by
  rcases h with ⟨j, rest, p, n, hp, -, q⟩ | ⟨w, v, rfl, q⟩
  · exact ⟨.inr ⟨by simp [hp], q.port, q.cfg, q.hostIn⟩, q.sameHandle, q.wire⟩
  · exact ⟨.inl ⟨v, q.finished v⟩, q.sameHandle, q.wire⟩

/-- Settles O26: both commands are `writeOp`, and every state they come to is one of `UnderwayWrite`. -/
theorem writesChangeOnlyStatus : Obligations.WritesChangeOnlyStatus := by
  intro s t addr len wrap partialAcc value h
  rcases h with h | h
  all_goals
    obtain ⟨u, hu, hl⟩ := reaches_iff.mp h
    exact ((writeOp_underway hu).leads hl).frame

theorem Quiet.of_erase {s t : State} (q : QuietErase s t) (h : t.handle.progress = s.handle.progress) : Quiet s t :=
  ⟨q.cfg, by rw [q.handle, h], q.sfdp, q.port, q.hostIn, q.wire⟩

/-- A WRITE with these jobs whose answers all succeed sends all their requests and reports its count. -/
theorem writeJobs_success {i : Instr} {s : State} {jobs : List Job} {p : Bool} {n : Nat} {a : Answers}
    (he : exec i s = .next (s.nextJob jobs (.write p n)).advance) (hj : ∀ j ∈ jobs, j.counts = false)
    (h : s.answers.success (jobs.flatMap Job.requests) = some a) :
    ∃ t v, Completes i s t ∧ Finished s t v s.port.dout ∧ Reports v n ∧ SameHandle s t ∧
      t.requests = s.requests ++ jobs.flatMap Job.requests ∧ t.answers = a := by
  obtain ⟨u, hl, hran, hpro⟩ := jobs_success jobs [] (.write p n) s a h
  rw [List.append_nil] at hl
  have qu : Quiet s u := .of_erase hran.quiet (by simp [hpro, countOf_eq_zero hj])
  obtain ⟨w, v, hcount, hv, qw, hwire, hans⟩ := finishCount_reports n u
  have hend : u.nextJob [] (.write p n) = w.finish v := hcount
  rw [hend] at hl
  exact ⟨w.finish v, v, completes_of_leads he hl rfl, (qu.trans qw).finished v, hv, (qu.trans qw).sameHandle,
    (requests_of_wire hwire).trans hran.requests, hans.trans hran.answers⟩

/-- The request of a failing MODIFY that fails, and those before it that succeed (R174). -/
theorem modifyFails_split {c : WireCtx} {hw : HwFamily} {f : Request} {a : Answers} {code : Word32}
    {sent : List Request} (h : ModifyFails c hw f a code sent) (ms : Word32) :
    ∃ before r later a1, modifyRequests c hw f ms = before ++ r :: later ∧ a.success before = some a1 ∧
      a1.failure r = some code ∧ sent = before ++ [r] := by
  rcases h with ⟨w, henable, hf, rfl⟩ | ⟨a1, hs, hf, rfl⟩
  · exact ⟨[], w, [f, .delay ms], a, by rw [modifyRequests, henable]; rfl, rfl, hf, rfl⟩
  · exact ⟨_, f, [.delay ms], a1, rfl, hs, hf, rfl⟩

/-- A WRITE one of whose jobs fails: nothing more is issued, and the accounting says what STATUS is (R194). -/
theorem writeJobs_failure {i : Instr} {s : State} {before after : List Job} {j : Job} {p : Bool} {n : Nat} {c : WireCtx}
    {hw : HwFamily} {f : Request} {ms code : Word32} {a : Answers} {sent : List Request}
    (he : exec i s = .next (s.nextJob (before ++ j :: after) (.write p n)).advance)
    (hj : ∀ k ∈ before, k.counts = false) (hreq : j.requests = modifyRequests c hw f ms)
    (h : s.answers.success (before.flatMap Job.requests) = some a) (hf : ModifyFails c hw f a code sent) :
    ∃ t v, Completes i s t ∧ Finished s t v s.port.dout ∧ (if p then Reports v j.done else v = code) ∧
      SameHandle s t ∧ t.requests = s.requests ++ before.flatMap Job.requests ++ sent := by
  obtain ⟨l, r, m, a1, hsplit, hl, hr, rfl⟩ := modifyFails_split hf ms
  obtain ⟨u, hlead, q, hreqs, hpro⟩ :=
    jobs_failure before after j (.write p n) s a a1 r code l m h (hreq.trans hsplit) hl hr
  have qu : Quiet s u := .of_erase q (by simp [hpro, countOf_eq_zero hj])
  cases p with
  | false =>
    exact ⟨u.finish code, code, completes_of_leads he hlead rfl, qu.finished code, rfl, qu.sameHandle, hreqs⟩
  | true =>
    obtain ⟨w, v, hcount, hv, qw, hwire, -⟩ := finishCount_reports j.done u
    have hend : u.failJob (.write true n) j code = w.finish v := hcount
    rw [hend] at hlead
    exact ⟨w.finish v, v, completes_of_leads he hlead rfl, (qu.trans qw).finished v, hv, (qu.trans qw).sameHandle,
      (requests_of_wire hwire).trans hreqs⟩

/-! ### WRITE and WRITE_BYTE past their entry checks (R185 to R199) -/

theorem subWriteRequests_eq (s : State) (hw : HwFamily) (w : List (Nat × List Byte)) :
    subWriteRequests s hw w = w.flatMap fun k =>
      chunkRequests s.wireCtx hw s.handle.writeDelayMs (chunksOf (s.eps hw) k.1 k.2) := by
  rw [subWriteRequests, effectivePage_eq_eps]

/-- The jobs of PW up to a chunk of one of its calls, and that chunk's (R186, R194). -/
theorem pw_split {s : State} {hw : HwFamily} {wrap : Bool} {x0 x cur : Nat} {d0 d c : List Byte}
    {earlier later before after : List (Nat × List Byte)}
    (hcalls : pwCalls wrap s.handle.size.toNat x0 d0 = earlier ++ (x, d) :: later)
    (hc : chunksOf (effectivePage s hw) x d = before ++ (cur, c) :: after) :
    ∃ l w m, s.pw hw wrap x0 d0 =
        l ++ modifyJob s.wireCtx hw (s.wireCtx.chunkFrame hw cur c) s.handle.writeDelayMs w (chunkBytes before) false ::
          m ∧
      l.flatMap Job.requests =
        subWriteRequests s hw earlier ++ chunkRequests s.wireCtx hw s.handle.writeDelayMs before := by
  obtain ⟨l, w, m, hjobs, hl⟩ := chunkJobs_split s.wireCtx hw s.handle.writeDelayMs 0 before after cur c
  rw [← hc, effectivePage_eq_eps, Nat.zero_add] at hjobs
  refine ⟨(earlier.flatMap fun k => s.chunks hw k.1 k.2) ++ l, w,
    m ++ later.flatMap fun k => s.chunks hw k.1 k.2, ?_, ?_⟩
  · rw [State.pw, hcalls, List.flatMap_append, List.flatMap_cons, show s.chunks hw x d = _ from hjobs]
    simp
  · rw [List.flatMap_append, hl, subWriteRequests_eq, List.flatMap_assoc]
    simp only [chunks_requests]

section
variable {i : Instr} {s : State} {hw : HwFamily} {din : Nat} {addr : Word32} {data : List Byte} {wrap p : Bool}
  (he : exec i s = writeOp din addr data wrap p s) (hf : s.addressedFamily din addr = some hw)
  (hp : 0 < effectivePage s hw)
include he hf hp

/-- A write past its entry checks sends the jobs of PW. -/
theorem exec_write :
    exec i s = .next (s.nextJob (s.pw hw wrap addr.toNat data)
      (.write p (pwTotal wrap s.handle.size.toNat addr.toNat data))).advance := by
  rw [effectivePage_eq_eps] at hp
  rw [he, writeOp_eq hf (.inl hp.ne')]

/-- A write whose answers all succeed sends the chunks of PW's calls and reports their bytes (R185, R195). -/
theorem write_succeeds {calls : List (Nat × List Byte)} {a : Answers}
    (hcalls : pwCalls wrap s.handle.size.toNat addr.toNat data = calls)
    (h : s.answers.success (subWriteRequests s hw calls) = some a) :
    ∃ t v, Completes i s t ∧ Finished s t v s.port.dout ∧ Reports v (chunkBytes calls) ∧ SameHandle s t ∧
      t.requests = s.requests ++ subWriteRequests s hw calls ∧ t.answers = a := by
  subst hcalls
  rw [subWriteRequests_eq, ← pw_requests] at h ⊢
  exact writeJobs_success (exec_write he hf hp) (fun _ hj => pw_counts hj) h

/-- A write one of whose chunks fails (R194): with PARTIAL, STATUS is the count of its own call of CHUNKS. -/
theorem write_fails {x cur : Nat} {d c : List Byte} {earlier later before after : List (Nat × List Byte)}
    {a : Answers} {code : Word32} {sent : List Request}
    (hcalls : pwCalls wrap s.handle.size.toNat addr.toNat data = earlier ++ (x, d) :: later)
    (hc : chunksOf (effectivePage s hw) x d = before ++ (cur, c) :: after)
    (h : s.answers.success
      (subWriteRequests s hw earlier ++ chunkRequests s.wireCtx hw s.handle.writeDelayMs before) = some a)
    (hfail : ModifyFails s.wireCtx hw (s.wireCtx.chunkFrame hw cur c) a code sent) :
    ∃ t v, Completes i s t ∧ Finished s t v s.port.dout ∧ (if p then Reports v (chunkBytes before) else v = code) ∧
      SameHandle s t ∧
      t.requests = s.requests ++
        (subWriteRequests s hw earlier ++ chunkRequests s.wireCtx hw s.handle.writeDelayMs before) ++ sent := by
  obtain ⟨l, w, m, hjobs, hl⟩ := pw_split hcalls hc
  have hcounts : ∀ k ∈ l, k.counts = false := fun k hk => pw_counts (hjobs ▸ List.mem_append_left _ hk)
  have he := exec_write he hf hp
  rw [hjobs] at he
  rw [← hl] at h ⊢
  have hend := writeJobs_failure he hcounts (modifyJob_requests ..) h hfail
  rw [modifyJob_done] at hend
  exact hend

end

/-- Without wrap PW makes one call, of the bytes up to SIZE (R189). -/
theorem pwCalls_noWrap_eq (size x : Nat) (d : List Byte) : pwCalls false size x d = [(x, d.take (size - x))] := by
  rcases pwCalls_noWrap size x d with h | ⟨hd, h⟩
  · exact h
  · rw [h, hd]

theorem subWriteRequests_singleton (s : State) (hw : HwFamily) (x : Nat) (d : List Byte) :
    subWriteRequests s hw [(x, d)] =
      chunkRequests s.wireCtx hw s.handle.writeDelayMs (chunksOf (effectivePage s hw) x d) :=
  List.append_nil _

/-- Settles O20: PW's one call is the bytes up to SIZE. -/
theorem writeWithoutWrapSendsItsChunks : Obligations.WriteWithoutWrapSendsItsChunks := by
  intro s hw addr len p a hready hd ha hp d reqs h
  have hreqs : reqs = subWriteRequests s hw [(addr.toNat, d)] := (subWriteRequests_singleton ..).symm
  rw [hreqs] at h ⊢
  exact write_succeeds rfl (addressedFamily_of_readyOn hready hd ha) hp (pwCalls_noWrap_eq ..) h

/-- Settles O21: PW's calls are the sub-writes (`pwCalls_eq_subWrites`), and these carry all of the data. -/
theorem wrappedWriteSendsItsSubWrites : Obligations.WrappedWriteSendsItsSubWrites := by
  intro s hw addr len p hready hd ha hp split w
  have hdata : w.flatMap Prod.snd = s.port.din := subWrites_data ha s.port.din
  refine ⟨fun a h => ?_, hdata, fun hfits => ?_, fun hover htwice => ?_⟩
  · have hbytes : chunkBytes w = len.toNat := by rw [chunkBytes_eq, hdata, hd]
    rw [← hbytes]
    exact write_succeeds rfl (addressedFamily_of_readyOn hready hd ha) hp (pwCalls_eq_subWrites ha _) h
  · exact subWrites_plain ha (by rw [hd]; exact hfits)
  · have hrest : (s.port.din.drop split).length ≤ s.handle.size.toNat := by rw [List.length_drop, hd]; omega
    rw [← subWrites_plain (Nat.zero_lt_of_lt ha) (by rw [Nat.zero_add]; exact hrest)]
    exact subWrites_overflow ha (by rw [hd]; exact hover)

/-- Settles O22: PW's one call has the failing chunk. -/
theorem failedChunkEndsTheWrite : Obligations.FailedChunkEndsTheWrite := by
  intro s hw addr len p before after cur c a code sent hready hd ha hp hc h hfail
  exact write_fails (earlier := []) rfl (addressedFamily_of_readyOn hready hd ha) hp (pwCalls_noWrap_eq ..) hc h hfail

/-- Settles O23: PW's calls are the sub-writes; `write_fails` with either accounting. -/
theorem failedSubWriteReportsItsOwnCount : Obligations.FailedSubWriteReportsItsOwnCount := by
  intro s hw addr len earlier later x d before after cur c a code sent hready hd ha hp hsub hc reqs h hfail
  have hf := addressedFamily_of_readyOn hready hd ha
  have hcalls := (pwCalls_eq_subWrites ha s.port.din).trans hsub
  refine ⟨write_fails (p := true) rfl hf hp hcalls hc h hfail, ?_⟩
  obtain ⟨t, v, hcomp, hfin, rfl, hs, hr⟩ := write_fails (i := .write addr len true false) rfl hf hp hcalls hc h hfail
  exact ⟨t, hcomp, hfin, hs, hr⟩

/-- One byte is one chunk (R190). -/
theorem chunksOf_byte {p : Nat} (hp : 0 < p) (x : Nat) (b : Byte) : chunksOf p x [b] = [(x, [b])] := by
  have hk : chunkLength p x [b].length = 1 :=
    Nat.le_antisymm (chunkLength_le_rem p x 1) (chunkLength_pos hp Nat.one_pos)
  rw [chunksOf_cons hp x [b] (by simp), hk]
  rfl

/-- The frame of a one-byte chunk as the claims write it (R192). -/
theorem chunkFrame_byte (c : WireCtx) (hw : HwFamily) (x : Nat) (b : Byte) :
    c.chunkFrame hw x [b] =
      match hw with
      | .i2cEe => c.iWrite x [b]
      | .spiNarrow => c.nWrite x b
      | .spiNorSfdp => c.fPp x [b] := by
  cases hw <;> rfl

/-- Settles O25: WRITE_BYTE is a write of one call with one chunk. -/
theorem writeByteSendsOneByte : Obligations.WriteByteSendsOneByte := by
  intro s hw addr value hready hd ha hp frame reqs
  have hframe : frame = s.wireCtx.chunkFrame hw addr.toNat [value] := (chunkFrame_byte ..).symm
  have hf := addressedFamily_of_readyOn hready (List.length_eq_zero_iff.mpr hd) ha
  have hcalls : pwCalls false s.handle.size.toNat addr.toNat [value] = [] ++ [(addr.toNat, [value])] :=
    pwCalls_plain false ha
  have hchunks : chunksOf (effectivePage s hw) addr.toNat [value] = [] ++ [(addr.toNat, [value])] :=
    chunksOf_byte hp _ _
  refine ⟨fun a h => ?_, fun code sent hfail => ?_⟩
  · have hreqs : reqs = subWriteRequests s hw [(addr.toNat, [value])] := by
      rw [subWriteRequests_singleton, hchunks]
      simp [reqs, hframe, chunkRequests]
    rw [hreqs] at h ⊢
    obtain ⟨t, v, hcomp, hfin, hv, hs, hr, hans⟩ := write_succeeds (i := .writeByte addr value) rfl hf hp hcalls h
    obtain rfl : v = 1#32 := hv (Nat.one_lt_two_pow (by decide))
    exact ⟨t, hcomp, hfin, hs, hr, hans⟩
  · rw [hframe] at hfail
    obtain ⟨t, v, hcomp, hfin, rfl, hs, hr⟩ :=
      write_fails (i := .writeByte addr value) rfl hf hp hcalls hchunks rfl hfail
    exact ⟨t, hcomp, hfin, hs, hr.trans (by simp [subWriteRequests, chunkRequests])⟩

/-- A write of no data has no jobs (R199). -/
theorem pw_nil {s : State} {x : Nat} (hx : x < s.handle.size.toNat) (hw : HwFamily) (wrap : Bool) :
    s.pw hw wrap x [] = [] := by
  rw [State.pw, pwCalls_plain wrap hx.le]
  rfl

/-- Settles O24: with no job due the command ends at once, with the count 0. -/
theorem emptyWriteSendsNothing : Obligations.EmptyWriteSendsNothing := by
  intro s hw addr wrap p hready hd
  refine ⟨fun ha => ?_, fun ha => writeOp_refuses (addressedFamily_eq_none_of_range (.inr ha))⟩
  have hf := addressedFamily_of_readyOn hready (List.length_eq_zero_iff.mpr hd) ha
  have htotal : pwTotal wrap s.handle.size.toNat addr.toNat [] = 0 := by
    rw [pwTotal, pwCalls_plain wrap ha.le]
    rfl
  change writeOp 0 addr s.port.din wrap p s = _
  rw [hd, writeOp_eq hf (.inr rfl), pw_nil ha, htotal]
  rfl

end Sys2Proof.Machine
end

section
/-! PROOFS, ERASE_PAGE and ERASE (42_erase.md R220 to R231). Each sends units, a modifying frame with its delay;
`erasePageJobs_jobsOf` and `eraseJobs_jobsOf` say which, `erasePage_success`, `eraseUnits_success` and `units_failure`
how the command ends. -/

namespace Sys2Proof.Machine

open Sys2Proof.Claims

/-! ### The frame of the erases (R88) -/

theorem QuietErase.finished {s u : State} (q : QuietErase s u) (v : Word32) : Finished s (u.finish v) v s.port.dout :=
  finish_finished (d := s.port.dout) q.port q.cfg q.hostIn v

theorem Underway.frame {s t : State} (h : Underway s t) :
    ((∃ v, Finished s t v s.port.dout) ∨ t.pending ≠ none ∧ t.port = s.port ∧ t.cfg = s.cfg ∧ t.hostIn = s.hostIn) ∧
      t.handle = { s.handle with progress := t.handle.progress } ∧ t.sfdp = s.sfdp ∧ s.wire <+: t.wire := by
  rcases h with ⟨j, rest, g, hp, q⟩ | ⟨w, v, rfl, q⟩
  · exact ⟨.inr ⟨by simp [hp], q.port, q.cfg, q.hostIn⟩, q.handle, q.sfdp, q.wire⟩
  · exact ⟨.inl ⟨v, q.finished v⟩, q.handle, q.sfdp, q.wire⟩

/-- From its first step on, an ERASE without a discovery changes PROGRESS and STATUS only (R88). -/
theorem execErase_underway {value : Byte} {s t : State} (hd : s.handle.family ≠ .spiNorSfdp ∨ s.sfdp.state = .parsed)
    (h : execErase value s = .next t) : Underway s t := by
  rcases execErase_cases value s with ⟨-, he⟩ | ⟨hf, hp, -⟩ | ⟨hw, -, -, he⟩
  · rw [he] at h; cases h
    exact .inr ⟨s, _, rfl, QuietErase.refl s⟩
  · obtain ⟨-, -, hfam, -⟩ := eraseFamily_some hf
    rcases hd with hd | hd
    · exact absurd (hardwareFamily_some hfam) hd
    · exact absurd hd hp
  · rw [he] at h; cases h
    exact advance_underway (startErase_underway hw value (QuietErase.refl s))

/-- Settles O38: every state the two commands come to is one of `Underway`. -/
theorem erasesChangeOnlyProgressAndStatus : Obligations.ErasesChangeOnlyProgressAndStatus := by
  intro s t page value h
  suffices hu : ∃ u, Underway s u ∧ Leads u t by
    obtain ⟨u, hu, hl⟩ := hu
    exact (hu.leads hl).frame
  rcases h with h | ⟨hd, h⟩ | ⟨hd, h⟩ <;> obtain ⟨u, hu, hl⟩ := reaches_iff.mp h
  · exact ⟨u, execErasePage_underway hu, hl⟩
  · exact ⟨u, execErase_underway (.inl hd) hu, hl⟩
  · exact ⟨u, execErase_underway (.inr hd) hu, hl⟩

/-! ### A unit that fails (R220, R231) -/

/-- A failing job of an erase ends it with the code. -/
theorem failJob_of_erase {g : Goal} (hg : ∀ p n, g ≠ .write p n) (j : Job) (e : Word32) (s : State) :
    s.failJob g j e = s.finish e := by
  cases g with
  | write p n => exact absurd rfl (hg p n)
  | erasePage => rfl
  | erase => rfl

/-- An erase one of whose units fails: nothing more is issued, and PROGRESS counts the units before it if they count. -/
theorem units_failure {i : Instr} {g : Goal} {s : State} {hw : HwFamily} {b : Bool} {jobs : List Job}
    {before after : List (Request × Word32)} {f : Request} {ms code : Word32} {a : Answers} {sent : List Request}
    (he : exec i s = .next ((s.setProgress 0#32).nextJob jobs g).advance) (hg : ∀ p n, g ≠ .write p n)
    (hj : JobsOf s.wireCtx hw b jobs (before ++ (f, ms) :: after))
    (h : s.answers.success (before.flatMap fun u => modifyRequests s.wireCtx hw u.1 u.2) = some a)
    (hf : ModifyFails s.wireCtx hw f a code sent) :
    ∃ t, Completes i s t ∧ Finished s t code s.port.dout ∧
      t.handle = { s.handle with progress := BitVec.ofNat 32 (if b then before.length else 0) } ∧ t.sfdp = s.sfdp ∧
      t.requests = s.requests ++ (before.flatMap fun u => modifyRequests s.wireCtx hw u.1 u.2) ++ sent := by
  obtain ⟨l, w, m, rfl, hl⟩ := hj.split
  obtain ⟨ok, r, later, a1, hsplit, hok, hr, rfl⟩ := modifyFails_split hf ms
  rw [← hl.requests] at h ⊢
  obtain ⟨u, hlead, q, hreqs, hpro⟩ := jobs_failure l m (modifyJob s.wireCtx hw f ms w 0 b) g (s.setProgress 0#32) a a1
    r code ok later h ((modifyJob_requests ..).trans hsplit) hok hr
  rw [failJob_of_erase hg] at hlead
  have q : QuietErase s u := (setProgress_quietErase 0#32 s).trans q
  refine ⟨u.finish code, completes_of_leads he hlead rfl, q.finished code, ?_, q.sfdp, hreqs⟩
  rw [State.finish_handle, q.handle, hpro, hl.count]
  simp

/-! ### ERASE_PAGE (R220 to R223) -/

/-- Settles O29: ERASE_PAGE goes past its checks only with a page index below the page count. -/
theorem pageIndexIsChecked : Obligations.PageIndexIsChecked := by
  intro s hw page value _ _ hpage
  rcases execErasePage_cases page value s with hrefused | ⟨_, -, -, hlt, -⟩
  · exact hrefused
  · have hge : s.pageCount ≤ page.toNat := by
      rcases hpage with hzero | hsize
      · simp [State.pageCount, hzero]
      · exact Nat.le_of_lt_succ (Nat.div_lt_of_lt_mul (by rwa [Nat.mul_comm]))
    exact absurd hlt (Nat.not_lt.mpr hge)

/-- ERASE_PAGE past its checks. -/
theorem execErasePage_eq {s : State} {hw : HwFamily} {page : Word32} (value : Byte) (h : ReadyOn s hw)
    (hd : s.port.din = []) (hpage : page.toNat < s.pageCount) :
    execErasePage page value s =
      .next ((s.setProgress 0#32).nextJob (s.erasePageJobs hw page.toNat value) .erasePage).advance := by
  have hfam := hardwareFamily_of_readyOn h
  obtain ⟨hr, -, hs⟩ := h
  have hsize : s.sizeOk = true := (pow2_iff _).mpr hs
  rw [execErasePage, (readyFamily_of (List.length_eq_zero_iff.mpr hd) hr).trans hfam]
  simp [hsize, Nat.not_le.mpr hpage, nextJob_issueJob]

theorem pageSize_pos {s : State} (h : s.handle.pageSize ≠ 0) : 0 < s.handle.pageSize.toNat :=
  Nat.pos_of_ne_zero fun hzero => h (BitVec.eq_of_toNat_eq hzero)

/-- A filled page is one unit (R223). -/
theorem fillPage_jobsOf (s : State) {hw : HwFamily} (page : Nat) (value : Byte) (hp : 0 < s.handle.pageSize.toNat)
    (he : s.eps hw = s.handle.pageSize.toNat) :
    JobsOf s.wireCtx hw false (s.fillPage hw page value)
      [(s.wireCtx.chunkFrame hw (page * s.handle.pageSize.toNat) (List.replicate s.handle.pageSize.toNat value),
        s.handle.writeDelayMs)] := by
  obtain ⟨w, hjob⟩ := fillPage_jobs hw page value s hp he
  rw [hjob]
  exact List.Forall₂.cons ⟨w, rfl⟩ List.Forall₂.nil

/-- The units of ERASE_PAGE: its frames, each with the write delay (R220). -/
theorem erasePageJobs_jobsOf (s : State) (hw : HwFamily) (page : Nat) (value : Byte)
    (hp : 0 < s.handle.pageSize.toNat) :
    JobsOf s.wireCtx hw false (s.erasePageJobs hw page value)
      ((pageFrames s hw page value).map fun f => (f, s.handle.writeDelayMs)) := by
  cases hw with
  | i2cEe => exact fillPage_jobsOf s page value hp rfl
  | spiNorSfdp => exact fillPage_jobsOf s page value hp rfl
  | spiNarrow =>
    rw [pageFrames, List.map_map]
    exact narrowPage_jobsOf _ value s

section
variable {s : State} {hw : HwFamily} {page : Word32} {value : Byte} {a : Answers} (hready : ReadyOn s hw)
  (hd : s.port.din = []) (hp : s.handle.pageSize ≠ 0)
  (hpage : page.toNat < s.handle.size.toNat / s.handle.pageSize.toNat)
include hready hd hp hpage

/-- An ERASE_PAGE whose answers all succeed sends its frames, and ends with PROGRESS 1 (R220). -/
theorem erasePage_success
    (h : s.answers.success
      ((pageFrames s hw page.toNat value).flatMap fun f => modifyRequests s.wireCtx hw f s.handle.writeDelayMs) =
        some a) :
    ∃ t, Completes (.erasePage page value) s t ∧ Finished s t 0 s.port.dout ∧
      t.handle = { s.handle with progress := 1 } ∧ t.sfdp = s.sfdp ∧
      t.requests = s.requests ++
        ((pageFrames s hw page.toNat value).flatMap fun f => modifyRequests s.wireCtx hw f s.handle.writeDelayMs) ∧
      t.answers = a := by
  have hreqs := (erasePageJobs_jobsOf s hw page.toNat value (pageSize_pos hp)).requests
  rw [List.flatMap_map] at hreqs
  rw [← hreqs] at h ⊢
  obtain ⟨u, hl, hran, -⟩ := jobs_success (s.erasePageJobs hw page.toNat value) [] .erasePage (s.setProgress 0#32) a h
  rw [List.append_nil] at hl
  have q : QuietErase s (u.setProgress 1#32) :=
    ((setProgress_quietErase 0#32 s).trans hran.quiet).trans (setProgress_quietErase 1#32 u)
  have he := execErasePage_eq value hready hd hpage
  exact ⟨(u.setProgress 1#32).finish ErrorName.ok.code, completes_of_leads he hl rfl, q.finished _, q.handle,
    q.sfdp, hran.requests, hran.answers⟩

end

/-- Settles O27: the page is one chunk (`pageFrames`), so the requests are those of one MODIFY. -/
theorem erasePageFillsThePage : Obligations.ErasePageFillsThePage := by
  intro s hw page value a hready hnarrow hd hp hpage p reqs h
  have hframes : pageFrames s hw page.toNat value =
      [s.wireCtx.chunkFrame hw (page.toNat * p) (List.replicate p value)] := by
    cases hw with
    | spiNarrow => exact absurd rfl hnarrow
    | i2cEe => rfl
    | spiNorSfdp => rfl
  have hreqs : reqs = (pageFrames s hw page.toNat value).flatMap fun f =>
      modifyRequests s.wireCtx hw f s.handle.writeDelayMs := by
    rw [hframes, List.flatMap_singleton]
  rw [hreqs] at h ⊢
  exact erasePage_success hready hd hp hpage h

/-- Settles O28: the frames of a narrow page are one for each byte. -/
theorem narrowErasePageGoesByteByByte : Obligations.NarrowErasePageGoesByteByByte := by
  intro s page value a hready hd hp hpage p frame reqs h
  have hreqs : reqs = (pageFrames s .spiNarrow page.toNat value).flatMap fun f =>
      modifyRequests s.wireCtx .spiNarrow f s.handle.writeDelayMs := by
    rw [pageFrames, List.flatMap_map]
  rw [hreqs] at h ⊢
  exact erasePage_success hready hd hp hpage h

/-- Settles O30: `units_failure`; the units of ERASE_PAGE do not count in PROGRESS. -/
theorem failedErasePageLeavesProgressZero : Obligations.FailedErasePageLeavesProgressZero := by
  intro s hw page value before after f a code sent hready hd hp hpage hframes reqs h hf
  have hjobs := erasePageJobs_jobsOf s hw page.toNat value (pageSize_pos hp)
  rw [hframes, List.map_append, List.map_cons] at hjobs
  have hreqs : reqs = (before.map fun f => (f, s.handle.writeDelayMs)).flatMap fun u =>
      modifyRequests s.wireCtx hw u.1 u.2 := by rw [List.flatMap_map]
  rw [hreqs] at h ⊢
  exact units_failure (i := .erasePage page value) (execErasePage_eq value hready hd hpage) (by simp) hjobs h hf

/-! ### ERASE past its entry checks (R224 to R231) -/

/-- The units of a fill (R227); with page size 0 there are none (log 14). -/
theorem fill_jobsOf_fillUnits (s : State) {hw : HwFamily} (value : Byte) (he : s.eps hw = s.handle.pageSize.toNat) :
    JobsOf s.wireCtx hw true (s.fill hw value) (fillUnits s hw value) := by
  rcases Nat.eq_zero_or_pos s.handle.pageSize.toNat with hp | hp
  · have hcount : s.pageCount = 0 := by rw [State.pageCount, hp, Nat.div_zero]
    rw [State.fill, fillUnits, hcount, hp, Nat.div_zero]
    exact List.Forall₂.nil
  · exact fill_jobsOf hw value s hp he

/-- The units of a byte loop (R226). -/
theorem eraseUnits_narrowFill {s : State} {value : Byte} (hv : value ≠ 0xFF#8) :
    eraseUnits s .spiNarrow value =
      (List.range s.handle.size.toNat).map fun x => (s.wireCtx.nWrite x value, s.handle.writeDelayMs) := if_neg hv

/-- The units of an erase by sectors (R229). -/
theorem eraseUnits_sectors {s : State} (hop : s.sfdp.erase4kOp ≠ 0#8) :
    eraseUnits s .spiNorSfdp 0xFF#8 =
      (List.range s.sectorCount).map fun i => (s.wireCtx.fSe4k (4096 * i), s.cfg.norSectorDelayMs) :=
  if_pos ⟨hop, rfl⟩

/-- Without a sector erase for the value SPI_NOR_SFDP is filled page by page (R230). -/
theorem eraseUnits_norFill {s : State} {value : Byte} (h : ¬ (s.sfdp.erase4kOp ≠ 0#8 ∧ value = 0xFF#8)) :
    eraseUnits s .spiNorSfdp value = fillUnits s .spiNorSfdp value := if_neg h

/-- The jobs of an ERASE are one MODIFY for each of its units, which all count in PROGRESS (R226 to R231). -/
theorem eraseJobs_jobsOf (s : State) (hw : HwFamily) (value : Byte) :
    JobsOf s.wireCtx hw true (s.eraseJobs hw value) (eraseUnits s hw value) := by
  cases hw with
  | i2cEe => exact fill_jobsOf_fillUnits s value rfl
  | spiNarrow =>
    by_cases hv : value = 0xFF#8
    · subst hv
      exact eraseAll_jobsOf s
    · rw [State.eraseJobs, State.eraseNarrow, if_neg hv, eraseUnits_narrowFill hv]
      exact narrowFill_jobsOf value s
  | spiNorSfdp =>
    by_cases hv : s.sfdp.erase4kOp ≠ 0#8 ∧ value = 0xFF#8
    · obtain ⟨hop, rfl⟩ := hv
      rw [State.eraseJobs, if_pos ⟨hop, rfl⟩, eraseUnits_sectors hop]
      exact sectors_jobsOf s
    · rw [State.eraseJobs, if_neg hv, eraseUnits_norFill hv]
      exact fill_jobsOf_fillUnits s value rfl

section
variable {s : State} {hw : HwFamily} {value : Byte} (hready : ReadyOn s hw) (hd : s.port.din = [])
  (hparsed : hw = .spiNorSfdp → s.sfdp.state = .parsed)
include hready hd hparsed

/-- ERASE on a READY handle, with no discovery to run, sends its jobs. -/
theorem exec_erase :
    exec (.erase value) s = .next ((s.setProgress 0#32).nextJob (s.eraseJobs hw value) .erase).advance := by
  have hfam := hardwareFamily_of_readyOn hready
  obtain ⟨hr, -, hs⟩ := hready
  exact execErase_eq value hd hr hfam hs hparsed

/-- An ERASE whose answers all succeed sends its units, and PROGRESS is their number (R231, R232). -/
theorem eraseUnits_success {a : Answers} {units : List (Request × Word32)} (hunits : eraseUnits s hw value = units)
    (h : s.answers.success (units.flatMap fun u => modifyRequests s.wireCtx hw u.1 u.2) = some a) :
    ∃ t, Completes (.erase value) s t ∧ Finished s t 0 s.port.dout ∧
      t.handle = { s.handle with progress := BitVec.ofNat 32 units.length } ∧ t.sfdp = s.sfdp ∧
      t.requests = s.requests ++ (units.flatMap fun u => modifyRequests s.wireCtx hw u.1 u.2) ∧ t.answers = a := by
  subst hunits
  have hjobs := eraseJobs_jobsOf s hw value
  rw [← hjobs.requests] at h ⊢
  have hend := erase_success (exec_erase hready hd hparsed) h
  rw [hjobs.count] at hend
  exact hend

/-- The same where the units are numbered, as in the byte loop, the fill and the sector loop. -/
theorem eraseRange_success {a : Answers} {n : Nat} {frame : Nat → Request} {ms : Word32}
    (hunits : eraseUnits s hw value = (List.range n).map fun i => (frame i, ms))
    (h : s.answers.success ((List.range n).flatMap fun i => modifyRequests s.wireCtx hw (frame i) ms) = some a) :
    ∃ t, Completes (.erase value) s t ∧ Finished s t 0 s.port.dout ∧
      t.handle = { s.handle with progress := BitVec.ofNat 32 n } ∧ t.sfdp = s.sfdp ∧
      t.requests = s.requests ++ ((List.range n).flatMap fun i => modifyRequests s.wireCtx hw (frame i) ms) ∧
      t.answers = a := by
  have hend := eraseUnits_success (a := a) hready hd hparsed hunits (by rw [List.flatMap_map]; exact h)
  rwa [List.flatMap_map, List.length_map, List.length_range] at hend

end

/-- Settles O32: the units are the bytes from 0 to SIZE - 1. -/
theorem narrowEraseWritesEveryByte : Obligations.NarrowEraseWritesEveryByte := by
  intro s value a hready hd hv reqs h
  have hend := eraseRange_success (value := value) hready hd (by simp) (eraseUnits_narrowFill hv) h
  rwa [BitVec.ofNat_toNat, BitVec.setWidth_eq] at hend

/-- Settles O33: the units are the pages, on either family. -/
theorem eraseFillsPageByPage : Obligations.EraseFillsPageByPage := by
  intro s hw value a hready hd _ hfam p np reqs h
  have hparsed : hw = .spiNorSfdp → s.sfdp.state = .parsed := by
    rintro rfl
    rcases hfam with h | ⟨-, hparsed, -⟩
    · cases h
    · exact hparsed
  have hunits : eraseUnits s hw value = fillUnits s hw value := by
    rcases hfam with rfl | ⟨rfl, -, hfill⟩
    · rfl
    · exact eraseUnits_norFill fun ⟨hop, hv⟩ => hfill.elim hop fun hne => hne hv
  exact eraseRange_success hready hd hparsed hunits h

/-- Settles O34: the units are the sectors. -/
theorem eraseUsesSectorErases : Obligations.EraseUsesSectorErases := by
  intro s a hready hd hparsed hop n reqs h
  exact eraseRange_success hready hd (fun _ => hparsed) (eraseUnits_sectors hop) h

/-- Settles O35: `units_failure`; the units of ERASE count in PROGRESS. -/
theorem failedUnitStopsTheErase : Obligations.FailedUnitStopsTheErase := by
  intro s hw value before after f ms a code sent hready hd hparsed hunits reqs h hf
  have hjobs := eraseJobs_jobsOf s hw value
  rw [hunits] at hjobs
  exact units_failure (exec_erase hready hd hparsed) (by simp) hjobs h hf

/-! ### ERASE that discovers first (R224, R228) -/

/-- ERASE from check 6 on does not read the working registers or what was due: it writes both. -/
theorem startErase_of_idle (hw : HwFamily) (value : Byte) (s : State) :
    State.startErase hw value { s with work := none, pending := none } = s.startErase hw value := by
  have hjobs : State.eraseJobs hw value { s with work := none, pending := none } = s.eraseJobs hw value := rfl
  have hsize : State.sizeOk { s with work := none, pending := none } = s.sizeOk := rfl
  rw [State.startErase, State.startErase, hjobs, hsize]
  split
  · rfl
  · cases s.eraseJobs hw value <;> rfl

/-- ERASE on a BOUND handle reads the SFDP header first. -/
theorem execErase_of_bound {s : State} (value : Byte) (hd : s.port.din = []) (hb : s.handle.hstate = .bound)
    (hf : s.handle.family = .spiNorSfdp) (hp : s.sfdp.state ≠ .parsed) :
    execErase value s = .next (readHeader (.erase value) s) := by
  simp [execErase, State.eraseFamily, State.dinIs, hd, hb, hf, hp]

/-- ERASE on a READY handle whose discovery has succeeded goes on to check 6. -/
theorem execErase_of_parsed {s : State} (value : Byte) (hd : s.port.din = []) (hr : s.handle.hstate = .ready)
    (hf : s.handle.family = .spiNorSfdp) (hp : s.sfdp.state = .parsed) :
    execErase value s = .next (s.startErase .spiNorSfdp value).advance := by
  simp [execErase, eraseFamily_of_ready hd hr, hardwareFamily, hf, hp, startErase_issueJob]

/-- An ERASE handed over in the state that a discovery leaves runs as one whose own discovery that was. -/
theorem completes_erase_of_parsed {u t : State} {value : Byte} (hd : u.port.din = []) (hr : u.handle.hstate = .ready)
    (hf : u.handle.family = .spiNorSfdp) (hp : u.sfdp.state = .parsed)
    (hl : Leads (u.startErase .spiNorSfdp value) t) (ht : t.pending = none) :
    Completes (.erase value) { u with work := none, pending := none } t := by
  rw [← startErase_of_idle] at hl
  exact completes_of_leads (execErase_of_parsed value hd hr hf hp) hl ht

/-- Settles O37: DISCOVER's discovery is ERASE's (`discovery_ends`); after a success the erase from DISCOVER's state
starts as the one in progress does. -/
theorem eraseDiscoversFirst : Obligations.EraseDiscoversFirst := by
  intro s d value hd hb hf hp hdisc
  obtain ⟨o, u, rest, ends⟩ := discovery_ends s
  have herase : exec (.erase value) s = .next (readHeader (.erase value) s) := execErase_of_bound value hd hb hf hp
  have hfirst : exec .discover s = .next (readHeader .discover s) := execDiscover_eq hd (by simp [hb]) hf
  rcases ends.result with ⟨c, rfl, hneg, -⟩ | ⟨rfl, h, tab, hdr, tb, hparsed, -⟩
  · obtain rfl : d = u.finish c := hdisc.unique ⟨reaches_iff.mpr ⟨_, hfirst, ends.leads .discover⟩, rfl⟩
    refine ⟨fun _ => ⟨reaches_iff.mpr ⟨_, herase, ends.leads (.erase value)⟩, rfl⟩, fun hzero => ?_⟩
    obtain rfl : c = 0 := hzero
    simp at hneg
  · obtain rfl : d = u.finish ErrorName.ok.code :=
      hdisc.unique ⟨reaches_iff.mpr ⟨_, hfirst, ends.leads .discover⟩, rfl⟩
    refine ⟨fun hne => absurd rfl hne, fun _ => ?_⟩
    obtain ⟨t, hlead, hconcl⟩ := endDiscovery_concludes (.erase value) none u
    refine ⟨t, ⟨reaches_iff.mpr ⟨_, herase, (ends.leads _).trans hlead⟩, hconcl.pending⟩, ?_⟩
    have hport : { u.port with busy := s.port.busy, status := s.port.status } = u.port := by rw [ends.reads.port]
    change Completes (.erase value)
      { u with
        port := { u.port with busy := s.port.busy, status := s.port.status }, work := none, pending := none } t
    rw [hport]
    refine completes_erase_of_parsed ?_ ?_ ?_ ?_ hlead hconcl.pending
    · exact (congrArg Port.din ends.reads.port).trans hd
    · exact congrArg Handle.hstate hparsed.handle
    · exact (congrArg Handle.family hparsed.handle).trans hf
    · exact congrArg Sfdp.state hparsed.sfdp

end Sys2Proof.Machine
end

section
/-! PROOFS, SFDP discovery (43_sfdp.md R240 to R264). The parsers accept what passes their checks (`headerOk_iff`,
`parseTable_accepts_iff`) and refuse the rest; `readHeader_listed_ok` and `readTable_listed_ok`, each with its `_error`,
are the two steps of a discovery on listed answers, and `discover_accepts_table` and `discover_rejects_table` put them
together. -/

namespace Sys2Proof.Machine

open Sys2Proof.Claims

/-! ### The density word (R259, R260) -/

/-- The exponent alone decides whether 2^exponent bits fit 32 bits of bytes. -/
theorem bytesOfExponent_eq (e : Nat) :
    bytesOfExponent e = if 2 ^ e / 8 < 2 ^ 32 then some (BitVec.ofNat 32 (2 ^ e / 8)) else none := by
  have hfits : 2 ^ e / 8 < 2 ^ 32 ↔ e < 35 := by
    rw [Nat.div_lt_iff_lt_mul (by decide), show 2 ^ 32 * 8 = 2 ^ 35 from rfl]
    exact Nat.pow_lt_pow_iff_right (by decide)
  simp only [bytesOfExponent, hfits]

/-- Settles O43: a word with bit 31 clear always fits; with bit 31 set, `bytesOfExponent_eq`. -/
theorem densityRules : Obligations.DensityRules := by
  intro w hw e bits r
  by_cases hlow : w < 2 ^ 31
  · have hbit : w / 2 ^ 31 % 2 = 0 := by omega
    have he : e < 2 ^ 31 := Nat.mod_lt _ (by decide)
    cases r with
    | doc =>
      have hbits : bits .doc = e := if_pos hlow
      rw [densityBytes, if_pos hbit, hbits, if_pos (by omega)]
    | jedec =>
      have hbits : bits .jedec = e + 1 := if_pos hlow
      rw [densityBytes, if_pos hbit, hbits, if_pos (by omega)]
  · have hbit : ¬ w / 2 ^ 31 % 2 = 0 := by omega
    cases r with
    | doc =>
      have hbits : bits .doc = 2 ^ (e + 1) := if_neg hlow
      rw [densityBytes, if_neg hbit, hbits]
      exact bytesOfExponent_eq (e + 1)
    | jedec =>
      have hbits : bits .jedec = 2 ^ e := if_neg hlow
      rw [densityBytes, if_neg hbit, hbits]
      exact bytesOfExponent_eq e

/-! ### The header (R244 to R247) -/

theorem byteAt_of_getElem? {l : List Byte} {i : Nat} {b : Byte} (h : l[i]? = some b) : byteAt l i = b := by
  rw [byteAt, List.getD_eq_getElem?_getD, h, Option.getD_some]

theorem getElem?_eq_byteAt {l : List Byte} {i : Nat} (h : i < l.length) : l[i]? = some (byteAt l i) := by
  rw [List.getElem?_eq_getElem h, byteAt_of_getElem? (List.getElem?_eq_getElem h)]

/-- The header checks, as the parser reads the bytes. -/
theorem headerOk_iff {h : List Byte} (hl : h.length = 15) :
    HeaderOk h ↔ h.take 4 = signature ∧ byteAt h 7 = 0xFF#8 ∧ 2 ≤ (byteAt h 11).toNat := by
  have h7 : h[7]? = some (byteAt h 7) := getElem?_eq_byteAt (by omega)
  have h11 : h[11]? = some (byteAt h 11) := getElem?_eq_byteAt (by omega)
  simp [HeaderOk, signature, h7, h11]

/-- A header that passes its checks is decoded (R247). -/
theorem parseHeader_of_ok {h : List Byte} (hl : h.length = 15) (hok : HeaderOk h) :
    parseHeader h =
      .ok
        { hv := byteAt h 5 ++ byteAt h 4, hc := byteAt h 6, pv := byteAt h 10 ++ byteAt h 9
          ps := BitVec.ofNat 16 (4 * (byteAt h 11).toNat), pp := BitVec.ofNat 24 (leNat ((h.drop 12).take 3)) } := by
  obtain ⟨hsig, hid, hdw⟩ := (headerOk_iff hl).mp hok
  rw [parseHeader, if_neg (not_not.mpr hsig), if_neg (not_not.mpr hid), if_neg (Nat.not_lt.mpr hdw), Nat.mul_comm]

/-- A header that fails a check is refused, with a code of its own for the signature (R244, R245, R246). -/
theorem parseHeader_of_not_ok {h : List Byte} (hl : h.length = 15) (hbad : ¬ HeaderOk h) :
    parseHeader h = .error (if h.take 4 ≠ signature then .sfdpNotSupported else .sfdpInvalidHeader) := by
  rw [headerOk_iff hl] at hbad
  by_cases hsig : h.take 4 = signature
  · by_cases hid : byteAt h 7 = 0xFF#8
    · have hdw : (byteAt h 11).toNat < 2 := Nat.not_le.mp fun hdw => hbad ⟨hsig, hid, hdw⟩
      simp [parseHeader, hsig, hid, hdw]
    · simp [parseHeader, hsig, hid]
  · simp [parseHeader, hsig]

/-- The size of the table, in bytes, is four times header byte 11 (R247). -/
theorem tableSize_toNat (n : Byte) : (BitVec.ofNat 16 (4 * n.toNat)).toNat = 4 * n.toNat := by
  rw [BitVec.toNat_ofNat, Nat.mod_eq_of_lt (by have := n.isLt; omega)]

/-- Two bytes, the more significant one first, as a number. -/
theorem append_eq_ofNat (b c : Byte) : b ++ c = BitVec.ofNat 16 (b.toNat * 256 + c.toNat) := by
  apply BitVec.eq_of_toNat_eq
  have hb := b.isLt
  have hc := c.isLt
  rw [BitVec.toNat_append, ← Nat.shiftLeft_add_eq_or_of_lt hc, Nat.shiftLeft_eq, BitVec.toNat_ofNat]
  omega

/-- What the bytes of a header say, in numbers (R247). -/
def headerOf (h4 h5 h6 h9 h10 h11 h12 h13 h14 : Byte) : Header where
  hv := BitVec.ofNat 16 (h5.toNat * 256 + h4.toNat)
  hc := h6
  pv := BitVec.ofNat 16 (h10.toNat * 256 + h9.toNat)
  ps := BitVec.ofNat 16 (4 * h11.toNat)
  pp := BitVec.ofNat 24 (h12.toNat + 256 * h13.toNat + 65536 * h14.toNat)

/-- The same for a header of fifteen bytes, in numbers. -/
theorem parseHeader_fifteen {h0 h1 h2 h3 h4 h5 h6 h7 h8 h9 h10 h11 h12 h13 h14 : Byte}
    (hok : HeaderOk [h0, h1, h2, h3, h4, h5, h6, h7, h8, h9, h10, h11, h12, h13, h14]) :
    parseHeader [h0, h1, h2, h3, h4, h5, h6, h7, h8, h9, h10, h11, h12, h13, h14] =
      .ok (headerOf h4 h5 h6 h9 h10 h11 h12 h13 h14) := by
  have hpp : leNat [h12, h13, h14] = h12.toNat + 256 * h13.toNat + 65536 * h14.toNat := by
    simp only [leNat]
    omega
  rw [headerOf, ← append_eq_ofNat, ← append_eq_ofNat, ← hpp]
  exact parseHeader_of_ok rfl hok

/-! ### The table (R252 to R260) -/

/-- A bit field of a byte, as a number. -/
theorem extractLsb'_eq_iff {b : Byte} {start len : Nat} {v : BitVec len} :
    b.extractLsb' start len = v ↔ b.toNat / 2 ^ start % 2 ^ len = v.toNat := by
  rw [← BitVec.toNat_inj, extractLsb'_toNat_div]

/-- A bit of a byte, as a number. -/
theorem getLsbD_eq_decide (b : Byte) (i : Nat) : b.getLsbD i = decide (b.toNat / 2 ^ i % 2 = 1) := by
  rw [← BitVec.testBit_toNat, Nat.testBit_eq_decide_div_mod_eq]

/-- ADDRBYTES of bits 2 and 1 of table byte 2, code by code (R256). -/
theorem addrBytesOf_eq_some_iff {p : AddrBytesRsvd} {b ab : Byte} :
    addrBytesOf p (b.extractLsb' 1 2) = some ab ↔
      b.toNat / 2 % 4 = 0 ∧ ab = 3 ∨ b.toNat / 2 % 4 = 1 ∧ ab = 3 ∨ b.toNat / 2 % 4 = 2 ∧ ab = 4 ∨
        b.toNat / 2 % 4 = 3 ∧ p = .four ∧ ab = 4 := by
  have hcode : (b.extractLsb' 1 2).toNat = b.toNat / 2 % 4 := extractLsb'_toNat_div b 1 2
  have hlt : b.toNat / 2 % 4 < 4 := Nat.mod_lt _ (by decide)
  unfold addrBytesOf
  rw [hcode]
  generalize b.toNat / 2 % 4 = code at hlt
  interval_cases code
  · simp [eq_comm]
  · simp [eq_comm]
  · simp [eq_comm]
  · cases p <;> simp [eq_comm]

/-- Only a reserved code under FAIL gives no address bytes (R256). -/
theorem addrBytesOf_isSome {p : AddrBytesRsvd} {b : Byte} :
    (∃ ab, addrBytesOf p (b.extractLsb' 1 2) = some ab) ↔ b.toNat / 2 % 4 ≠ 3 ∨ p = .four := by
  have hlt : b.toNat / 2 % 4 < 4 := Nat.mod_lt _ (by decide)
  simp only [addrBytesOf_eq_some_iff]
  generalize b.toNat / 2 % 4 = code at hlt
  interval_cases code <;> simp

/-- The checks of the table, as the parser reads the bytes, and what it then reads (R252 to R260). -/
theorem parseTable_eq_ok_iff {p : Params} {t : List Byte} {tb : Table} :
    parseTable p t = .ok tb ↔
      (byteAt t 0).extractLsb' 5 3 = 0b111#3 ∧ (byteAt t 2).getLsbD 7 = true ∧ byteAt t 3 = 0xFF#8 ∧
        ∃ ab bytes, addrBytesOf p.addrBytesRsvd ((byteAt t 2).extractLsb' 1 2) = some ab ∧
          densityBytes p.densityRule (leNat ((t.drop 4).take 4)) = some bytes ∧
          tb =
            { gran := if (byteAt t 0).getLsbD 2 then 64#8 else 1#8, ab := ab
              e4k := if (byteAt t 0).extractLsb' 0 2 = 0b11#2 then 0#8 else byteAt t 1
              dtr := (byteAt t 2).getLsbD 3, bytes := bytes } := by
  constructor
  · intro h
    unfold parseTable at h
    split at h
    · cases h
    next h0 =>
    split at h
    · cases h
    next h2 =>
    split at h
    · cases h
    next h3 =>
    split at h
    · cases h
    next ab hab =>
    split at h
    · cases h
    next bytes hbytes =>
    cases h
    exact ⟨not_not.mp h0, not_not.mp h2, not_not.mp h3, ab, bytes, hab, hbytes, rfl⟩
  · rintro ⟨h0, h2, h3, ab, bytes, hab, hbytes, rfl⟩
    rw [parseTable, if_neg (not_not.mpr h0), if_neg (not_not.mpr h2), if_neg (not_not.mpr h3), hab]
    dsimp only
    rw [hbytes]

/-- What table bytes 0, 1 and 2 say, in numbers, beside the address bytes and the size (R255 to R258). -/
def tableOf (t0 t1 t2 ab : Byte) (bytes : Word32) : Table where
  gran := if t0.toNat / 4 % 2 = 1 then 64 else 1
  ab := ab
  e4k := if t0.toNat % 4 = 3 then 0 else t1
  dtr := decide (t2.toNat / 8 % 2 = 1)
  bytes := bytes

section
variable {p : Params} {t0 t1 t2 t3 t4 t5 t6 t7 : Byte}

/-- The same for a table of eight bytes, in numbers. -/
theorem parseTable_eight_iff {tb : Table} :
    parseTable p [t0, t1, t2, t3, t4, t5, t6, t7] = .ok tb ↔
      t0.toNat / 32 = 7 ∧ t2.toNat / 128 = 1 ∧ t3 = 0xFF ∧
        ∃ ab bytes, addrBytesOf p.addrBytesRsvd (t2.extractLsb' 1 2) = some ab ∧
          densityBytes p.densityRule (t4.toNat + 256 * t5.toNat + 65536 * t6.toNat + 16777216 * t7.toNat) = some bytes ∧
          tb = tableOf t0 t1 t2 ab bytes := by
  have h0 : t0.extractLsb' 5 3 = 0b111#3 ↔ t0.toNat / 32 = 7 := by
    rw [extractLsb'_eq_iff]
    have := t0.isLt
    norm_num
    omega
  have h2 : t2.getLsbD 7 = true ↔ t2.toNat / 128 = 1 := by
    rw [getLsbD_eq_decide, decide_eq_true_iff]
    have := t2.isLt
    norm_num
    omega
  have he4k : t0.extractLsb' 0 2 = 0b11#2 ↔ t0.toNat % 4 = 3 := by
    rw [extractLsb'_eq_iff]
    norm_num
  have hw : leNat [t4, t5, t6, t7] = t4.toNat + 256 * t5.toNat + 65536 * t6.toNat + 16777216 * t7.toNat := by
    simp only [leNat]
    omega
  have hread : ∀ ab bytes, tableOf t0 t1 t2 ab bytes =
      { gran := if t0.getLsbD 2 then 64#8 else 1#8, ab := ab
        e4k := if t0.extractLsb' 0 2 = 0b11#2 then 0#8 else t1, dtr := t2.getLsbD 3, bytes := bytes } := by
    intro ab bytes
    simp only [tableOf, getLsbD_eq_decide, he4k, decide_eq_true_iff]
    rfl
  simp only [← h0, ← h2, ← hw, hread]
  exact parseTable_eq_ok_iff

/-- The eight bytes break no check of the table (R252 to R254, R256, R260). -/
def TableOk (p : Params) (t0 t2 t3 t4 t5 t6 t7 : Byte) : Prop :=
  t0.toNat / 32 = 7 ∧ t2.toNat / 128 = 1 ∧ t3 = 0xFF ∧ (t2.toNat / 2 % 4 ≠ 3 ∨ p.addrBytesRsvd = .four) ∧
    densityBytes p.densityRule (t4.toNat + 256 * t5.toNat + 65536 * t6.toNat + 16777216 * t7.toNat) ≠ none

theorem parseTable_accepts_iff :
    (∃ tb, parseTable p [t0, t1, t2, t3, t4, t5, t6, t7] = .ok tb) ↔ TableOk p t0 t2 t3 t4 t5 t6 t7 := by
  simp only [parseTable_eight_iff, TableOk, ← addrBytesOf_isSome, Option.ne_none_iff_exists']
  constructor
  · rintro ⟨tb, h0, h2, h3, ab, bytes, hab, hbytes, -⟩
    exact ⟨h0, h2, h3, ⟨ab, hab⟩, bytes, hbytes⟩
  · rintro ⟨h0, h2, h3, ⟨ab, hab⟩, bytes, hbytes⟩
    exact ⟨_, h0, h2, h3, ab, bytes, hab, hbytes, rfl⟩

theorem parseTable_of_not_ok (h : ¬ TableOk p t0 t2 t3 t4 t5 t6 t7) :
    parseTable p [t0, t1, t2, t3, t4, t5, t6, t7] = .error .sfdpInvalidHeader := by
  cases hp : parseTable p [t0, t1, t2, t3, t4, t5, t6, t7] with
  | error e => rw [parseTable_error hp]
  | ok tb => exact absurd (parseTable_accepts_iff.mp ⟨tb, hp⟩) h

end

/-! ### DISCOVER, whatever the answers (R263, R264, R267) -/

theorem exec_discover {s : State} (hd : s.port.din = []) (hu : s.handle.hstate ≠ .uninit)
    (hf : s.handle.family = .spiNorSfdp) : exec .discover s = .next (readHeader .discover s) := execDiscover_eq hd hu hf

theorem Reads.finished {s u : State} {reqs : List Request} (r : Reads s u reqs) (v : Word32) :
    Finished s (u.finish v) v s.port.dout := finish_finished (d := s.port.dout) r.port r.cfg r.hostIn v

theorem DiscoveryFailed.kept {s u : State} (d : DiscoveryFailed s u) (v : Word32) :
    KeptByFailedDiscovery s (u.finish v) := ⟨d.handle, d.sfdp⟩

/-- Settles O40: the two results of `discovery_ends`. -/
theorem discoverEndsParsedOrFailed : Obligations.DiscoverEndsParsedOrFailed := by
  intro s hd hu hf
  obtain ⟨o, u, rest, ends⟩ := discovery_ends s
  have hreq : u.requests = s.requests ++ spiRequest s s.cfg.nor.rdsfdpOpc 8 0 24 8 [] 15 :: rest := by
    rw [ends.reads.requests, headerRequest_eq]
  have hcompletes (v : Word32) (hv : u.endDiscovery .discover o = u.finish v) : Completes .discover s (u.finish v) :=
    ⟨reaches_iff.mpr ⟨_, exec_discover hd hu hf, hv ▸ ends.leads .discover⟩, rfl⟩
  rcases ends.result with ⟨c, rfl, hneg, hfailed⟩ | ⟨rfl, h, tab, hdr, tb, hparsed, -⟩
  · exact ⟨u.finish c, c, hcompletes c rfl, ends.reads.finished c, .inr ⟨hfailed.kept c, hneg⟩, rest,
      ends.atMostOne, hreq⟩
  · exact ⟨u.finish 0, 0, hcompletes 0 rfl, ends.reads.finished 0,
      .inl ⟨congrArg Sfdp.state hparsed.sfdp, congrArg Handle.hstate hparsed.handle, rfl⟩, rest, ends.atMostOne, hreq⟩

/-! ### The two reads on listed answers (R241, R249) -/

@[simp] theorem State.afterXfer_cfg (s : State) (r : Request) (a : XferAnswer) (rest : List XferAnswer) :
    (s.afterXfer r a rest).cfg = s.cfg := rfl

/-- An SFDP read whose listed answer has the bytes asked for (R171, R306). -/
theorem transport_sfdpRead_listed (st : SfdpState) (y : Nat) {n : Nat} {s : State} {data : List Byte}
    {rest : List XferAnswer} (hx : s.answers.xfer = .ok data :: rest) (hl : data.length = n) :
    transport ((s.setSfdpState st).wireCtx.fRdsfdp y n) (s.setSfdpState st) =
      (.okr data, (s.setSfdpState st).afterXfer (s.wireCtx.fRdsfdp y n) (.ok data) rest) := by
  have hok : (XferAnswer.ok data).result n = .okr data := if_pos hl
  rw [← hok]
  exact transport_spiXfer_listed _ (s.setSfdpState st) _ rest hx

/-- `s` once its header read has delivered `h` (R241, R242). -/
def State.withHeader (h : List Byte) (rest : List XferAnswer) (s : State) : State :=
  ((s.setSfdpState .headerRead).afterXfer (s.wireCtx.fRdsfdp 0 15) (.ok h) rest).setHdrBuf h

/-- `s` once its table read has delivered `data` (R241, R249). -/
def State.withTable (hd : Header) (data : List Byte) (rest : List XferAnswer) (s : State) : State :=
  ((s.setSfdpState .tableRead).afterXfer (s.wireCtx.fRdsfdp hd.pp.toNat hd.ps.toNat) (.ok data) rest).setPtBuf
    (data.take 8)

theorem withHeader_reads (h : List Byte) (rest : List XferAnswer) (s : State) :
    Reads s (s.withHeader h rest) [s.wireCtx.fRdsfdp 0 15] :=
  ⟨rfl, rfl, rfl, rfl, List.prefix_append _ _, by simp [State.requests, State.withHeader, State.afterXfer]⟩

theorem withTable_reads (hd : Header) (data : List Byte) (rest : List XferAnswer) (s : State) :
    Reads s (s.withTable hd data rest) [s.wireCtx.fRdsfdp hd.pp.toNat hd.ps.toNat] :=
  ⟨rfl, rfl, rfl, rfl, List.prefix_append _ _, by simp [State.requests, State.withTable, State.afterXfer]⟩

section
variable {s : State} {h : List Byte} {rest : List XferAnswer} (hx : s.answers.xfer = .ok h :: rest) (hl : h.length = 15)
  (who : Discoverer)
include hx hl

theorem readHeader_listed_error {e : ErrorName} (he : parseHeader h = .error e) :
    readHeader who s = (s.withHeader h rest).discoveryFailed.endDiscovery who (some e.code) := by
  simp only [readHeader, transport_sfdpRead_listed .headerRead 0 hx hl, he]
  rfl

theorem readHeader_listed_ok {hd : Header} (he : parseHeader h = .ok hd) :
    readHeader who s = (s.withHeader h rest).setPending (.table who hd) := by
  simp only [readHeader, transport_sfdpRead_listed .headerRead 0 hx hl, he]
  rfl

end

section
variable {s : State} {data : List Byte} {rest : List XferAnswer} {hd : Header}
  (hx : s.answers.xfer = .ok data :: rest) (hl : data.length = hd.ps.toNat) (who : Discoverer)
include hx hl

theorem readTable_listed_error {e : ErrorName} (he : parseTable s.cfg (data.take 8) = .error e) :
    readTable who hd s = (s.withTable hd data rest).discoveryFailed.endDiscovery who (some e.code) := by
  simp only [readTable, transport_sfdpRead_listed .tableRead hd.pp.toNat hx hl, State.setPtBuf_cfg, State.afterXfer_cfg,
    State.setSfdpState_cfg, he]
  rfl

theorem readTable_listed_ok {tb : Table} (he : parseTable s.cfg (data.take 8) = .ok tb) :
    readTable who hd s = ((s.withTable hd data rest).discoveryCommit hd tb).endDiscovery who none := by
  simp only [readTable, transport_sfdpRead_listed .tableRead hd.pp.toNat hx hl, State.setPtBuf_cfg, State.afterXfer_cfg,
    State.setSfdpState_cfg, he]
  rfl

end

/-- Settles O41: the parser refuses the header (`parseHeader_of_not_ok`) in the step of the header read. -/
theorem badHeadersFailDiscovery : Obligations.BadHeadersFailDiscovery := by
  intro s h rest hd hu hf hl hx hbad code
  have hcode : (if h.take 4 ≠ signature then ErrorName.sfdpNotSupported else .sfdpInvalidHeader).code = code :=
    apply_ite ErrorName.code _ _ _
  have hstep := readHeader_listed_error hx hl .discover (parseHeader_of_not_ok hl hbad)
  rw [hcode] at hstep
  have hr := withHeader_reads h rest s
  refine ⟨(s.withHeader h rest).discoveryFailed.finish code, (exec_discover hd hu hf).trans (congrArg _ hstep),
    (hr.trans (discoveryFailed_reads _)).finished code, ⟨rfl, rfl⟩, rfl, rfl, ?_⟩
  rw [← headerRequest_eq]
  exact hr.requests

/-! ### DISCOVER with both reads answered (R249 to R262) -/

/-- Where a DISCOVER that began in `s` stands when both its reads have delivered, before the table is checked. -/
def State.withBoth (h : List Byte) (hd : Header) (data : List Byte) (rest : List XferAnswer) (s : State) : State :=
  ((s.withHeader h (.ok data :: rest)).setPending (.table .discover hd)).withTable hd data rest

/-- The two reads changed no other register, and issued the two requests. -/
theorem withBoth_reads (h : List Byte) (hd : Header) (data : List Byte) (rest : List XferAnswer) (s : State) :
    Reads s (s.withBoth h hd data rest) [s.wireCtx.fRdsfdp 0 15, s.wireCtx.fRdsfdp hd.pp.toNat hd.ps.toNat] :=
  have hfirst := withHeader_reads h (.ok data :: rest) s
  have hdue : Reads (s.withHeader h (.ok data :: rest))
      ((s.withHeader h (.ok data :: rest)).setPending (.table .discover hd)) [] := reads_nil rfl rfl rfl rfl rfl
  (hfirst.trans hdue).trans (withTable_reads hd data rest _)

section
variable {s : State} {h data : List Byte} {rest : List XferAnswer} {hd : Header}
  (hdin : s.port.din = []) (hu : s.handle.hstate ≠ .uninit) (hf : s.handle.family = .spiNorSfdp)
  (hx : s.answers.xfer = .ok h :: .ok data :: rest) (hl : h.length = 15) (hp : parseHeader h = .ok hd)
include hdin hu hf hx hl hp

/-- Past a good header DISCOVER ends as its table read does. -/
theorem completes_discover_of_readTable {u : State} {v : Word32}
    (he : readTable .discover hd ((s.withHeader h (.ok data :: rest)).setPending (.table .discover hd)) = u.finish v) :
    Completes .discover s (u.finish v) := by
  have hfirst := (exec_discover hdin hu hf).trans (congrArg _ (readHeader_listed_ok hx hl .discover hp))
  refine ⟨reaches_iff.mpr ⟨_, hfirst, Leads.step ?_⟩, rfl⟩
  rw [← he]
  exact Leads.refl _

variable (hn : data.length = hd.ps.toNat)
include hn

/-- A table that is refused ends DISCOVER with the code of the check (R252 to R263). -/
theorem discover_rejects_table {e : ErrorName} (he : parseTable s.cfg (data.take 8) = .error e) :
    ∃ t, Completes .discover s t ∧ Finished s t e.code s.port.dout ∧ KeptByFailedDiscovery s t ∧ t.sfdp.hdrBuf = h ∧
      t.sfdp.ptBuf = data.take 8 :=
  have hr := (withBoth_reads h hd data rest s).trans (discoveryFailed_reads _)
  ⟨_, completes_discover_of_readTable hdin hu hf hx hl hp (readTable_listed_error rfl hn .discover he),
    hr.finished e.code, ⟨rfl, rfl⟩, rfl, rfl⟩

/-- A table that is accepted ends DISCOVER with Ok and with what header and table say (R261, R262). -/
theorem discover_accepts_table {tb : Table} (he : parseTable s.cfg (data.take 8) = .ok tb) :
    ∃ t, Completes .discover s t ∧ Finished s t 0 s.port.dout ∧ DiscoveryParsed s t h (data.take 8) hd tb ∧
      t.requests = s.requests ++ [s.wireCtx.fRdsfdp 0 15, s.wireCtx.fRdsfdp hd.pp.toNat hd.ps.toNat] := by
  have hr := withBoth_reads h hd data rest s
  have hdone : Reads s ((s.withBoth h hd data rest).discoveryCommit hd tb) _ :=
    hr.trans (reads_nil rfl rfl rfl rfl rfl)
  have hlength : (data.take 8).length = 8 := by
    have hsize := (parseHeader_ok_size hp).1
    rw [List.length_take, hn]
    omega
  exact ⟨_, completes_discover_of_readTable hdin hu hf hx hl hp (readTable_listed_ok rfl hn .discover he),
    hdone.finished 0, ⟨hp, he, hl, hlength, rfl, rfl⟩, hr.requests⟩

end

/-- Settles O42: the table read of a good header delivers the eight bytes, which the parser accepts if they are `TableOk`,
and refuses if they are not. -/
theorem tableChecks : Obligations.TableChecks := by
  intro s h n t0 t1 t2 t3 t4 t5 t6 t7 tail rest hdin hu hf hl hok hn htail hx ok
  obtain rfl : byteAt h 11 = n := byteAt_of_getElem? hn
  have hp := parseHeader_of_ok hl hok
  have hlen := htail.trans (tableSize_toNat _).symm
  by_cases htab : TableOk s.cfg t0 t2 t3 t4 t5 t6 t7
  · obtain ⟨tb, htb⟩ := parseTable_accepts_iff (t1 := t1).mpr htab
    obtain ⟨t, hc, hfin, parsed, -⟩ := discover_accepts_table hdin hu hf hx hl hp hlen htb
    exact ⟨t, 0, hc, hfin, by rw [parsed.sfdp], by rw [parsed.sfdp]; rfl,
      fun _ => ⟨rfl, by rw [parsed.sfdp], by rw [parsed.handle]⟩, fun hbad => absurd htab hbad⟩
  · obtain ⟨t, hc, hfin, hkept, hhdr, hpt⟩ :=
      discover_rejects_table hdin hu hf hx hl hp hlen (parseTable_of_not_ok htab)
    exact ⟨t, _, hc, hfin, hhdr, hpt, fun hgood => absurd hgood htab, fun _ => ⟨rfl, hkept⟩⟩

/-- The request of the table read, written out (R171, R249). -/
theorem tableRequest_eq (s : State) (h4 h5 h6 h9 h10 h11 h12 h13 h14 : Byte) :
    s.wireCtx.fRdsfdp (headerOf h4 h5 h6 h9 h10 h11 h12 h13 h14).pp.toNat
        (headerOf h4 h5 h6 h9 h10 h11 h12 h13 h14).ps.toNat =
      spiRequest s s.cfg.nor.rdsfdpOpc 8 (BitVec.ofNat 32 (h12.toNat + 256 * h13.toNat + 65536 * h14.toNat)) 24 8 []
        (4 * h11.toNat) := by
  have hpp : (headerOf h4 h5 h6 h9 h10 h11 h12 h13 h14).pp.toNat = h12.toNat + 256 * h13.toNat + 65536 * h14.toNat :=
    Nat.mod_eq_of_lt (by have := h12.isLt; have := h13.isLt; have := h14.isLt; omega)
  rw [fRdsfdp_eq_spiRequest, hpp, headerOf, tableSize_toNat]

/-- ADDR_LEN is the number of address bytes, in bits (R262). -/
theorem addrLen_eq_ofNat (ab : Byte) : 8#8 * ab = BitVec.ofNat 8 (8 * ab.toNat) := by
  rw [BitVec.ofNat_mul, BitVec.ofNat_toNat, BitVec.setWidth_eq]

/-- Settles O39: the parsers read the header (`parseHeader_fifteen`) and the table (`parseTable_eight_iff`), and the
commit writes what they read. -/
theorem discoverDecodesTheTable : Obligations.DiscoverDecodesTheTable := by
  intro s h0 h1 h2 h3 h4 h5 h6 h7 h8 h9 h10 h11 h12 h13 h14 t0 t1 t2 t3 t4 t5 t6 t7 tail rest ab bytes hdin hu hf hsig
    hid hdw htail ht0 ht2 ht3 hab hbytes hx gran pp
  obtain ⟨rfl, rfl, rfl, rfl⟩ := hsig
  have hok : HeaderOk [0x53, 0x46, 0x44, 0x50, h4, h5, h6, h7, h8, h9, h10, h11, h12, h13, h14] :=
    ⟨rfl, congrArg some hid, h11, rfl, hdw⟩
  have htb : parseTable s.cfg [t0, t1, t2, t3, t4, t5, t6, t7] = .ok (tableOf t0 t1 t2 ab bytes) :=
    parseTable_eight_iff.mpr ⟨ht0, ht2, ht3, ab, bytes, addrBytesOf_eq_some_iff.mpr hab, hbytes, rfl⟩
  obtain ⟨t, hc, hfin, parsed, hreq⟩ := discover_accepts_table hdin hu hf hx rfl (parseHeader_fifteen hok)
    (htail.trans (tableSize_toNat h11).symm) htb
  refine ⟨t, hc, hfin, parsed.sfdp, ?_, ?_⟩
  · rw [parsed.handle, tableOf, addrLen_eq_ofNat, ← BitVec.ofNat_toNat]
  · rw [hreq, headerRequest_eq, tableRequest_eq]

end Sys2Proof.Machine
end

section
/-! PROOFS, the handle commands INIT, DEINIT, GET_INFO, GET_SFDP and RAW_XFER (44_handle.md R280 to R291), and how
HSTATE moves over a whole command (R293). -/

namespace Sys2Proof.Machine

open Sys2Proof.Claims

/-! ### How HSTATE moves (R293) -/

/-- A command whose discovery is over has come to the discovery's end. -/
theorem DiscoveryEnds.leads_of_finished {s v t : State} {o : Option Word32} {rest : List Request} {who : Discoverer}
    (d : DiscoveryEnds s v o rest) (h : Leads (readHeader who s) t) (ht : t.pending = none) :
    Leads (v.endDiscovery who o) t := by
  rcases d.passes who t h with h | hb
  · exact h
  · obtain ⟨hd, hp⟩ := hb.pending
    rw [ht] at hp
    cases hp

/-- A discovery leaves a READY handle, or a BOUND one if it fails (R262, R263). -/
theorem DiscoveryEnds.hstate {s v : State} {o : Option Word32} {rest : List Request} (d : DiscoveryEnds s v o rest) :
    v.handle.hstate = .ready ∨ v.handle.hstate = .bound := by
  rcases d.result with ⟨c, -, -, hf⟩ | ⟨-, h, tab, hd, tb, hp, -⟩
  · exact .inr (by rw [hf.handle])
  · exact .inl (by rw [hp.handle])

/-- After its discovery DISCOVER finishes, and ERASE finishes or erases (R228, R240). -/
theorem endDiscovery_underway {who : Discoverer} (hwho : who ≠ .init) (o : Option Word32) (s : State) :
    Underway s (s.endDiscovery who o) := by
  cases who with
  | init => exact absurd rfl hwho
  | discover => cases o <;> exact .inr ⟨s, _, rfl, QuietErase.refl s⟩
  | erase value =>
    cases o with
    | none => exact startErase_underway .spiNorSfdp value (QuietErase.refl s)
    | some c => exact .inr ⟨s, c, rfl, QuietErase.refl s⟩

theorem Underway.hstate {s t : State} (h : Underway s t) : t.handle.hstate = s.handle.hstate := by
  rw [h.registers.1]

/-- DISCOVER, or an ERASE that discovers first, leaves a READY or a BOUND handle. -/
theorem readHeader_finished_hstate {who : Discoverer} {s t : State} (hwho : who ≠ .init)
    (h : Leads (readHeader who s) t) (ht : t.pending = none) :
    t.handle.hstate = .ready ∨ t.handle.hstate = .bound := by
  obtain ⟨o, v, rest, d⟩ := discovery_ends s
  rw [((endDiscovery_underway hwho o v).leads (d.leads_of_finished h ht)).hstate]
  exact d.hstate

/-- The discovery of an INIT leaves a READY handle, or a reset one if it fails (R280, R281). -/
theorem readHeader_init_finished_hstate {s t : State} (h : Leads (readHeader .init s) t) (ht : t.pending = none) :
    t.handle.hstate = .ready ∨ t.handle.hstate = .uninit := by
  obtain ⟨o, v, rest, d⟩ := discovery_ends s
  have hl := d.leads_of_finished h ht
  cases o with
  | none => exact .inl (by rw [hl.idle rfl]; rfl)
  | some c => exact .inr (by rw [hl.idle rfl]; rfl)

/-- Settles O55: by cases on the command's first step. A report, a frame, a WRITE and the frames of an erase keep
HSTATE; INIT, DEINIT and the commands with a discovery move it. -/
theorem handleLifecycle : Obligations.HandleLifecycle := by
  intro s t i hp ⟨hreach, ht⟩ hne
  obtain ⟨u, hu, hl⟩ := reaches_iff.mp hreach
  cases exec_cases hu with
  | report w d v q _ =>
    rw [hl.idle rfl] at hne
    exact absurd (congrArg Handle.hstate q.handle) hne
  | bind v sel e hi huninit _ _ _ => exact .inl ⟨v, sel, hi, huninit, by rw [hl.idle rfl]; rfl⟩
  | bindSfdp v sel hi huninit _ =>
    rcases readHeader_init_finished_hstate hl ht with hr | hun
    · exact .inl ⟨v, sel, hi, huninit, hr⟩
    · exact absurd (hun.trans huninit.symm) hne
  | release b w v hi _ => exact .inr (.inl ⟨b, hi, by rw [hl.idle rfl]; rfl⟩)
  | discover who hwho hbound hnor =>
    rcases hwho with ⟨hi, rfl⟩ | ⟨value, hi, rfl, -⟩
    · exact .inr (.inr ⟨.inl hi, hbound, hnor, readHeader_finished_hstate (by simp) hl ht⟩)
    · exact .inr (.inr ⟨.inr ⟨value, hi⟩, hbound, hnor, readHeader_finished_hstate (by simp) hl ht⟩)
  | write jobs p n _ _ hj _ =>
    have hkept := ((nextJob_underwayWrite jobs p n hj (Quiet.refl s)).leads hl.step).registers
    exact absurd (congrArg Handle.hstate hkept.1) hne
  | erase jobs g _ _ _ _ =>
    have hrun := (nextJob_underway jobs g (setProgress_quietErase 0#32 s)).leads hl.step
    exact absurd hrun.hstate hne
  | frame r _ =>
    rw [hl.idle (by rw [transport_pending, hp])] at hne
    exact absurd (congrArg Handle.hstate (transport_quiet r s).handle) hne

/-! ### INIT refused (R141, R283) -/

theorem resolve_of_past {p : Params} {v : Word32} (h : p.registry.length ≤ v.toNat) :
    p.resolve v = .error .invalidArgument := by
  rw [Params.resolve, List.getElem?_eq_none h]

theorem execInit_of_bound {s : State} (hu : s.handle.hstate ≠ .uninit) (v : Word32) (sel : Byte) :
    execInit v sel s = .next (s.raise .invalidArgument) := by
  simp [execInit, hu]

theorem execInit_of_past {s : State} {v : Word32} (h : s.cfg.registry.length ≤ v.toNat) (sel : Byte) :
    execInit v sel s = .next (s.raise .invalidArgument) := by
  simp [execInit, resolve_of_past h]

/-- Settles O45: the check of HSTATE refuses a bound handle, and `resolve` an identifier past the registry. -/
theorem initRefusals : Obligations.InitRefusals := by
  intro s v sel _ h
  rcases h with hu | hpast
  · exact execInit_of_bound hu v sel
  · exact execInit_of_past hpast sel

/-! ### DEINIT (R284, R285) -/

theorem transport_tdeinit_listed {s : State} {a : ReleaseAnswer} {rest : List ReleaseAnswer}
    (h : s.answers.release = a :: rest) : (transport .tdeinit s).1 = a.result := by
  simp [transport, State.takeRelease, h]

section
variable {s : State} (hd : s.port.din = []) (hu : s.handle.hstate ≠ .uninit)
include hd hu

/-- DEINIT without the transport's release. -/
theorem execDeinit_keep : execDeinit false s = .next (s.resetHandle.finish ErrorName.ok.code) := by
  simp [execDeinit, State.dinIs, hd, hu]

/-- DEINIT with a release that succeeds. -/
theorem execDeinit_okr {d : List Byte} (h : (transport .tdeinit s).1 = .okr d) :
    execDeinit true s = .next ((transport .tdeinit s).2.resetHandle.finish ErrorName.ok.code) := by
  rcases htr : transport .tdeinit s with ⟨r, u⟩
  rw [htr] at h
  subst h
  simp [execDeinit, State.dinIs, hd, hu, htr]

/-- DEINIT with a release that fails. -/
theorem execDeinit_bad {c : Word32} (h : (transport .tdeinit s).1 = .bad c) :
    execDeinit true s = .next ((transport .tdeinit s).2.resetHandle.finish c) := by
  rcases htr : transport .tdeinit s with ⟨r, u⟩
  rw [htr] at h
  subst h
  simp [execDeinit, State.dinIs, hd, hu, htr]

end

/-- The reset of the handle writes no port register, so the command still finishes as it should (R285). -/
theorem Quiet.finished_resetHandle {s u : State} (q : Quiet s u) (v : Word32) :
    Finished s (u.resetHandle.finish v) v s.port.dout :=
  finish_finished (u := u.resetHandle) (d := s.port.dout) q.port q.cfg q.hostIn v

/-- Settles O46: by cases on the release and on its answer; each way ends in the reset handle. -/
theorem deinitResetsTheHandle : Obligations.DeinitResetsTheHandle := by
  intro s hd hu
  refine ⟨⟨_, execDeinit_keep hd hu, (Quiet.refl s).finished_resetHandle _, rfl, rfl, rfl⟩, fun a rest ha => ?_⟩
  have hres := transport_tdeinit_listed ha
  have q := transport_quiet .tdeinit s
  have hreq := transport_requests .tdeinit s
  cases a with
  | ok => exact ⟨_, execDeinit_okr hd hu hres, q.finished_resetHandle _, rfl, rfl, hreq⟩
  | fail => exact ⟨_, execDeinit_bad hd hu hres, q.finished_resetHandle _, rfl, rfl, hreq⟩

/-! ### The records (R286 to R289) -/

theorem execGetInfo_eq {s : State} (hd : s.port.din = []) (hu : s.handle.hstate ≠ .uninit) :
    execGetInfo s = .next ((s.setDout (infoRecord s)).finish ErrorName.ok.code) := by
  simp [execGetInfo, State.dinIs, hd, hu]

theorem execGetSfdp_eq {s : State} (hd : s.port.din = []) (hr : s.handle.hstate = .ready)
    (hf : s.handle.family = .spiNorSfdp) (hp : s.sfdp.state = .parsed) :
    execGetSfdp s = .next ((s.setDout (sfdpRecord s)).finish ErrorName.ok.code) := by
  simp [execGetSfdp, State.dinIs, hd, hr, hf, hp]

/-- A register of at most 32 bits is read back from its four bytes of a record. -/
theorem leNat_four_toNat {w : Nat} (hw : w ≤ 32) (v : BitVec w) :
    leNat [byteOf v.toNat, byteOf (v.toNat / 256), byteOf (v.toNat / 256 / 256), byteOf (v.toNat / 256 / 256 / 256)] =
      v.toNat :=
  leNat_four (v.isLt.trans_le (Nat.pow_le_pow_right (by decide) hw))

/-- A flag is a byte of a record, 0 or 1. -/
theorem byteOf_toNat (b : Bool) : byteOf b.toNat = if b then 1 else 0 := by cases b <;> rfl

/-- NUM_PAGES fits its four bytes. -/
theorem numPages_lt (h : Handle) : numPages h < 2 ^ 32 := by
  unfold numPages
  split
  · decide
  · exact (Nat.div_le_self _ _).trans_lt h.size.isLt

/-- Settles O47: with the record written out byte by byte, each field stands at its offset and gives its register
back. -/
theorem getInfoReturnsTheRecord : Obligations.GetInfoReturnsTheRecord := by
  intro s hd hu
  have register (v : Word32) := leNat_four_toNat le_rfl v
  refine ⟨_, infoRecord s, execGetInfo_eq hd hu, (Quiet.refl s).finished_setDout _ _, ⟨rfl, rfl⟩, rfl, ?_⟩
  simp only [infoRecord, leBytes_one, leBytes_four, List.cons_append, List.nil_append]
  exact ⟨rfl, rfl, rfl, rfl, rfl, register s.handle.variant, register s.handle.size, register s.handle.pageSize, rfl,
    rfl, congrArg some (byteOf_toNat s.handle.wp), rfl, register s.handle.writeDelayMs,
    leNat_four (numPages_lt s.handle), register s.handle.progress⟩

/-- Settles O48: as for the GET_INFO record. -/
theorem getSfdpReturnsTheRecord : Obligations.GetSfdpReturnsTheRecord := by
  intro s hd hr hf hp
  refine ⟨_, sfdpRecord s, execGetSfdp_eq hd hr hf hp, (Quiet.refl s).finished_setDout _ _, ⟨rfl, rfl⟩, rfl, ?_⟩
  simp only [sfdpRecord, leBytes_one, leBytes_two, leBytes_four, List.cons_append, List.nil_append]
  exact ⟨rfl, leNat_two s.sfdp.hdrVer.isLt, rfl, rfl, leNat_two s.sfdp.ptVer.isLt, rfl,
    congrArg some (byteOf_toNat s.sfdp.dtr), leNat_four_toNat (by decide) s.sfdp.ptSize,
    leNat_four_toNat (by decide) s.sfdp.ptPtr, leNat_four_toNat le_rfl s.sfdp.arraySize,
    leNat_four_toNat (by decide) s.sfdp.writeGran⟩

/-! ### RAW_XFER (R290, R291) -/

/-- How RAW_XFER finishes on the result of its request: the bytes are DOUT, and a code is STATUS (R290, R309). -/
def ReportsResult (s t : State) : TRes → Prop
  | .okr data => Finished s t 0 data
  | .bad e => Finished s t e []

/-- An answer that is right or wrong by its length. -/
theorem reportsResult_ite {s t : State} {p : Prop} [Decidable p] {data : List Byte} {e : Word32} :
    ReportsResult s t (if p then .okr data else .bad e) ↔ if p then Finished s t 0 data else Finished s t e [] := by
  split <;> rfl

/-- What a listed answer to a data-reading request makes of it (R306): `OK` is right if it has all the bytes. -/
theorem reportsResult_xfer {s t : State} {n : Nat} (a : XferAnswer) :
    ReportsResult s t (a.result n) ↔
      match a with
      | .ok data => if data.length = n then Finished s t 0 data else Finished s t (BitVec.ofInt 32 (-1)) []
      | .err e => Finished s t e.code [] := by
  cases a with
  | ok data => exact reportsResult_ite
  | err e => rfl

/-- What a listed answer to an I2C write makes of it (R306): `OK` is right if it counts all the bytes. -/
theorem reportsResult_count {s t : State} {n : Nat} (a : CountAnswer) :
    ReportsResult s t (a.result n) ↔
      match a with
      | .ok m => if m = n then Finished s t 0 [] else Finished s t (BitVec.ofInt 32 (-1)) []
      | .err e => Finished s t e.code [] := by
  cases a with
  | ok m => exact reportsResult_ite
  | err e => rfl

section
variable {s : State} {addr len rlen : Word32} {opc : BitVec 16} {opw adw dmw : Byte}

/-- The request of RAW_XFER on SPI: opcode and address are cut to their widths. -/
theorem rawRequest_spi (h : s.handle.iface = .spi) (ho : opw.toNat ≤ 16) (ha : adw.toNat ≤ 32) :
    rawRequest addr rlen opc opw adw dmw s =
      some (spiRequest s (BitVec.ofNat 16 (opc.toNat % 2 ^ opw.toNat)) opw.toNat
        (BitVec.ofNat 32 (addr.toNat % 2 ^ adw.toNat)) adw.toNat dmw.toNat s.port.din rlen.toNat) := by
  rw [rawRequest, h]
  exact if_neg (by omega)

theorem rawRequest_badWidth (h : s.handle.iface = .spi) (hw : 16 < opw.toNat ∨ 32 < adw.toNat) :
    rawRequest addr rlen opc opw adw dmw s = none := by
  rw [rawRequest, h]
  exact if_pos hw

theorem rawRequest_i2cWrite (h : s.handle.iface = .i2c) :
    rawRequest addr 0#32 opc opw adw dmw s = some (.i2cWrite s.handle.select s.port.din s.cfg.txnTimeoutMs) := by
  rw [rawRequest, h]
  rfl

theorem rawRequest_i2cWriteRead (h : s.handle.iface = .i2c) (hn : rlen ≠ 0#32) :
    rawRequest addr rlen opc opw adw dmw s =
      some (.i2cWriteRead s.handle.select s.port.din rlen.toNat s.cfg.txnTimeoutMs) := by
  rw [rawRequest, h]
  exact if_neg hn

variable (hd : s.port.din.length = len.toNat) (hr : s.handle.hstate = .ready)
include hd hr

/-- RAW_XFER with no request to send. -/
theorem execRawXfer_of_none (h : rawRequest addr rlen opc opw adw dmw s = none) :
    execRawXfer addr len rlen opc opw adw dmw s = .next (s.raiseReading .invalidArgument) := by
  simp [execRawXfer, State.dinIs, hd, hr, h]

/-- RAW_XFER sends its one request and reports the result. -/
theorem rawXfer_reports {req : Request} {res : TRes} (h : rawRequest addr rlen opc opw adw dmw s = some req)
    (hres : (transport req s).1 = res) :
    ∃ t, exec (.rawXfer addr len rlen opc opw adw dmw) s = .next t ∧ SameHandle s t ∧
      t.requests = s.requests ++ [req] ∧ ReportsResult s t res := by
  have q := transport_quiet req s
  have hreq := transport_requests req s
  rcases htr : transport req s with ⟨r, u⟩
  rw [htr] at q hreq hres
  subst hres
  cases r with
  | okr bytes =>
    have he : execRawXfer addr len rlen opc opw adw dmw s = .next ((u.setDout bytes).finish ErrorName.ok.code) := by
      simp [execRawXfer, State.dinIs, hd, hr, h, htr]
    exact ⟨_, he, q.sameHandle, hreq, q.finished_setDout bytes _⟩
  | bad e =>
    have he : execRawXfer addr len rlen opc opw adw dmw s = .next ((u.setDout []).finish e) := by
      simp [execRawXfer, State.dinIs, hd, hr, h, htr]
    exact ⟨_, he, q.sameHandle, hreq, q.finished_setDout [] e⟩

end

/-- Settles O49: each form has its request, and `rawXfer_reports` says what becomes of the listed answer. -/
theorem rawXferSendsTheHostsRequest : Obligations.RawXferSendsTheHostsRequest := by
  intro s addr len rlen opc opw adw dmw hd hr
  refine ⟨fun hi ho hw a rest hx => ?_, fun hi hn a rest hx => ?_, fun hi hn a rest hc => ?_⟩
  · obtain ⟨t, he, hs, hreq, hres⟩ := rawXfer_reports hd hr (rawRequest_spi hi ho hw)
      (congrArg Prod.fst (transport_spiXfer_listed _ s a rest hx))
    exact ⟨t, he, hs, hreq, (reportsResult_xfer a).mp hres⟩
  · obtain ⟨t, he, hs, hreq, hres⟩ := rawXfer_reports hd hr (rawRequest_i2cWriteRead hi hn)
      (congrArg Prod.fst (transport_i2cWriteRead_listed _ _ _ _ s a rest hx))
    exact ⟨t, he, hs, hreq, (reportsResult_xfer a).mp hres⟩
  · subst hn
    obtain ⟨t, he, hs, hreq, hres⟩ := rawXfer_reports hd hr (rawRequest_i2cWrite hi)
      (congrArg Prod.fst (transport_i2cWrite_listed _ _ _ s a rest hc))
    exact ⟨t, he, hs, hreq, (reportsResult_count a).mp hres⟩

/-- Settles O50: a width that is too large leaves no request to send. -/
theorem rawXferChecksTheWidths : Obligations.RawXferChecksTheWidths := by
  intro s addr len rlen opc opw adw dmw hd hdout hr hi hw
  exact (execRawXfer_of_none hd hr (rawRequest_badWidth hi hw)).trans (congrArg _ (raiseReading_eq_raise hdout _))

end Sys2Proof.Machine
end

section
/-! PROOFS, the classification of the transport's answers (60_exceptions.md R303, R306). The `transport_…_listed` laws give
the step on a listed answer by the answer's `result`; what is left is to read `result` row by row. -/

namespace Sys2Proof.Machine

/-- A delay has no response and always succeeds (R113, R306). -/
@[simp] theorem transport_delay_result (ms : Word32) (s : State) : (transport (.delay ms) s).1 = .okr [] := rfl

/-- The sign bit stands above the 31 bits the transport chose, which stay as they are (R303). -/
theorem negCode_low_bits (e : NegCode) : e.code.toNat % 2 ^ 31 = e.low.toNat := by
  have hlow : e.code.setWidth 31 = e.low := BitVec.setWidth_append_eq_right
  rw [← hlow, BitVec.toNat_setWidth]

/-- Settles O15: each kind of request by its law for a listed answer, then by the rows of R306 for that answer. -/
theorem answersAreClassified : Obligations.AnswersAreClassified := by
  intro s
  refine ⟨fun d a rest hx => ?_, fun b w n tmo a rest hx => ?_, fun b w tmo a rest hc => ?_, fun a rest hr => ?_,
    fun ms => transport_delay_result ms s, fun e => ⟨negCode_neg e, negCode_low_bits e⟩⟩
  · rw [transport_spiXfer_listed d s a rest hx]
    cases a with
    | ok data => rfl
    | err e => rfl
  · rw [transport_i2cWriteRead_listed b w n tmo s a rest hx]
    cases a with
    | ok data => rfl
    | err e => rfl
  · rw [transport_i2cWrite_listed b w tmo s a rest hc]
    cases a with
    | ok m => rfl
    | err e => rfl
  · rw [transport_tdeinit_listed hr]
    cases a with
    | ok => rfl
    | fail => rfl

end Sys2Proof.Machine
end

section
/-! PROOFS, power-on (70_reset_and_hazards.md R330 to R332): the reset state register by register, and a power cycle as
that state with everything outside the block kept. -/

namespace Sys2Proof.Machine

/-! ### The reset state (R330) -/

/-- Settles O1: `State.reset` is the reset state for the suggested parameters, and the registers of a reset state are
those of `Handle.reset`, `Sfdp.reset` and `Port.reset` whatever the parameters are. -/
theorem resetStateIsAsSpecified : Obligations.ResetStateIsAsSpecified := by
  unfold Obligations.ResetStateIsAsSpecified
  intro asSpecified
  have hreset : ∀ p : Params, asSpecified (State.resetWith p) := by
    intro p
    dsimp only [asSpecified]
    and_intros <;> rfl
  exact ⟨hreset Config.suggested, hreset⟩

/-! ### A power cycle (R331, R332) -/

/-- A power cycle is the reset state for the block's parameters: of the state before it there is left what stands outside
the block. -/
theorem State.powerOn_eq_resetWith (s : State) :
    s.powerOn =
      { State.resetWith s.cfg with hostIn := s.hostIn, answers := s.answers, wire := s.wire, drawn := s.drawn } := rfl

/-- A power cycle needs no idle block: its step reads neither BUSY nor what is in progress. -/
theorem step_of_powerOn {s : State} {rest : List HostEvent} (ha : s.cfg.admitted = true)
    (h : s.hostIn = .powerOn :: rest) : step s = .next s.takeEvent.powerOn := by
  rw [step, if_pos ha, h]

/-- Settles O2: the step is a power cycle once its event is taken, so it leaves the reset state, with the events after
that one. -/
theorem powerOnResetsEveryRegister : Obligations.PowerOnResetsEveryRegister := by
  intro s rest ha h
  have hrest : s.takeEvent.hostIn = rest := by rw [State.takeEvent_hostIn, h]; rfl
  rw [step_of_powerOn ha h, State.powerOn_eq_resetWith, hrest]
  rfl

end Sys2Proof.Machine
end
